-- ==== Sys2Proof/Word.lean ====
section
/-! DEFINITION. The machine word and the byte (00_scope.md section 5.1: every register and address value is an
unsigned bit-vector of a stated width). -/

namespace Sys2Proof

/-- A 64-bit register or address value (10_state.md R24, R28, R36). -/
abbrev Word := BitVec 64

/-- The unit of addressing (10_state.md R40). -/
abbrev Byte := BitVec 8

end Sys2Proof
end

