-- ==== Sys2Proof/Machine/Bytes.lean ====
section
/-! DEFINITION. Byte order, sign and zero extension, truncation (20_memory.md R72 to R74; 00_scope.md section 5.1). -/

namespace Sys2Proof.Machine

/-- The low `n` bytes of `v`, least-significant first (20_memory.md R72, R75). -/
def leBytes : Nat → Word → List Byte
  | 0, _ => []
  | n + 1, v => v.setWidth 8 :: leBytes n (v >>> 8)

/-- The value whose byte `k` is the `k`-th of the list (20_memory.md R74), zero-extended to 64 bits. -/
def leWord : List Byte → Word
  | [] => 0
  | b :: bs => b.setWidth 64 ||| (leWord bs <<< 8)

/-- `sext_64` of an 8-bit field (30_encoding.md R121). -/
def sext8 (d : BitVec 8) : Word := d.signExtend 64

/-- `sext_64` of a 32-bit field (30_encoding.md R121, R122). -/
def sext32 (d : BitVec 32) : Word := d.signExtend 64

/-- `zext_64` of a 32-bit value (10_state.md R26). -/
def zext32 (d : BitVec 32) : Word := d.setWidth 64

/-- `trunc_32`. -/
def trunc32 (v : Word) : BitVec 32 := v.setWidth 32

end Sys2Proof.Machine
end

