-- ==== Sys2Proof/Syntax.lean ====
section
/-! DEFINITION. The instructions: one constructor per row of opcode_table.json, and the operands they carry.
The syntax keeps every choice an encoding leaves (the order of the legacy bytes, a REX byte that sets no bit, a scale
without an index), so that an instruction determines its bytes, its length and with it `next` (30_encoding.md R129). -/

namespace Sys2Proof

/-- The sixteen general registers (10_state.md R24), in the order of their numbers. -/
inductive Reg where
  | rax | rcx | rdx | rbx | rsp | rbp | rsi | rdi
  | r8 | r9 | r10 | r11 | r12 | r13 | r14 | r15
deriving DecidableEq, Repr

/-- The six segments (10_state.md R32). -/
inductive Seg where
  | cs | ds | es | ss | fs | gs
deriving DecidableEq, Repr

/-- The two segment overrides that are admitted: 64h and 65h (30_encoding.md R118). -/
inductive SegOverride where
  | fs | gs
deriving DecidableEq, Repr

/-- The legacy bytes before REX (30_encoding.md R126): 67h, 64h, 65h, each at most once, 64h and 65h never together,
in any order. -/
inductive Prefixes where
  | empty
  | addr32
  | seg (s : SegOverride)
  | addr32Seg (s : SegOverride)
  | segAddr32 (s : SegOverride)
deriving DecidableEq, Repr

/-- The scale factor 1, 2, 4 or 8 of a SIB byte (30_encoding.md R120). -/
inductive Scale where
  | s1 | s2 | s4 | s8
deriving DecidableEq, Repr

/-- The displacement field after ModRM and SIB: absent, 8 or 32 bits (30_encoding.md R121, R125). -/
inductive Disp where
  | d0
  | d8 (d : BitVec 8)
  | d32 (d : BitVec 32)
deriving DecidableEq, Repr

/-- The ModRM memory forms of 64-bit mode (30_encoding.md R125). -/
inductive MemOperand where
  /-- mod 00, rm 101: `next + disp32`. -/
  | ripRel (d : BitVec 32)
  /-- No SIB byte: `base + disp`. -/
  | base (b : Reg) (d : Disp)
  /-- SIB byte with a base: `base + index * scale + disp`; no index when the field is 0100. -/
  | sib (b : Reg) (i : Option Reg) (sc : Scale) (d : Disp)
  /-- SIB byte, mod 00, base 101: no base, `index * scale + disp32`. -/
  | sibNoBase (i : Option Reg) (sc : Scale) (d : BitVec 32)
deriving DecidableEq, Repr

/-- The r/m operand (42_data_movement.md R235): a register (mod 11), or memory with the legacy bytes that apply. -/
inductive RegMem where
  | reg (r : Reg)
  | mem (p : Prefixes) (m : MemOperand)
deriving DecidableEq, Repr

/-- A memory-offset operand (40_addressing.md R176): 8 offset bytes, or 4 with 67h. -/
structure Moffs where
  pre : Prefixes
  offset : Word
deriving DecidableEq, Repr

/-- Operand size (30_encoding.md R127): 32 bits, or 64 with REX.W = 1. -/
inductive OpSize where
  | d32 | q64
deriving DecidableEq, Repr

/-- Effective address size (30_encoding.md R116); 16 never occurs in 64-bit mode (R117). -/
inductive AddrSize where
  | a16 | a32 | a64
deriving DecidableEq, Repr

/-- Why a byte string has no meaning in the model (30_encoding.md R132). -/
inductive RefuseReason where
  | prefixNotAdmitted
  | unknownOpcode
  | namedNotModelled
  | rexBitUnused
deriving DecidableEq, Repr

/-- The instructions of opcode_table.json. `rex` says whether a form with operand size 32, or one whose REX byte is
optional, carries a REX byte; the forms with REX.W = 1 always do. -/
inductive Instr where
  /-- 50+r, R261. -/
  | pushR64 (rex : Bool) (src : Reg)
  /-- 58+r, R262. -/
  | popR64 (rex : Bool) (dst : Reg)
  /-- 89 without REX.W, R233. -/
  | movRm32R32 (rex : Bool) (dst : RegMem) (src : Reg)
  /-- 89 with REX.W, R233. -/
  | movRm64R64 (dst : RegMem) (src : Reg)
  /-- 8B without REX.W, R234. -/
  | movR32Rm32 (rex : Bool) (dst : Reg) (src : RegMem)
  /-- 8B with REX.W, R234. -/
  | movR64Rm64 (dst : Reg) (src : RegMem)
  /-- 8D without REX.W, R240. -/
  | leaR32M (rex : Bool) (addr32 : Bool) (dst : Reg) (src : MemOperand)
  /-- 8D with REX.W, R240. -/
  | leaR64M (addr32 : Bool) (dst : Reg) (src : MemOperand)
  /-- A1 without REX.W, R238. -/
  | movEaxMoffs (rex : Bool) (src : Moffs)
  /-- A1 with REX.W, R238. -/
  | movRaxMoffs (src : Moffs)
  /-- A3 without REX.W, R239. -/
  | movMoffsEax (rex : Bool) (dst : Moffs)
  /-- A3 with REX.W, R239. -/
  | movMoffsRax (dst : Moffs)
  /-- B8+r with REX.W, R231. -/
  | movR64Imm64 (dst : Reg) (imm : Word)
  /-- B8+r without REX.W, R232. -/
  | movR32Imm32 (rex : Bool) (dst : Reg) (imm : BitVec 32)
  /-- C3, R265. -/
  | ret
  /-- C7 /0 without REX.W, R236. -/
  | movRm32Imm32 (rex : Bool) (dst : RegMem) (imm : BitVec 32)
  /-- C7 /0 with REX.W, R236. -/
  | movRm64Imm32 (dst : RegMem) (imm : BitVec 32)
  /-- CD, R267; its vector byte is not read (opcode_table.json: "1-byte immediate (not read)"). -/
  | intImm8
  /-- CF, R268. -/
  | iret
  /-- E8, R264. -/
  | callRel32 (rel : BitVec 32)
  /-- E9, R266. -/
  | jmpRel32 (rel : BitVec 32)
  /-- EB, R263. -/
  | jmpRel8 (rel : BitVec 8)
deriving DecidableEq, Repr

end Sys2Proof
end

