-- ==== Sys2Proof/WellFormed.lean ====
section
/-! DEFINITION. Which instruction terms have an encoding (30_encoding.md R125, R126, R128, R176). -/

namespace Sys2Proof

/-- Registers 8 to 15, whose number needs a REX bit (30_encoding.md R128). -/
def Reg.extended : Reg → Bool
  | .rax | .rcx | .rdx | .rbx | .rsp | .rbp | .rsi | .rdi => false
  | .r8 | .r9 | .r10 | .r11 | .r12 | .r13 | .r14 | .r15 => true

/-- The registers whose low three number bits are 100: as `rm` they announce a SIB byte (R125). -/
def Reg.lowIs4 (r : Reg) : Bool := r == .rsp || r == .r12

/-- The registers whose low three number bits are 101: with mod 00 they mean "no base register" (R125). -/
def Reg.lowIs5 (r : Reg) : Bool := r == .rbp || r == .r13

/-- Whether the index, if there is one, needs REX.X. -/
def indexExtended : Option Reg → Bool
  | none => false
  | some r => r.extended

/-- An index field of 0100 means "no index", so RSP is never an index (R125). -/
def indexOk (i : Option Reg) : Bool := i != some .rsp

/-- Whether the base, if there is one, needs REX.B. -/
def MemOperand.baseExtended : MemOperand → Bool
  | .base b _ | .sib b _ _ _ => b.extended
  | .ripRel _ | .sibNoBase _ _ _ => false

/-- Whether the index, if there is one, needs REX.X. -/
def MemOperand.indexExt : MemOperand → Bool
  | .sib _ i _ _ | .sibNoBase i _ _ => indexExtended i
  | .ripRel _ | .base _ _ => false

/-- The rows of R125 that exist: RSP and R12 as a base need a SIB byte, RBP and R13 need a displacement. -/
def MemOperand.wf : MemOperand → Bool
  | .ripRel _ => true
  | .base b d => !b.lowIs4 && (d != .d0 || !b.lowIs5)
  | .sib b i _ d => indexOk i && (d != .d0 || !b.lowIs5)
  | .sibNoBase i _ _ => indexOk i

def RegMem.wf : RegMem → Bool
  | .reg _ => true
  | .mem _ m => m.wf

/-- Whether the operand needs REX.B. -/
def RegMem.baseExtended : RegMem → Bool
  | .reg r => r.extended
  | .mem _ m => m.baseExtended

/-- Whether the operand needs REX.X. -/
def RegMem.indexExt : RegMem → Bool
  | .reg _ => false
  | .mem _ m => m.indexExt

/-- Whether the operand needs a REX byte. -/
def RegMem.extended (o : RegMem) : Bool := o.baseExtended || o.indexExt

/-- Whether 67h is among the legacy bytes. -/
def Prefixes.hasAddr32 : Prefixes → Bool
  | .empty | .seg _ => false
  | .addr32 | .addr32Seg _ | .segAddr32 _ => true

/-- With 67h the offset field has 32 bits (40_addressing.md R176). -/
def Moffs.wf (o : Moffs) : Bool := !o.pre.hasAddr32 || decide (o.offset.toNat < 2 ^ 32)

/-- A form without a REX byte names no register that needs one. -/
def rexOk (rex ext : Bool) : Bool := rex || !ext

/-- The instruction terms that have an encoding. -/
def Instr.wf : Instr → Bool
  | .pushR64 rex r | .popR64 rex r | .movR32Imm32 rex r _ => rexOk rex r.extended
  | .movRm32R32 rex o r | .movR32Rm32 rex r o => o.wf && rexOk rex (r.extended || o.extended)
  | .movRm64R64 o _ | .movR64Rm64 _ o => o.wf
  | .leaR32M rex _ r m => m.wf && rexOk rex (r.extended || m.baseExtended || m.indexExt)
  | .leaR64M _ _ m => m.wf
  | .movEaxMoffs _ o | .movRaxMoffs o | .movMoffsEax _ o | .movMoffsRax o => o.wf
  | .movRm32Imm32 rex o _ => o.wf && rexOk rex o.extended
  | .movRm64Imm32 o _ => o.wf
  | .movR64Imm64 _ _ | .ret | .intImm8 | .iret | .callRel32 _ | .jmpRel32 _ | .jmpRel8 _ => true

end Sys2Proof
end

