-- ==== Sys2Proof/Decode.lean ====
section
/-! DEFINITION. The decoder (30_encoding.md R118 to R132), total on any list of bytes: an instruction and the bytes
after it, a refusal by a reason of R132, or "more bytes are needed"; after it the encoder, written from the same
tables, and the length of an instruction (R129). Bytes are read in address order and each check stands at the first
byte that decides it, so a byte the decoder does not need is never looked at (60_exceptions.md R305). -/

namespace Sys2Proof

/-! ## Register numbers (10_state.md R24, 30_encoding.md R128) -/

/-- The 4-bit number of a register. -/
def Reg.num : Reg → BitVec 4
  | .rax => 0 | .rcx => 1 | .rdx => 2 | .rbx => 3 | .rsp => 4 | .rbp => 5 | .rsi => 6 | .rdi => 7
  | .r8 => 8 | .r9 => 9 | .r10 => 10 | .r11 => 11 | .r12 => 12 | .r13 => 13 | .r14 => 14 | .r15 => 15

/-- The register of a 4-bit number. -/
def Reg.ofNum (n : BitVec 4) : Reg :=
  match n.toNat with
  | 0 => .rax | 1 => .rcx | 2 => .rdx | 3 => .rbx | 4 => .rsp | 5 => .rbp | 6 => .rsi | 7 => .rdi
  | 8 => .r8 | 9 => .r9 | 10 => .r10 | 11 => .r11 | 12 => .r12 | 13 => .r13 | 14 => .r14 | _ => .r15

/-- The three number bits that stand in the opcode, ModRM or SIB byte. -/
def Reg.low3 (r : Reg) : BitVec 3 := r.num.setWidth 3

/-- The register of a REX extension bit and a 3-bit field (R128). -/
def Reg.ofBits (ext : Bool) (low : BitVec 3) : Reg := Reg.ofNum (BitVec.ofBool ext ++ low)

/-! ## Bytes with fields -/

/-- The bits W, R, X, B of a REX byte (R119). -/
structure Rex where
  w : Bool
  r : Bool
  x : Bool
  b : Bool
deriving DecidableEq, Repr

/-- Whether a byte is 40h to 4Fh (R119). -/
def isRex (b : Byte) : Bool := b.extractLsb' 4 4 == 4#4

def Rex.ofByte (b : Byte) : Rex := ⟨b.getLsbD 3, b.getLsbD 2, b.getLsbD 1, b.getLsbD 0⟩

def Rex.toByte (x : Rex) : Byte :=
  4#4 ++ (BitVec.ofBool x.w ++ (BitVec.ofBool x.r ++ (BitVec.ofBool x.x ++ BitVec.ofBool x.b)))

/-- The extension bits of an instruction without a REX byte are 0 (R128). -/
def Rex.absent : Rex := ⟨false, false, false, false⟩

/-- Legacy bytes that are refused wherever they stand (R132, reason 1). -/
def isOtherLegacy (b : Byte) : Bool :=
  b == 0x26#8 || b == 0x2E#8 || b == 0x36#8 || b == 0x3E#8 || b == 0x66#8 || b == 0xF0#8 || b == 0xF2#8 || b == 0xF3#8

/-- Every legacy byte: the refused ones and 64h, 65h, 67h. -/
def isLegacy (b : Byte) : Bool := isOtherLegacy b || b == 0x64#8 || b == 0x65#8 || b == 0x67#8

/-- A byte of fields 2, 3 and 3 bits wide, high to low: ModRM and SIB (R120). -/
def fieldByte (hi : BitVec 2) (mid low : BitVec 3) : Byte := hi ++ (mid ++ low)

def hiField (b : Byte) : BitVec 2 := b.extractLsb' 6 2
def midField (b : Byte) : BitVec 3 := b.extractLsb' 3 3
def lowField (b : Byte) : BitVec 3 := b.extractLsb' 0 3

/-- The SIB scale field (R120): the factor is 2^scale. -/
def Scale.bits : Scale → BitVec 2
  | .s1 => 0 | .s2 => 1 | .s4 => 2 | .s8 => 3

def Scale.ofBits (b : BitVec 2) : Scale :=
  match b.toNat with
  | 0 => .s1 | 1 => .s2 | 2 => .s4 | _ => .s8

/-! ## Results of the decoder -/

/-- What a piece of the decoder answers on the bytes it is given. -/
inductive Decoded (α : Type) where
  /-- It has read `a`; these bytes follow. -/
  | ok (a : α) (rest : List Byte)
  /-- The bytes ran out before anything was decided. -/
  | more
  /-- The bytes are refused (R132). -/
  | refuse (r : RefuseReason)
deriving DecidableEq, Repr

/-- One piece after another. -/
def Decoded.andThen {α β : Type} (d : Decoded α) (f : α → List Byte → Decoded β) : Decoded β :=
  match d with
  | .ok a rest => f a rest
  | .more => .more
  | .refuse r => .refuse r

/-- The next byte. -/
def takeByte : List Byte → Decoded Byte
  | [] => .more
  | b :: bs => .ok b bs

/-- A little-endian field of `n` bytes (R124), zero-extended to 64 bits. -/
def takeLe : Nat → List Byte → Decoded Word
  | 0, bs => .ok 0 bs
  | _ + 1, [] => .more
  | n + 1, b :: bs => (takeLe n bs).andThen fun v rest => .ok (b.setWidth 64 ||| (v <<< 8)) rest

/-- A 32-bit field. -/
def take32 (bs : List Byte) : Decoded (BitVec 32) := (takeLe 4 bs).andThen fun v rest => .ok (v.setWidth 32) rest

/-! ## Legacy bytes and REX (R126; R132 reason 1) -/

/-- 67h after the legacy bytes read so far. -/
def Prefixes.add67 : Prefixes → Option Prefixes
  | .empty => some .addr32
  | .seg s => some (.segAddr32 s)
  | .addr32 | .addr32Seg _ | .segAddr32 _ => none

/-- 64h or 65h after the legacy bytes read so far. -/
def Prefixes.addSeg (s : SegOverride) : Prefixes → Option Prefixes
  | .empty => some (.seg s)
  | .addr32 => some (.addr32Seg s)
  | .seg _ | .addr32Seg _ | .segAddr32 _ => none

/-- The segment override among the legacy bytes (R118). -/
def Prefixes.segOverride : Prefixes → Option SegOverride
  | .empty | .addr32 => none
  | .seg s | .addr32Seg s | .segAddr32 s => some s

/-- What one legacy byte adds: `none` if it is not admitted, `some none` if the byte is no legacy byte. -/
def Prefixes.add (p : Prefixes) (b : Byte) : Option (Option Prefixes) :=
  if b == 0x67#8 then p.add67.map some
  else if b == 0x64#8 then (p.addSeg .fs).map some
  else if b == 0x65#8 then (p.addSeg .gs).map some
  else if isOtherLegacy b then none
  else some none

/-- Reads legacy bytes until one that is none. -/
def decodePrefixes (p : Prefixes) : List Byte → Decoded Prefixes
  | [] => .more
  | b :: bs =>
    match p.add b with
    | none => .refuse .prefixNotAdmitted
    | some none => .ok p (b :: bs)
    | some (some q) => decodePrefixes q bs

/-- Reads a REX byte, if there is one, and the opcode byte; after a REX byte no legacy and no REX byte may stand. -/
def decodeRexOpcode (bs : List Byte) : Decoded (Option Rex × Byte) :=
  (takeByte bs).andThen fun b rest =>
    if isRex b then
      (takeByte rest).andThen fun op rest' =>
        if isLegacy op || isRex op then .refuse .prefixNotAdmitted else .ok (some (Rex.ofByte b), op) rest'
    else .ok (none, b) rest

/-! ## The opcode map (R130) -/

/-- The rows of R130. -/
inductive Op where
  | push | pop | movStore | movLoad | lea | moffsLoad | moffsStore | movImm | ret | movRmImm | int | iret
  | call | jmp32 | jmp8
deriving DecidableEq, Repr

/-- One row: which opcode bytes select it, which legacy bytes it lists, which REX bits it lists (`rexAny` is false where
the column says "none": then no REX byte at all). -/
structure OpcodeRow where
  pattern : Byte
  mask : Byte
  op : Op
  addr : Bool
  seg : Bool
  rexAny : Bool
  rex : Rex
deriving DecidableEq, Repr

/-- The table of R130, row by row. -/
def opcodeRows : List OpcodeRow :=
  [ ⟨0x50, 0xF8, .push,       false, false, true,  ⟨false, false, false, true⟩⟩
  , ⟨0x58, 0xF8, .pop,        false, false, true,  ⟨false, false, false, true⟩⟩
  , ⟨0x89, 0xFF, .movStore,   true,  true,  true,  ⟨true,  true,  true,  true⟩⟩
  , ⟨0x8B, 0xFF, .movLoad,    true,  true,  true,  ⟨true,  true,  true,  true⟩⟩
  , ⟨0x8D, 0xFF, .lea,        true,  false, true,  ⟨true,  true,  true,  true⟩⟩
  , ⟨0xA1, 0xFF, .moffsLoad,  true,  true,  true,  ⟨true,  false, false, false⟩⟩
  , ⟨0xA3, 0xFF, .moffsStore, true,  true,  true,  ⟨true,  false, false, false⟩⟩
  , ⟨0xB8, 0xF8, .movImm,     false, false, true,  ⟨true,  false, false, true⟩⟩
  , ⟨0xC3, 0xFF, .ret,        false, false, false, Rex.absent⟩
  , ⟨0xC7, 0xFF, .movRmImm,   true,  true,  true,  ⟨true,  false, true,  true⟩⟩
  , ⟨0xCD, 0xFF, .int,        false, false, false, Rex.absent⟩
  , ⟨0xCF, 0xFF, .iret,       false, false, false, Rex.absent⟩
  , ⟨0xE8, 0xFF, .call,       false, false, false, Rex.absent⟩
  , ⟨0xE9, 0xFF, .jmp32,      false, false, false, Rex.absent⟩
  , ⟨0xEB, 0xFF, .jmp8,       false, false, false, Rex.absent⟩ ]

/-- A byte `b` selects the row when `b & mask = match` (R135). -/
def OpcodeRow.selects (r : OpcodeRow) (b : Byte) : Bool := b &&& r.mask == r.pattern

def findRow (b : Byte) : Option OpcodeRow := opcodeRows.find? (·.selects b)

/-- Reason 3 of R132: the legacy bytes and the REX byte against the row. -/
def OpcodeRow.check (row : OpcodeRow) (p : Prefixes) (rex : Option Rex) : Option RefuseReason :=
  if (p.hasAddr32 && !row.addr) || (p.segOverride.isSome && !row.seg) then some .prefixNotAdmitted
  else
    match rex with
    | none => none
    | some x =>
      if !row.rexAny || (x.w && !row.rex.w) || (x.r && !row.rex.r) || (x.x && !row.rex.x) || (x.b && !row.rex.b) then
        some .rexBitUnused
      else none

/-! ## ModRM, SIB and displacement (R120, R125; R132 reason 4) -/

/-- The displacement that `mod` announces, for a form with a base (R125). -/
def decodeDisp (md : BitVec 2) (bs : List Byte) : Decoded Disp :=
  match md.toNat with
  | 1 => (takeByte bs).andThen fun d rest => .ok (.d8 d) rest
  | 2 => (take32 bs).andThen fun d rest => .ok (.d32 d) rest
  | _ => .ok .d0 bs

/-- The index field with REX.X on top; 0100 means no index (R125). -/
def indexOfBits (x : Bool) (field : BitVec 3) : Option Reg :=
  if !x && field == 4#3 then none else some (Reg.ofBits x field)

/-- The SIB byte and the displacement after it. -/
def decodeSib (md : BitVec 2) (rex : Rex) (bs : List Byte) : Decoded MemOperand :=
  (takeByte bs).andThen fun s rest =>
    let sc := Scale.ofBits (hiField s)
    let ix := indexOfBits rex.x (midField s)
    if md == 0#2 && lowField s == 5#3 then
      if rex.b then .refuse .rexBitUnused
      else (take32 rest).andThen fun d rest' => .ok (.sibNoBase ix sc d) rest'
    else (decodeDisp md rest).andThen fun d rest' => .ok (.sib (Reg.ofBits rex.b (lowField s)) ix sc d) rest'

/-- The memory operand after a ModRM byte with `mod` other than 11. -/
def decodeMem (md : BitVec 2) (rm : BitVec 3) (rex : Rex) (bs : List Byte) : Decoded MemOperand :=
  if rm == 4#3 then decodeSib md rex bs
  else if rex.x then .refuse .rexBitUnused
  else if md == 0#2 && rm == 5#3 then
    if rex.b then .refuse .rexBitUnused else (take32 bs).andThen fun d rest => .ok (.ripRel d) rest
  else (decodeDisp md bs).andThen fun d rest => .ok (.base (Reg.ofBits rex.b rm) d) rest

/-- The ModRM byte and what belongs to it: the register of the `reg` field and the r/m operand. `bad` says which
values of `mod` and `reg` the opcode does not admit (UnknownOpcode, R132 reason 4). -/
def decodeModRM (bad : BitVec 2 → BitVec 3 → Bool) (p : Prefixes) (rex : Rex) (bs : List Byte) :
    Decoded (Reg × RegMem) :=
  (takeByte bs).andThen fun m rest =>
    let reg := Reg.ofBits rex.r (midField m)
    if bad (hiField m) (midField m) then .refuse .unknownOpcode
    else if hiField m == 3#2 then
      if p != .empty then .refuse .prefixNotAdmitted
      else if rex.x then .refuse .rexBitUnused
      else .ok (reg, .reg (Reg.ofBits rex.b (lowField m))) rest
    else (decodeMem (hiField m) (lowField m) rex rest).andThen fun o rest' => .ok (reg, .mem p o) rest'

/-- The offset field of a memory-offset MOV: 4 bytes with 67h, else 8 (40_addressing.md R176). -/
def decodeMoffs (p : Prefixes) (bs : List Byte) : Decoded Moffs :=
  (takeLe (if p.hasAddr32 then 4 else 8) bs).andThen fun v rest => .ok ⟨p, v⟩ rest

/-! ## The whole instruction -/

/-- Every value of `mod` and `reg` is admitted. -/
def anyModReg (_ : BitVec 2) (_ : BitVec 3) : Bool := false
/-- LEA has no register form. -/
def leaBad (md : BitVec 2) (_ : BitVec 3) : Bool := md == 3#2
/-- C7 has only the row /0. -/
def c7Bad (_ : BitVec 2) (reg : BitVec 3) : Bool := reg != 0#3

/-- What follows the opcode byte, once the row has admitted the legacy bytes and the REX byte. -/
def decodeOperands (op : Op) (opcode : Byte) (p : Prefixes) (rex : Option Rex) (bs : List Byte) : Decoded Instr :=
  let x := rex.getD Rex.absent
  let r := Reg.ofBits x.b (lowField opcode)
  match op with
  | .push => .ok (.pushR64 rex.isSome r) bs
  | .pop => .ok (.popR64 rex.isSome r) bs
  | .movStore =>
    (decodeModRM anyModReg p x bs).andThen fun o rest =>
      .ok (if x.w then .movRm64R64 o.2 o.1 else .movRm32R32 rex.isSome o.2 o.1) rest
  | .movLoad =>
    (decodeModRM anyModReg p x bs).andThen fun o rest =>
      .ok (if x.w then .movR64Rm64 o.1 o.2 else .movR32Rm32 rex.isSome o.1 o.2) rest
  | .lea =>
    (decodeModRM leaBad p x bs).andThen fun o rest =>
      match o.2 with
      | .reg _ => .refuse .unknownOpcode
      | .mem q m => .ok (if x.w then .leaR64M q.hasAddr32 o.1 m else .leaR32M rex.isSome q.hasAddr32 o.1 m) rest
  | .moffsLoad =>
    (decodeMoffs p bs).andThen fun o rest => .ok (if x.w then .movRaxMoffs o else .movEaxMoffs rex.isSome o) rest
  | .moffsStore =>
    (decodeMoffs p bs).andThen fun o rest => .ok (if x.w then .movMoffsRax o else .movMoffsEax rex.isSome o) rest
  | .movImm =>
    if x.w then (takeLe 8 bs).andThen fun v rest => .ok (.movR64Imm64 r v) rest
    else (take32 bs).andThen fun v rest => .ok (.movR32Imm32 rex.isSome r v) rest
  | .ret => .ok .ret bs
  | .movRmImm =>
    (decodeModRM c7Bad p x bs).andThen fun o rest =>
      (take32 rest).andThen fun v rest' =>
        .ok (if x.w then .movRm64Imm32 o.2 v else .movRm32Imm32 rex.isSome o.2 v) rest'
  | .int => .ok .intImm8 bs
  | .iret => .ok .iret bs
  | .call => (take32 bs).andThen fun v rest => .ok (.callRel32 v) rest
  | .jmp32 => (take32 bs).andThen fun v rest => .ok (.jmpRel32 v) rest
  | .jmp8 => (takeByte bs).andThen fun v rest => .ok (.jmpRel8 v) rest

/-- Reason 2 before reason 3 (R132): a CD or CF byte behind any admitted legacy or REX byte is refused as named and
not modelled at the opcode byte; alone it is the instruction INT or IRET, whose meaning is that same refusal. -/
def Op.isNamed (op : Op) : Bool := op == .int || op == .iret

/-- The instruction at the head of a list of bytes. -/
def decode (bs : List Byte) : Decoded Instr :=
  (decodePrefixes .empty bs).andThen fun p bs1 =>
    (decodeRexOpcode bs1).andThen fun ro bs2 =>
      match findRow ro.2 with
      | none => .refuse .unknownOpcode
      | some row =>
        match row.check p ro.1 with
        | some why => .refuse (if row.op.isNamed then .namedNotModelled else why)
        | none => decodeOperands row.op ro.2 p ro.1 bs2

/-! ## The encoder (R119, R120, R125, R126, R130) -/

def SegOverride.byte : SegOverride → Byte
  | .fs => 0x64
  | .gs => 0x65

def Prefixes.bytes : Prefixes → List Byte
  | .empty => []
  | .addr32 => [0x67]
  | .seg s => [s.byte]
  | .addr32Seg s => [0x67, s.byte]
  | .segAddr32 s => [s.byte, 0x67]

/-- The REX byte of a form that carries one. -/
def rexBytes (rex : Bool) (x : Rex) : List Byte := if rex then [x.toByte] else []

/-- An opcode byte with a register field (R130, `+r`). -/
def opcodeReg (op : BitVec 5) (r : Reg) : Byte := op ++ r.low3

/-- `mod` for a form with a base (R125). -/
def Disp.modBits : Disp → BitVec 2
  | .d0 => 0
  | .d8 _ => 1
  | .d32 _ => 2

def bytes32 (v : BitVec 32) : List Byte := Machine.leBytes 4 (Machine.zext32 v)

def Disp.bytes : Disp → List Byte
  | .d0 => []
  | .d8 d => [d]
  | .d32 d => bytes32 d

def indexBits : Option Reg → BitVec 3
  | none => 4
  | some r => r.low3

/-- ModRM with this `reg` field, SIB and displacement (R125). -/
def MemOperand.bytes (reg : BitVec 3) : MemOperand → List Byte
  | .ripRel d => fieldByte 0 reg 5 :: bytes32 d
  | .base b d => fieldByte d.modBits reg b.low3 :: d.bytes
  | .sib b i sc d => fieldByte d.modBits reg 4 :: fieldByte sc.bits (indexBits i) b.low3 :: d.bytes
  | .sibNoBase i sc d => fieldByte 0 reg 4 :: fieldByte sc.bits (indexBits i) 5 :: bytes32 d

def RegMem.bytes (reg : BitVec 3) : RegMem → List Byte
  | .reg r => [fieldByte 3 reg r.low3]
  | .mem _ m => m.bytes reg

/-- The legacy bytes an r/m operand puts before the instruction. -/
def RegMem.prefixBytes : RegMem → List Byte
  | .reg _ => []
  | .mem p _ => p.bytes

/-- The REX bits of an instruction with a `reg` field and an r/m operand (R119). -/
def RegMem.rex (w : Bool) (reg : Bool) (o : RegMem) : Rex := ⟨w, reg, o.indexExt, o.baseExtended⟩

def MemOperand.rex (w : Bool) (reg : Bool) (m : MemOperand) : Rex := ⟨w, reg, m.indexExt, m.baseExtended⟩

def addrBytes (addr32 : Bool) : List Byte := if addr32 then [0x67] else []

def Moffs.offsetBytes (o : Moffs) : List Byte := Machine.leBytes (if o.pre.hasAddr32 then 4 else 8) o.offset

/-- The bytes of a well-formed instruction, lowest address first. -/
def encode : Instr → List Byte
  | .pushR64 rex r => rexBytes rex ⟨false, false, false, r.extended⟩ ++ [opcodeReg 0b01010 r]
  | .popR64 rex r => rexBytes rex ⟨false, false, false, r.extended⟩ ++ [opcodeReg 0b01011 r]
  | .movRm32R32 rex o r => o.prefixBytes ++ rexBytes rex (o.rex false r.extended) ++ 0x89#8 :: o.bytes r.low3
  | .movRm64R64 o r => o.prefixBytes ++ rexBytes true (o.rex true r.extended) ++ 0x89#8 :: o.bytes r.low3
  | .movR32Rm32 rex r o => o.prefixBytes ++ rexBytes rex (o.rex false r.extended) ++ 0x8B#8 :: o.bytes r.low3
  | .movR64Rm64 r o => o.prefixBytes ++ rexBytes true (o.rex true r.extended) ++ 0x8B#8 :: o.bytes r.low3
  | .leaR32M rex a r m => addrBytes a ++ rexBytes rex (m.rex false r.extended) ++ 0x8D#8 :: m.bytes r.low3
  | .leaR64M a r m => addrBytes a ++ rexBytes true (m.rex true r.extended) ++ 0x8D#8 :: m.bytes r.low3
  | .movEaxMoffs rex o => o.pre.bytes ++ rexBytes rex Rex.absent ++ 0xA1#8 :: o.offsetBytes
  | .movRaxMoffs o => o.pre.bytes ++ rexBytes true ⟨true, false, false, false⟩ ++ 0xA1#8 :: o.offsetBytes
  | .movMoffsEax rex o => o.pre.bytes ++ rexBytes rex Rex.absent ++ 0xA3#8 :: o.offsetBytes
  | .movMoffsRax o => o.pre.bytes ++ rexBytes true ⟨true, false, false, false⟩ ++ 0xA3#8 :: o.offsetBytes
  | .movR64Imm64 r v => rexBytes true ⟨true, false, false, r.extended⟩ ++ opcodeReg 0b10111 r :: Machine.leBytes 8 v
  | .movR32Imm32 rex r v => rexBytes rex ⟨false, false, false, r.extended⟩ ++ opcodeReg 0b10111 r :: bytes32 v
  | .ret => [0xC3]
  | .movRm32Imm32 rex o v => o.prefixBytes ++ rexBytes rex (o.rex false false) ++ 0xC7#8 :: (o.bytes 0 ++ bytes32 v)
  | .movRm64Imm32 o v => o.prefixBytes ++ rexBytes true (o.rex true false) ++ 0xC7#8 :: (o.bytes 0 ++ bytes32 v)
  | .intImm8 => [0xCD]
  | .iret => [0xCF]
  | .callRel32 v => 0xE8#8 :: bytes32 v
  | .jmpRel32 v => 0xE9#8 :: bytes32 v
  | .jmpRel8 v => [0xEB, v]

/-! ## Length (R129) -/

def Prefixes.count : Prefixes → Nat
  | .empty => 0
  | .addr32 | .seg _ => 1
  | .addr32Seg _ | .segAddr32 _ => 2

def Disp.size : Disp → Nat
  | .d0 => 0
  | .d8 _ => 1
  | .d32 _ => 4

/-- ModRM, SIB and displacement bytes. -/
def MemOperand.size : MemOperand → Nat
  | .ripRel _ => 1 + 4
  | .base _ d => 1 + d.size
  | .sib _ _ _ d => 1 + 1 + d.size
  | .sibNoBase _ _ _ => 1 + 1 + 4

def RegMem.size : RegMem → Nat
  | .reg _ => 1
  | .mem _ m => m.size

def RegMem.prefixCount : RegMem → Nat
  | .reg _ => 0
  | .mem p _ => p.count

def Moffs.size (o : Moffs) : Nat := o.pre.count + (if o.pre.hasAddr32 then 4 else 8)

/-- `L`: legacy bytes, REX byte, opcode, ModRM group, immediate or memory offset (R129). INT counts the opcode byte
only: its vector byte is not read (opcode_table.json). -/
def Instr.length : Instr → Nat
  | .pushR64 rex _ | .popR64 rex _ => rex.toNat + 1
  | .movRm32R32 rex o _ | .movR32Rm32 rex _ o => o.prefixCount + rex.toNat + 1 + o.size
  | .movRm64R64 o _ | .movR64Rm64 _ o => o.prefixCount + 1 + 1 + o.size
  | .leaR32M rex a _ m => a.toNat + rex.toNat + 1 + m.size
  | .leaR64M a _ m => a.toNat + 1 + 1 + m.size
  | .movEaxMoffs rex o | .movMoffsEax rex o => rex.toNat + 1 + o.size
  | .movRaxMoffs o | .movMoffsRax o => 1 + 1 + o.size
  | .movR64Imm64 _ _ => 1 + 1 + 8
  | .movR32Imm32 rex _ _ => rex.toNat + 1 + 4
  | .movRm32Imm32 rex o _ => o.prefixCount + rex.toNat + 1 + o.size + 4
  | .movRm64Imm32 o _ => o.prefixCount + 1 + 1 + o.size + 4
  | .ret | .intImm8 | .iret => 1
  | .callRel32 _ | .jmpRel32 _ => 1 + 4
  | .jmpRel8 _ => 1 + 1

/-- The longest admitted instruction has 14 bytes (R129). -/
def maxLength : Nat := 14

/-! ## Words of the opcode table -/

/-- The bytes of a number whose bit 0 is the least significant bit of the first byte: `n` bytes. -/
def tableBytes : Nat → Nat → List Byte
  | 0, _ => []
  | n + 1, w => BitVec.ofNat 8 w :: tableBytes n (w / 256)

/-- The first `nbits` bits of `w` as bytes, every bit above them 0, up to the longest instruction. -/
def tableWordBytes (nbits w : Nat) : List Byte := tableBytes maxLength (w % 2 ^ nbits)

/-- The instruction the decoder reads from an instruction whose bits are `w`. -/
def decodeTableWord (nbits w : Nat) : Option Instr :=
  match decode (tableWordBytes nbits w) with
  | .ok i _ => some i
  | .more | .refuse _ => none

end Sys2Proof
end

