-- ==== Sys2Proof/Config.lean ====
section
/-! DEFINITION. The parameters of a launch (00_scope.md section 4, 70_reset_and_hazards.md R331) and the segments and
paging functions the spec treats as opaque. The parameters are plain data carried by State and never changed by a step
(notes/assumptions/1.md), so a statement about every state is a statement about every choice of them. -/

namespace Sys2Proof

/-- The bytes `base`, …, `base + size - 1`. -/
structure Region where
  base : Nat
  size : Nat
deriving DecidableEq, Repr

/-- The launch parameters of 00_scope.md section 4 that are not the launch value of a register. -/
structure Config where
  /-- Number of the most-significant implemented virtual-address bit, `VA_BITS - 1` (R3: 1 ≤ VA_BITS ≤ 64). -/
  vaTop : Fin 64
  /-- `PA_BITS - 1` (R4: 1 ≤ PA_BITS ≤ 52); read only by the description of the pipeline. -/
  paTop : Fin 52
  /-- `Mapped`: the virtual byte addresses that exist (20_memory.md R88), as a union of regions. -/
  mapped : List Region
  /-- `CodeRange`: the bytes of the program text (20_memory.md R94), as a union of regions. -/
  codeRange : List Region
  /-- `STOP`: the address at which a run ends (70_reset_and_hazards.md R334). -/
  stop : Word
  /-- `REAL_WRAP_20`: whether bit 20 of a real-mode sum is dropped (90_conflicts.md C6). -/
  realWrap20 : Bool
deriving DecidableEq, Repr

/-- `VA_BITS`, the number of implemented virtual-address bits (00_scope.md R3). -/
def Config.vaBits (c : Config) : Nat := c.vaTop.val + 1

/-- `PA_BITS`, the number of physical-address bits (00_scope.md R4). -/
def Config.paBits (c : Config) : Nat := c.paTop.val + 1

/-- A memory segment of compatibility and protected mode: its base address and its size, at most 4 GB, held as the last
offset in it (20_memory.md R62, R69). -/
structure Segment where
  base : BitVec 32
  lastOffset : BitVec 32
deriving DecidableEq, Repr, Inhabited

/-- Which of the 16K segments of compatibility and protected mode a selector names (20_memory.md R69, R91); opaque,
because the spec does not say how a selector names one (notes/assumptions/20.md). -/
opaque Config.segmentNumber : BitVec 16 → Fin 16384

/-- The 16K segments (R62, R69); opaque, because the spec gives no descriptor (notes/assumptions/20.md). -/
opaque Config.segmentTable : Fin 16384 → Segment

/-- The long-mode paging function (20_memory.md R65, R67): at most 52 physical bits; opaque by R6 and R88. -/
opaque Config.longModePaging : Word → BitVec 52

/-- The optional legacy paging function (20_memory.md R69, R70): opaque by R6. -/
opaque Config.legacyPaging : BitVec 32 → BitVec 32

end Sys2Proof
end

