-- ==== Sys2Proof/Machine/State.lean ====
section
/-! DEFINITION. The machine's state as plain data (10_state.md R46, with the segment selectors, descriptor bits and
operating mode of R20, R22, R32, R39 and R47 held as well), the reasons a step stops, and the state after reset. -/

namespace Sys2Proof.Machine

/-- The sixteen general registers (10_state.md R24). -/
structure Regs where
  rax : Word
  rcx : Word
  rdx : Word
  rbx : Word
  rsp : Word
  rbp : Word
  rsi : Word
  rdi : Word
  r8 : Word
  r9 : Word
  r10 : Word
  r11 : Word
  r12 : Word
  r13 : Word
  r14 : Word
  r15 : Word
deriving DecidableEq, Repr

/-- The 16-bit selectors the six segment registers hold (10_state.md R32). No instruction reads one (R37). -/
structure Selectors where
  cs : BitVec 16
  ds : BitVec 16
  es : BitVec 16
  ss : BitVec 16
  fs : BitVec 16
  gs : BitVec 16
deriving DecidableEq, Repr

/-- The operating modes (10_state.md R20); the submode of long mode follows from the L and D bits (R22). -/
inductive Mode where
  | long
  | legacyProtected
  | virtual8086
  | real
deriving DecidableEq, Repr

/-- The kinds of `raise` and `fault` (60_exceptions.md R300, R303). -/
inductive FaultKind where
  /-- General-protection exception: a non-canonical reference not through SS, fetch or branch target. -/
  | gp
  /-- Stack fault: a non-canonical reference through SS. -/
  | ss
  /-- The model's own: a byte outside `Mapped` (20_memory.md R88). -/
  | unmapped
  /-- The model's own: a store into `CodeRange` (20_memory.md R94). -/
  | codeWrite
deriving DecidableEq, Repr

/-- `status` of 10_state.md R46: running, or ended at the instruction at address `a`. -/
inductive Status where
  | running
  | faulted (k : FaultKind) (a : Word)
  | refused (r : RefuseReason) (a : Word)
deriving DecidableEq, Repr

/-- Memory: the bytes that differ from what an unlisted address reads as, by rising address (10_state.md R40). -/
abbrev Memory := List Host.Cell

structure State where
  /-- `x[0..15]` (R24). -/
  regs : Regs
  /-- The instruction pointer (R28, R29). -/
  rip : Word
  /-- The base of FS (R36). -/
  fsbase : Word
  /-- The base of GS (R36). -/
  gsbase : Word
  /-- Segment selectors (R32). -/
  sel : Selectors
  /-- L bit of the current code-segment descriptor (R22). -/
  csL : Bool
  /-- D bit of the current code-segment descriptor (R22). -/
  csD : Bool
  /-- B bit of the stack-segment descriptor (R39). -/
  ssB : Bool
  /-- Operating mode (R20). -/
  mode : Mode
  /-- `M` (R40). -/
  mem : Memory
  /-- The bytes stored to since the launch, as a union of regions: the model's own record, by which no byte is executed
  after it was stored (20_memory.md R94, decision D10; notes/assumptions/30.md). -/
  written : List Region
  /-- R46. -/
  status : Status
  /-- The launch parameters (00_scope.md section 4), never changed by a step. -/
  cfg : Config
deriving DecidableEq, Repr

/-- Why there is no step. -/
inductive Fault where
  /-- `rip = STOP`: the run has ended (70_reset_and_hazards.md R334). Answered by `step`. Safe: the chip would go on. -/
  | runEnded
  /-- The status is Faulted: an exception is terminal (41_pointers_stack_ip.md R218, 60_exceptions.md R303). Answered by
  `step` on the state after an exception. Safe: the chip would enter a handler. -/
  | halted (k : FaultKind) (a : Word)
deriving DecidableEq, Repr

/-- What the spec gives no meaning to. -/
inductive Refusal where
  /-- An instruction whose meaning is not written. Answered by `exec`. Safe. -/
  | notModelled (mnemonic : String)
  /-- The bytes at address `a` are refused by this reason of 30_encoding.md R132. Answered by `step` on bytes the decoder
  refuses, by the meanings of INT and IRET, and by `step` on a state whose status records it. Safe. -/
  | encoding (r : RefuseReason) (a : Word)
  /-- The instruction at address `a` has a byte the run has stored to: R94 of 20_memory.md refuses the question whether a
  fetch sees such a store (decision D10). Answered by `step`. Safe: the chip would go on. -/
  | fetchOfStoredByte (a : Word)
  /-- The machine is not in 64-bit mode (10_state.md R21; 93_implementation_defined.md U6). Answered by `step`. Safe. -/
  | modeNotExecutable
deriving DecidableEq, Repr

/-- DESIGN CHOICE (notes/assumptions/2.md): the spec gives no reset value (10_state.md R47). -/
def Regs.reset : Regs := ⟨0, 0, 0, 0, 0, 0, 0, 0, 0, 0, 0, 0, 0, 0, 0, 0⟩

/-- DESIGN CHOICE (notes/assumptions/3.md): the launch that 95_test_vectors.md assumes unless a vector says otherwise. -/
def Config.reset : Config where
  vaTop := 47
  paTop := 51
  mapped := [⟨0, 2 ^ 47⟩, ⟨2 ^ 64 - 2 ^ 47, 2 ^ 47⟩]
  codeRange := [⟨0x1000, 16⟩]
  stop := 0
  realWrap20 := true

/-- The state right after reset: 64-bit mode with L = 1 and D = 0, running (10_state.md R47); every other field is a
launch parameter of the spec and has the value of notes/assumptions/2.md and 3.md. -/
def State.reset : State where
  regs := Regs.reset
  rip := 0x1000
  fsbase := 0
  gsbase := 0
  sel := ⟨0, 0, 0, 0, 0, 0⟩
  csL := true
  csD := false
  ssB := false
  mode := .long
  mem := []
  written := []
  status := .running
  cfg := Config.reset

end Sys2Proof.Machine
end

