-- ==== Sys2Proof/Machine/Ops.lean ====
section
/-! DEFINITION. The named operations over registers and memory, the checks of a reference, and taking an exception
(10_state.md R24, R26; 20_memory.md R74, R75, R80 to R88; 60_exceptions.md R302 to R304). -/

namespace Sys2Proof.Machine

/-! ## General registers (10_state.md R24, R26) -/

def Regs.get (f : Regs) : Reg → Word
  | .rax => f.rax | .rcx => f.rcx | .rdx => f.rdx | .rbx => f.rbx
  | .rsp => f.rsp | .rbp => f.rbp | .rsi => f.rsi | .rdi => f.rdi
  | .r8 => f.r8 | .r9 => f.r9 | .r10 => f.r10 | .r11 => f.r11
  | .r12 => f.r12 | .r13 => f.r13 | .r14 => f.r14 | .r15 => f.r15

def Regs.set (f : Regs) (r : Reg) (v : Word) : Regs :=
  match r with
  | .rax => { f with rax := v } | .rcx => { f with rcx := v } | .rdx => { f with rdx := v } | .rbx => { f with rbx := v }
  | .rsp => { f with rsp := v } | .rbp => { f with rbp := v } | .rsi => { f with rsi := v } | .rdi => { f with rdi := v }
  | .r8 => { f with r8 := v } | .r9 => { f with r9 := v } | .r10 => { f with r10 := v } | .r11 => { f with r11 := v }
  | .r12 => { f with r12 := v } | .r13 => { f with r13 := v } | .r14 => { f with r14 := v } | .r15 => { f with r15 := v }

/-- `x[i]`: all 64 bits (R24). -/
def State.reg (s : State) (r : Reg) : Word := s.regs.get r

/-- `x[i] <- v` (R24). -/
def State.setReg (s : State) (r : Reg) (v : Word) : State := { s with regs := s.regs.set r v }

/-- Operand size in bytes (42_data_movement.md R235). -/
def opBytes : OpSize → Nat
  | .d32 => 4
  | .q64 => 8

/-- The low `8n` bits of a value, zero-extended: a 32-bit read of a register is `x[i][31:0]` (R26). -/
def opLow (n : OpSize) (v : Word) : Word :=
  match n with
  | .d32 => zext32 (trunc32 v)
  | .q64 => v

/-- A result of operand size `n` written to a register: a 32-bit result is zero-extended (R26). -/
def State.setRegSized (s : State) (n : OpSize) (r : Reg) (v : Word) : State := s.setReg r (opLow n v)

/-! ## Memory cells -/

/-- What an address that is not listed reads as. DESIGN CHOICE (notes/assumptions/4.md). -/
def unlistedByte : Byte := 0

/-- Whether every address is above `lo`, rising, below 2^64, and no entry holds the unlisted byte. -/
def Memory.wfAbove : Nat → Memory → Bool
  | _, [] => true
  | lo, (a, b) :: m => decide (lo ≤ a) && decide (a < 2 ^ 64) && (b != unlistedByte) && Memory.wfAbove (a + 1) m

/-- The canonical form of a memory. -/
def Memory.wf (m : Memory) : Bool := Memory.wfAbove 0 m

/-- `M[a]` (10_state.md R40). -/
def Memory.read : Memory → Nat → Byte
  | [], _ => unlistedByte
  | (k, v) :: m, a => if k = a then v else Memory.read m a

/-- `M[a] <- b`, keeping the canonical form: writing the unlisted byte removes the entry. -/
def Memory.write : Memory → Nat → Byte → Memory
  | [], a, b => if b = unlistedByte then [] else [(a, b)]
  | (k, v) :: m, a, b =>
    if a < k then if b = unlistedByte then (k, v) :: m else (a, b) :: (k, v) :: m
    else if k = a then if b = unlistedByte then m else (a, b) :: m
    else (k, v) :: Memory.write m a b

/-- The `n` bytes from `a` upward. -/
def Memory.readBytes (m : Memory) : Nat → Nat → List Byte
  | _, 0 => []
  | a, n + 1 => m.read a :: m.readBytes (a + 1) n

/-- The bytes `bs` at `a`, `a + 1`, …. -/
def Memory.writeBytes (m : Memory) (a : Nat) : List Byte → Memory
  | [] => m
  | b :: bs => Memory.writeBytes (m.write a b) (a + 1) bs

/-! ## Canonical form, segments, checks (20_memory.md) -/

/-- `Canonical(a)` (R80): bits 63 down to the most-significant implemented bit are all 0 or all 1. -/
def canonical (c : Config) (a : Word) : Bool :=
  let hi := a >>> c.vaTop.val
  hi == 0#64 || hi == BitVec.allOnes 64 >>> c.vaTop.val

/-- Whether a byte address lies in one of the regions. -/
def inRegions (rs : List Region) (a : Nat) : Bool := rs.any fun r => decide (r.base ≤ a) && decide (a < r.base + r.size)

/-- The regions with the `n` bytes at `a` added; nothing is added where they are all there already. -/
def addRegion (rs : List Region) (a n : Nat) : List Region :=
  if (List.range n).all fun k => inRegions rs (a + k) then rs else ⟨a, n⟩ :: rs

/-- Whether the run has stored to the byte at `a` (R94). -/
def State.wrote (s : State) (a : Nat) : Bool := inRegions s.written a

/-- `SegBase(seg)` in 64-bit mode (R84). -/
def segBase (s : State) : Seg → Word
  | .cs | .ds | .es | .ss => 0
  | .fs => s.fsbase
  | .gs => s.gsbase

/-- `Linear(seg, ea)` (R85): the sum wraps modulo 2^64. -/
def linear (s : State) (seg : Seg) (ea : Word) : Word := segBase s seg + ea

/-- Byte `k` of a reference at `la` is within the address space and canonical (R86). -/
def byteOk (c : Config) (la : Word) (k : Nat) : Bool :=
  decide (la.toNat + k < 2 ^ 64) && canonical c (la + BitVec.ofNat 64 k)

/-- The exception a non-canonical reference raises (R82). -/
def canonicalFault : Seg → FaultKind
  | .ss => .ss
  | .cs | .ds | .es | .fs | .gs => .gp

/-- `CheckedAddr(seg, ea, n)` (R86). Every byte is checked, and running past 2^64 is a violation
(notes/assumptions/13.md). -/
def checkedAddr (s : State) (seg : Seg) (ea : Word) (n : Nat) : Except FaultKind Word :=
  let la := linear s seg ea
  if (List.range n).all (byteOk s.cfg la) then .ok la else .error (canonicalFault seg)

/-- Every byte of the reference is in `Mapped` (R88). -/
def allMapped (c : Config) (la : Word) (n : Nat) : Bool :=
  (List.range n).all fun k => inRegions c.mapped (la.toNat + k)

/-- Some byte of the reference is in `CodeRange` (R94). -/
def touchesCode (c : Config) (la : Word) (n : Nat) : Bool :=
  (List.range n).any fun k => inRegions c.codeRange (la.toNat + k)

/-- `MemRead(addr, n)` (R74), zero-extended to 64 bits. -/
def memRead (s : State) (la : Word) (n : Nat) : Except FaultKind Word :=
  if allMapped s.cfg la n then .ok (leWord (s.mem.readBytes la.toNat n)) else .error .unmapped

/-- `MemWrite(addr, n, v)` (R75): the low `n` bytes of `v`, which count as stored from then on (R94); no byte is written
when it faults. -/
def memWrite (s : State) (la : Word) (n : Nat) (v : Word) : Except FaultKind State :=
  if !allMapped s.cfg la n then .error .unmapped
  else if touchesCode s.cfg la n then .error .codeWrite
  else .ok { s with
    mem := s.mem.writeBytes la.toNat (leBytes n v)
    written := addRegion s.written la.toNat n }

/-- `Load(seg, ea, n)` (R87). -/
def load (s : State) (seg : Seg) (ea : Word) (n : Nat) : Except FaultKind Word := do
  let la ← checkedAddr s seg ea n
  memRead s la n

/-- `Store(seg, ea, n, v)` (R87). -/
def store (s : State) (seg : Seg) (ea : Word) (n : Nat) (v : Word) : Except FaultKind State := do
  let la ← checkedAddr s seg ea n
  memWrite s la n v

/-! ## Taking an exception, refusing, ending an instruction -/

/-- `raise` and `fault` (60_exceptions.md R302, R303, R304; 41_pointers_stack_ip.md R218): the status records the kind
and the address of the instruction, and every other field is as before it. `s` is the state before the instruction. -/
def raise (k : FaultKind) (s : State) : Host.Outcome State Fault Refusal :=
  .next { s with status := .faulted k s.rip }

/-- `refuse` (30_encoding.md R132): the spec gives the bytes at `rip` no meaning. The state stepped from is unchanged;
the reason and the address are in the outcome (notes/assumptions/6.md). -/
def refuse (r : RefuseReason) (s : State) : Host.Outcome State Fault Refusal := .refused (.encoding r s.rip)

/-- The end of an instruction that began in `s`: commit the new state, or take the exception with no partial effect
(60_exceptions.md R304). -/
def finish (s : State) : Except FaultKind State → Host.Outcome State Fault Refusal
  | .ok t => .next t
  | .error k => raise k s

/-- `rip <- v`. -/
def State.setRip (s : State) (v : Word) : State := { s with rip := v }

/-- `next` (41_pointers_stack_ip.md R217): the address of the byte after the instruction. -/
def nextRip (i : Instr) (s : State) : Word := s.rip + BitVec.ofNat 64 i.length

/-- The target check of a control transfer (43_stack_and_control.md R270). -/
def checkTarget (s : State) (target : Word) : Except FaultKind Unit :=
  if canonical s.cfg target then .ok () else .error .gp

end Sys2Proof.Machine
end

