-- ==== Sys2Proof/Machine/Operands.lean ====
section
/-! DEFINITION. Operands: effective addresses (40_addressing.md R160 to R176), segments, the r/m operand
(42_data_movement.md R235), the memory offset (R176) and the implicit stack reference (43_stack_and_control.md R260). -/

namespace Sys2Proof.Machine

/-- `EffAddrSize(prefix67)` in 64-bit mode (R163). -/
def effAddrSize (addr32 : Bool) : AddrSize := if addr32 then .a32 else .a64

/-- `zext_64(trunc_asz(sum))` (R160). -/
def truncAddr (asz : AddrSize) (sum : Word) : Word :=
  match asz with
  | .a16 => (sum.setWidth 16).setWidth 64
  | .a32 => (sum.setWidth 32).setWidth 64
  | .a64 => sum

/-- log2 of the scale factor (30_encoding.md R120). -/
def scaleLog2 : Scale → Nat
  | .s1 => 0 | .s2 => 1 | .s4 => 2 | .s8 => 3

/-- `D` of R173: the sign-extended displacement (30_encoding.md R121). -/
def dispValue : Disp → Word
  | .d0 => 0
  | .d8 d => sext8 d
  | .d32 d => sext32 d

/-- The index term: `x[index] * 2^scale` modulo 2^64, or 0 (R173, R242). -/
def indexTerm (s : State) (i : Option Reg) (sc : Scale) : Word :=
  match i with
  | none => 0
  | some r => s.reg r <<< scaleLog2 sc

/-- `sum` of R173; `nx` is `next`. -/
def addrSum (s : State) (nx : Word) : MemOperand → Word
  | .ripRel d => nx + sext32 d
  | .base b d => s.reg b + dispValue d
  | .sib b i sc d => s.reg b + indexTerm s i sc + dispValue d
  | .sibNoBase i sc d => indexTerm s i sc + sext32 d

/-- `EA` (R173). -/
def effAddr (s : State) (nx : Word) (addr32 : Bool) (m : MemOperand) : Word :=
  truncAddr (effAddrSize addr32) (addrSum s nx m)

/-- The base register of a memory operand, if it has one. -/
def baseReg : MemOperand → Option Reg
  | .base b _ | .sib b _ _ _ => some b
  | .ripRel _ | .sibNoBase _ _ _ => none

/-- Default segment (R174): SS when the base register is rSP or rBP, DS otherwise. -/
def defaultSeg (m : MemOperand) : Seg := if baseReg m = some .rsp ∨ baseReg m = some .rbp then .ss else .ds

/-- Effective segment (R175): an override replaces the default. -/
def effSeg (p : Prefixes) (dflt : Seg) : Seg :=
  match p.segOverride with
  | some .fs => .fs
  | some .gs => .gs
  | none => dflt

/-- Segment of a memory operand with its legacy bytes. -/
def memSeg (p : Prefixes) (m : MemOperand) : Seg := effSeg p (defaultSeg m)

/-- Reads the r/m operand (R235). -/
def readRm (s : State) (nx : Word) (n : OpSize) : RegMem → Except FaultKind Word
  | .reg r => .ok (opLow n (s.reg r))
  | .mem p m => load s (memSeg p m) (effAddr s nx p.hasAddr32 m) (opBytes n)

/-- Writes the r/m operand (R235). -/
def writeRm (s : State) (nx : Word) (n : OpSize) (v : Word) : RegMem → Except FaultKind State
  | .reg r => .ok (s.setRegSized n r v)
  | .mem p m => store s (memSeg p m) (effAddr s nx p.hasAddr32 m) (opBytes n) v

/-- Effective address of a memory-offset operand (R176): `zext_64(offset)`, with an offset field of 32 bits when the
instruction has 67h. -/
def moffsAddr (o : Moffs) : Word := truncAddr (effAddrSize o.pre.hasAddr32) o.offset

/-- Segment of a memory-offset operand (R175, R238): DS unless overridden. -/
def moffsSeg (o : Moffs) : Seg := effSeg o.pre .ds

/-- Reads the memory-offset operand (42_data_movement.md R238). -/
def readMoffs (s : State) (n : OpSize) (o : Moffs) : Except FaultKind Word :=
  load s (moffsSeg o) (moffsAddr o) (opBytes n)

/-- Writes the memory-offset operand (R239). -/
def writeMoffs (s : State) (n : OpSize) (o : Moffs) (v : Word) : Except FaultKind State :=
  store s (moffsSeg o) (moffsAddr o) (opBytes n) v

/-- The stack slot below the stack pointer: `trunc_64(x[4] - 8)` (43_stack_and_control.md R261). -/
def pushSlot (s : State) : Word := s.reg .rsp - 8

/-- Stores 8 bytes in that slot through SS and moves the stack pointer to it (R261, R264). -/
def push (s : State) (v : Word) : Except FaultKind State := do
  let t ← store s .ss (pushSlot s) 8 v
  pure (t.setReg .rsp (pushSlot s))

/-- The 8 bytes at the stack pointer, through SS (R262, R265). -/
def top (s : State) : Except FaultKind Word := load s .ss (s.reg .rsp) 8

/-- `x[4] <- trunc_64(x[4] + 8)` (R262, R265). -/
def dropTop (s : State) : State := s.setReg .rsp (s.reg .rsp + 8)

end Sys2Proof.Machine
end

