-- ==== Sys2Proof/Machine/Control.lean ====
section
/-! DEFINITION. JMP, CALL and RET (43_stack_and_control.md R263 to R266, R270). -/

namespace Sys2Proof.Machine

/-- The target of a relative transfer: `trunc_64(next + sext_64(rel))` (40_addressing.md R154). -/
def relTarget (nx rel : Word) : Word := nx + rel

/-- A jump to a checked target (R263, R270). -/
def jumpTo (s : State) (target : Word) : Host.Outcome State Fault Refusal :=
  finish s do
    checkTarget s target
    pure (s.setRip target)

/-- JMP rel8 (R263). -/
def execJmpRel8 (rel : BitVec 8) (s : State) : Host.Outcome State Fault Refusal :=
  jumpTo s (relTarget (nextRip (.jmpRel8 rel) s) (sext8 rel))

/-- JMP rel32 (R266). -/
def execJmpRel32 (rel : BitVec 32) (s : State) : Host.Outcome State Fault Refusal :=
  jumpTo s (relTarget (nextRip (.jmpRel32 rel) s) (sext32 rel))

/-- CALL rel32 (R264): the target is checked first, then `next` is pushed. -/
def execCallRel32 (rel : BitVec 32) (s : State) : Host.Outcome State Fault Refusal :=
  let nx := nextRip (.callRel32 rel) s
  let target := relTarget nx (sext32 rel)
  finish s do
    checkTarget s target
    let t ← push s nx
    pure (t.setRip target)

/-- RET (R265): the loaded target is checked before RSP moves. -/
def execRet (s : State) : Host.Outcome State Fault Refusal :=
  finish s do
    let v ← top s
    checkTarget s v
    pure ((dropTop s).setRip v)

end Sys2Proof.Machine
end

