-- ==== Sys2Proof/Machine/Lea.lean ====
section
/-! DEFINITION. LEA (42_data_movement.md R240): the address itself, with no memory reference, no check and no segment
base. -/

namespace Sys2Proof.Machine

/-- LEA r32, m (R240). -/
def execLeaR32M (rex addr32 : Bool) (dst : Reg) (src : MemOperand) (s : State) : Host.Outcome State Fault Refusal :=
  let nx := nextRip (.leaR32M rex addr32 dst src) s
  .next ((s.setRegSized .d32 dst (effAddr s nx addr32 src)).setRip nx)

/-- LEA r64, m (R240). -/
def execLeaR64M (addr32 : Bool) (dst : Reg) (src : MemOperand) (s : State) : Host.Outcome State Fault Refusal :=
  let nx := nextRip (.leaR64M addr32 dst src) s
  .next ((s.setRegSized .q64 dst (effAddr s nx addr32 src)).setRip nx)

end Sys2Proof.Machine
end

