-- ==== Sys2Proof/Machine/Mov.lean ====
section
/-! DEFINITION. MOV (42_data_movement.md R230 to R239): one meaning per row of the opcode table. Every meaning leaves
`rip <- next`, or takes the exception of its memory operand with no partial effect. -/

namespace Sys2Proof.Machine

/-- Writes `v` to an r/m operand of size `n`, then `rip <- nx` (R233, R236). -/
def movToRm (s : State) (nx : Word) (n : OpSize) (dst : RegMem) (v : Word) : Host.Outcome State Fault Refusal :=
  finish s do
    let t ← writeRm s nx n v dst
    pure (t.setRip nx)

/-- Reads an r/m operand of size `n` into a register, then `rip <- nx` (R234). -/
def movFromRm (s : State) (nx : Word) (n : OpSize) (dst : Reg) (src : RegMem) : Host.Outcome State Fault Refusal :=
  finish s do
    let v ← readRm s nx n src
    pure ((s.setRegSized n dst v).setRip nx)

/-- RAX or EAX from a memory offset (R238). -/
def movFromMoffs (s : State) (nx : Word) (n : OpSize) (src : Moffs) : Host.Outcome State Fault Refusal :=
  finish s do
    let v ← readMoffs s n src
    pure ((s.setRegSized n .rax v).setRip nx)

/-- RAX or EAX to a memory offset (R239). -/
def movToMoffs (s : State) (nx : Word) (n : OpSize) (dst : Moffs) : Host.Outcome State Fault Refusal :=
  finish s do
    let t ← writeMoffs s n dst (s.reg .rax)
    pure (t.setRip nx)

/-- MOV r/m32, r32 (R233). -/
def execMovRm32R32 (rex : Bool) (dst : RegMem) (src : Reg) (s : State) : Host.Outcome State Fault Refusal :=
  movToRm s (nextRip (.movRm32R32 rex dst src) s) .d32 dst (s.reg src)

/-- MOV r/m64, r64 (R233). -/
def execMovRm64R64 (dst : RegMem) (src : Reg) (s : State) : Host.Outcome State Fault Refusal :=
  movToRm s (nextRip (.movRm64R64 dst src) s) .q64 dst (s.reg src)

/-- MOV r32, r/m32 (R234). -/
def execMovR32Rm32 (rex : Bool) (dst : Reg) (src : RegMem) (s : State) : Host.Outcome State Fault Refusal :=
  movFromRm s (nextRip (.movR32Rm32 rex dst src) s) .d32 dst src

/-- MOV r64, r/m64 (R234). -/
def execMovR64Rm64 (dst : Reg) (src : RegMem) (s : State) : Host.Outcome State Fault Refusal :=
  movFromRm s (nextRip (.movR64Rm64 dst src) s) .q64 dst src

/-- MOV EAX, moffs (R238). -/
def execMovEaxMoffs (rex : Bool) (src : Moffs) (s : State) : Host.Outcome State Fault Refusal :=
  movFromMoffs s (nextRip (.movEaxMoffs rex src) s) .d32 src

/-- MOV RAX, moffs (R238). -/
def execMovRaxMoffs (src : Moffs) (s : State) : Host.Outcome State Fault Refusal :=
  movFromMoffs s (nextRip (.movRaxMoffs src) s) .q64 src

/-- MOV moffs, EAX (R239). -/
def execMovMoffsEax (rex : Bool) (dst : Moffs) (s : State) : Host.Outcome State Fault Refusal :=
  movToMoffs s (nextRip (.movMoffsEax rex dst) s) .d32 dst

/-- MOV moffs, RAX (R239). -/
def execMovMoffsRax (dst : Moffs) (s : State) : Host.Outcome State Fault Refusal :=
  movToMoffs s (nextRip (.movMoffsRax dst) s) .q64 dst

/-- MOV r64, imm64 (R231): the immediate is used whole. -/
def execMovR64Imm64 (dst : Reg) (imm : Word) (s : State) : Host.Outcome State Fault Refusal :=
  .next ((s.setReg dst imm).setRip (nextRip (.movR64Imm64 dst imm) s))

/-- MOV r32, imm32 (R232): the upper half becomes 0. -/
def execMovR32Imm32 (rex : Bool) (dst : Reg) (imm : BitVec 32) (s : State) : Host.Outcome State Fault Refusal :=
  .next ((s.setReg dst (zext32 imm)).setRip (nextRip (.movR32Imm32 rex dst imm) s))

/-- MOV r/m32, imm32 (R236). -/
def execMovRm32Imm32 (rex : Bool) (dst : RegMem) (imm : BitVec 32) (s : State) : Host.Outcome State Fault Refusal :=
  movToRm s (nextRip (.movRm32Imm32 rex dst imm) s) .d32 dst (zext32 imm)

/-- MOV r/m64, imm32 (R236): the immediate is sign-extended (30_encoding.md R122). -/
def execMovRm64Imm32 (dst : RegMem) (imm : BitVec 32) (s : State) : Host.Outcome State Fault Refusal :=
  movToRm s (nextRip (.movRm64Imm32 dst imm) s) .q64 dst (sext32 imm)

end Sys2Proof.Machine
end

