-- ==== Sys2Proof/Machine/Stack.lean ====
section
/-! DEFINITION. PUSH and POP (43_stack_and_control.md R260 to R262). -/

namespace Sys2Proof.Machine

/-- PUSH r64 (R261): the source is read before RSP moves. -/
def execPushR64 (rex : Bool) (src : Reg) (s : State) : Host.Outcome State Fault Refusal :=
  finish s do
    let t ← push s (s.reg src)
    pure (t.setRip (nextRip (.pushR64 rex src) s))

/-- POP r64 (R262): the destination is written after RSP has moved, so POP RSP leaves the loaded value. -/
def execPopR64 (rex : Bool) (dst : Reg) (s : State) : Host.Outcome State Fault Refusal :=
  finish s do
    let v ← top s
    pure (((dropTop s).setReg dst v).setRip (nextRip (.popR64 rex dst) s))

end Sys2Proof.Machine
end

