-- ==== Sys2Proof/Machine/System.lean ====
section
/-! DEFINITION. INT and IRET (43_stack_and_control.md R267, R268): the spec names them and refuses them,
`refuse NamedNotModelled`. -/

namespace Sys2Proof.Machine

/-- INT imm8 (R267: "The decoder recognises CD so that it can refuse it by name"). -/
def execIntImm8 (s : State) : Host.Outcome State Fault Refusal := refuse .namedNotModelled s

/-- IRET (R268). -/
def execIret (s : State) : Host.Outcome State Fault Refusal := refuse .namedNotModelled s

end Sys2Proof.Machine
end

