-- ==== Sys2Proof/Machine/Dispatch.lean ====
section
/-! DEFINITION. One arm per constructor of Instr (30_encoding.md R130). -/

namespace Sys2Proof.Machine

def exec (i : Instr) (s : State) : Host.Outcome State Fault Refusal :=
  match i with
  | .pushR64 rex src => Sys2Proof.Machine.execPushR64 rex src s
  | .popR64 rex dst => Sys2Proof.Machine.execPopR64 rex dst s
  | .movRm32R32 rex dst src => Sys2Proof.Machine.execMovRm32R32 rex dst src s
  | .movRm64R64 dst src => Sys2Proof.Machine.execMovRm64R64 dst src s
  | .movR32Rm32 rex dst src => Sys2Proof.Machine.execMovR32Rm32 rex dst src s
  | .movR64Rm64 dst src => Sys2Proof.Machine.execMovR64Rm64 dst src s
  | .leaR32M rex addr32 dst src => Sys2Proof.Machine.execLeaR32M rex addr32 dst src s
  | .leaR64M addr32 dst src => Sys2Proof.Machine.execLeaR64M addr32 dst src s
  | .movEaxMoffs rex src => Sys2Proof.Machine.execMovEaxMoffs rex src s
  | .movRaxMoffs src => Sys2Proof.Machine.execMovRaxMoffs src s
  | .movMoffsEax rex dst => Sys2Proof.Machine.execMovMoffsEax rex dst s
  | .movMoffsRax dst => Sys2Proof.Machine.execMovMoffsRax dst s
  | .movR64Imm64 dst imm => Sys2Proof.Machine.execMovR64Imm64 dst imm s
  | .movR32Imm32 rex dst imm => Sys2Proof.Machine.execMovR32Imm32 rex dst imm s
  | .ret => Sys2Proof.Machine.execRet s
  | .movRm32Imm32 rex dst imm => Sys2Proof.Machine.execMovRm32Imm32 rex dst imm s
  | .movRm64Imm32 dst imm => Sys2Proof.Machine.execMovRm64Imm32 dst imm s
  | .intImm8 => Sys2Proof.Machine.execIntImm8 s
  | .iret => Sys2Proof.Machine.execIret s
  | .callRel32 rel => Sys2Proof.Machine.execCallRel32 rel s
  | .jmpRel32 rel => Sys2Proof.Machine.execJmpRel32 rel s
  | .jmpRel8 rel => Sys2Proof.Machine.execJmpRel8 rel s

end Sys2Proof.Machine
end

