-- ==== Sys2Proof/Machine/Modes.lean ====
section
/-! DEFINITION. What the spec says of every operating mode (10_state.md R20 to R22, R27, R28, R31; 20_memory.md R62, R66 to R71;
30_encoding.md R115, R116; 40_addressing.md R151; 41_pointers_stack_ip.md R201 to R204, R210). Only 64-bit mode executes
(R21); the other modes are described by these functions, as the spec describes them. -/

namespace Sys2Proof.Machine

/-- The five submodes (10_state.md R20). -/
inductive Submode where
  | bits64
  | compatibility
  | legacyProtected
  | virtual8086
  | real
deriving DecidableEq, Repr

/-- The submode that the mode and the L and D bits select (R22); L = 1 with D = 1 in long mode is reserved. -/
def submodeOf (m : Mode) (l d : Bool) : Option Submode :=
  match m with
  | .long => if l then (if d then none else some .bits64) else some .compatibility
  | .legacyProtected => some .legacyProtected
  | .virtual8086 => some .virtual8086
  | .real => some .real

def State.submode (s : State) : Option Submode := submodeOf s.mode s.csL s.csD

/-- Default address size (R22, R115): 64 in 64-bit mode, else by the D bit. -/
def defaultAddrSize (m : Submode) (d : Bool) : AddrSize :=
  match m with
  | .bits64 => .a64
  | .compatibility | .legacyProtected | .virtual8086 | .real => if d then .a32 else .a16

/-- Table 2-1 (30_encoding.md R116): what 67h makes of the default address size. -/
def effAddrSizeIn (m : Submode) (d : Bool) (addr32 : Bool) : AddrSize :=
  match defaultAddrSize m d, addr32 with
  | .a64, true => .a32
  | .a32, true => .a16
  | .a16, true => .a32
  | asz, false => asz

/-- Size of the stack pointer (41_pointers_stack_ip.md R210): RSP in 64-bit mode, else ESP or SP by the B bit. -/
def stackPointerSize (m : Submode) (b : Bool) : AddrSize :=
  match m with
  | .bits64 => .a64
  | .compatibility | .legacyProtected | .virtual8086 | .real => if b then .a32 else .a16

/-- SP and ESP as views of RSP (10_state.md R27). -/
def State.sp (s : State) : BitVec 16 := (s.reg .rsp).setWidth 16
def State.esp (s : State) : BitVec 32 := (s.reg .rsp).setWidth 32

/-- IP and EIP as views of RIP (R31). -/
def State.ip (s : State) : BitVec 16 := s.rip.setWidth 16
def State.eip (s : State) : BitVec 32 := s.rip.setWidth 32

/-- Size of the instruction pointer (10_state.md R28): RIP in 64-bit mode, else EIP or IP by the code segment's D bit
(G4). -/
def instructionPointerSize (m : Submode) (d : Bool) : AddrSize :=
  match m with
  | .bits64 => .a64
  | .compatibility | .legacyProtected | .virtual8086 | .real => if d then .a32 else .a16

/-- The part of a register that a pointer of this size is, zero-extended. -/
def pointerView (asz : AddrSize) (v : Word) : Word :=
  match asz with
  | .a64 => v
  | .a32 => (v.setWidth 32).setWidth 64
  | .a16 => (v.setWidth 16).setWidth 64

/-- The instruction pointer of the current mode: RIP, EIP or IP (R28); none in the reserved L = 1, D = 1. -/
def State.instructionPointer (s : State) : Option Word :=
  s.submode.map fun m => pointerView (instructionPointerSize m s.csD) s.rip

/-- The stack pointer of the current mode: RSP, ESP or SP (41_pointers_stack_ip.md R210). -/
def State.stackPointer (s : State) : Option Word :=
  s.submode.map fun m => pointerView (stackPointerSize m s.ssB) (s.reg .rsp)

/-- The selector a segment register holds (R32). -/
def State.selector (s : State) : Seg → BitVec 16
  | .cs => s.sel.cs | .ds => s.sel.ds | .es => s.sel.es | .ss => s.sel.ss | .fs => s.sel.fs | .gs => s.sel.gs

/-- Protected mode (20_memory.md R69): the 32-bit sum of a 32-bit segment base and the effective address (G10). -/
def protectedLinear (base ea : BitVec 32) : BitVec 32 := base + ea

/-- Compatibility mode (R68): the same sum, zero-extended to 64 bits. -/
def compatLinear (base ea : BitVec 32) : Word := (protectedLinear base ea).setWidth 64

/-- Real mode and virtual-8086 mode (R70, R71): the segment shifted left four bits plus the effective address; whether
bit 20 of the sum is kept is the parameter `REAL_WRAP_20` (90_conflicts.md C6). -/
def realLinear (c : Config) (seg ea : BitVec 16) : Nat :=
  let sum := seg.toNat * 16 + ea.toNat
  if c.realWrap20 then sum % 2 ^ 20 else sum

/-- Real mode through a segment register of the machine. -/
def State.realLinear (s : State) (seg : Seg) (ea : BitVec 16) : Nat := Machine.realLinear s.cfg (s.selector seg) ea

/-- The physical address in long mode (R65, R67): the opaque paging function, cut to `PA_BITS`. -/
def longPhysical (c : Config) (va : Word) : Nat := (Config.longModePaging va).toNat % 2 ^ c.paBits

/-- The physical address in protected and virtual-8086 mode (R69, R70): paging is optional. -/
def legacyPhysical (paging : Bool) (la : BitVec 32) : BitVec 32 := if paging then Config.legacyPaging la else la

/-- The physical address in real mode (R71): the linear address, zero-extended to 32 bits; no paging. -/
def realPhysical (c : Config) (seg ea : BitVec 16) : BitVec 32 := BitVec.ofNat 32 (realLinear c seg ea)

/-- A far pointer, also called a logical address (41_pointers_stack_ip.md R202, R204). -/
structure FarPointer where
  selector : BitVec 16
  ea : Word
deriving DecidableEq, Repr

/-- The segment a selector names, one of 16K (20_memory.md R62, R69). -/
def segmentNamed (sel : BitVec 16) : Segment := Config.segmentTable (Config.segmentNumber sel)

/-- The virtual (linear) address of a far pointer (20_memory.md R62, R66, R68 to R71; R203, R204): in compatibility and
protected mode the base of the segment its selector names plus its effective address, in real and virtual-8086 mode the
shifted selector plus its effective address; in 64-bit mode the effective address alone. -/
def FarPointer.linear (c : Config) (m : Submode) (p : FarPointer) : Word :=
  match m with
  | .bits64 => p.ea
  | .compatibility => compatLinear (segmentNamed p.selector).base (p.ea.setWidth 32)
  | .legacyProtected => (protectedLinear (segmentNamed p.selector).base (p.ea.setWidth 32)).setWidth 64
  | .virtual8086 | .real => BitVec.ofNat 64 (realLinear c p.selector (p.ea.setWidth 16))

/-- The virtual address of a near pointer, an offset into a segment of the machine (R201, R66): the far pointer with the
selector that the segment register holds; in 64-bit mode the base is that of 20_memory.md R84. -/
def State.linearIn (s : State) (seg : Seg) (ea : Word) : Option Word :=
  s.submode.map fun m =>
    match m with
    | .bits64 => linear s seg ea
    | .compatibility | .legacyProtected | .virtual8086 | .real => FarPointer.linear s.cfg m ⟨s.selector seg, ea⟩

/-- Bytes of an effective address of this size. -/
def addrSizeBytes : AddrSize → Nat
  | .a16 => 2
  | .a32 => 4
  | .a64 => 8

/-- A far pointer in memory (R202, G33): the effective address, then the 16-bit selector. -/
def FarPointer.bytes (asz : AddrSize) (p : FarPointer) : List Byte :=
  leBytes (addrSizeBytes asz) p.ea ++ leBytes 2 (p.selector.setWidth 64)

end Sys2Proof.Machine
end

