-- ==== Sys2Proof/Machine/Fetch.lean ====
section
/-! DEFINITION. Instruction fetch (41_pointers_stack_ip.md R216, 60_exceptions.md R305 steps 1 and 2) and the placing of
an instruction's bytes where the next step fetches them. -/

namespace Sys2Proof.Machine

/-- Why a byte cannot be fetched: an exception or fault (R216), or a byte the run has stored to (20_memory.md R94). -/
inductive FetchStop where
  | fault (k : FaultKind)
  | storedByte
deriving DecidableEq, Repr

/-- Fetches byte `k` of the instruction at `rip`: not past 2^64 and canonical (else GP), in `Mapped` (else Unmapped), and
not stored to since the launch, so that a fetched byte equals its launch value (20_memory.md R94). -/
def fetchByte (s : State) (k : Nat) : Except FetchStop Byte :=
  if !byteOk s.cfg s.rip k then .error (.fault .gp)
  else if !inRegions s.cfg.mapped (s.rip.toNat + k) then .error (.fault .unmapped)
  else if s.wrote (s.rip.toNat + k) then .error .storedByte
  else .ok (s.mem.read (s.rip.toNat + k))

/-- The bytes that can be fetched from offset `k` on, at most `n` of them, and why the next one cannot be fetched if
there are fewer. -/
def fetchRun (s : State) : Nat → Nat → List Byte × Option FetchStop
  | _, 0 => ([], none)
  | k, n + 1 =>
    match fetchByte s k with
    | .error e => ([], some e)
    | .ok b => (b :: (fetchRun s (k + 1) n).1, (fetchRun s (k + 1) n).2)

/-- The bytes that can be fetched at `rip`, up to the longest instruction. -/
def fetchable (s : State) : List Byte := (fetchRun s 0 maxLength).1

/-- What fetch and decode answer. -/
inductive Fetched where
  | ok (i : Instr)
  | stopped (e : FetchStop)
  | refuse (r : RefuseReason)
deriving DecidableEq, Repr

/-- Fetch and decode, interleaved: the decoder sees the bytes in order, and a byte that cannot be fetched stops the
step only if the decoder needs it (R305). When the decoder asks for more bytes than the longest instruction has, the bytes would
be no admitted instruction; that never happens (R129). -/
def fetchDecode (s : State) : Fetched :=
  match decode (fetchable s), (fetchRun s 0 maxLength).2 with
  | .ok i _, _ => .ok i
  | .refuse r, _ => .refuse r
  | .more, some e => .stopped e
  | .more, none => .refuse .unknownOpcode

/-- Every byte of the longest instruction at `rip` is in `Mapped`. -/
def windowMapped (s : State) : Bool := allMapped s.cfg s.rip maxLength

/-- Some byte of the longest instruction at `rip` has been stored to. -/
def windowWritten (s : State) : Bool := (List.range maxLength).any fun k => s.wrote (s.rip.toNat + k)

/-- `s` with an instruction placed where the next step fetches: its bytes at `rip`; and, only where `s` does not have
them already, what a fetch needs (running, 64-bit mode, `Mapped` over the bytes, `STOP` elsewhere, no record of a store
to them). It stands for the
launch of a program from outside (70_reset_and_hazards.md R331; notes/assumptions/22.md). -/
def placeInstruction (s : State) (bs : List Byte) : State :=
  { s with
    mem := s.mem.writeBytes s.rip.toNat bs
    written := if windowWritten s then [] else s.written
    status := .running
    mode := .long
    csL := true
    csD := false
    cfg :=
      { s.cfg with
        mapped := if windowMapped s then s.cfg.mapped else ⟨s.rip.toNat, maxLength⟩ :: s.cfg.mapped
        stop := if s.cfg.stop = s.rip then s.rip + BitVec.ofNat 64 maxLength else s.cfg.stop } }

end Sys2Proof.Machine
end

