-- ==== Sys2Proof/Machine/Step.lean ====
section
/-! DEFINITION. The step (41_pointers_stack_ip.md R218). -/

namespace Sys2Proof.Machine

/-- One step of the one agent (R218). A state whose status is not Running has no step; nor has one with `rip = STOP`
(70_reset_and_hazards.md R334); only 64-bit mode executes (10_state.md R21). -/
def step (s : State) : Host.Outcome State Fault Refusal :=
  match s.status with
  | .faulted k a => .fault (.halted k a)
  | .refused r a => .refused (.encoding r a)
  | .running =>
    if s.rip = s.cfg.stop then .fault .runEnded
    else if s.submode ≠ some .bits64 then .refused .modeNotExecutable
    else
      match fetchDecode s with
      | .ok i => exec i s
      | .stopped (.fault k) => raise k s
      | .stopped .storedByte => .refused (.fetchOfStoredByte s.rip)
      | .refuse r => refuse r s

/-- The state the spec's record has after a step (R218): where the model refuses, the status records the reason and the
address, and every other field is as before. -/
def State.after (s : State) : State :=
  match step s with
  | .next t => t
  | .refused (.encoding r a) => { s with status := .refused r a }
  | .refused _ | .fault _ => s

/-- `s` with the instruction whose bits are `w` placed where the next step fetches it. -/
def State.withFetchWord (s : State) (nbits w : Nat) : State := placeInstruction s (tableWordBytes nbits w)

end Sys2Proof.Machine
end

