-- ==== Sys2Proof/Safety.lean ====
section
/-! DEFINITION. What claims are stated in: readable and writable references, what an instruction leaves unchanged, its
one data reference, the launch premises and the machine's invariant. Nothing of the machine depends on this file. -/

namespace Sys2Proof.Machine

/-! ## References -/

/-- The `n` bytes at linear address `la` pass the canonical check (20_memory.md R86). -/
abbrev CanonicalRef (s : State) (la : Word) (n : Nat) : Prop :=
  ∀ k, k < n → la.toNat + k < 2 ^ 64 ∧ canonical s.cfg (la + BitVec.ofNat 64 k) = true

/-- They are in `Mapped` (R88). -/
abbrev MappedRef (s : State) (la : Word) (n : Nat) : Prop :=
  ∀ k, k < n → inRegions s.cfg.mapped (la.toNat + k) = true

/-- None of them is in `CodeRange` (R94). -/
abbrev OutsideCode (s : State) (la : Word) (n : Nat) : Prop :=
  ∀ k, k < n → inRegions s.cfg.codeRange (la.toNat + k) = false

/-- None of them has been stored to since the launch (R94). -/
abbrev NotStored (s : State) (la : Word) (n : Nat) : Prop :=
  ∀ k, k < n → s.wrote (la.toNat + k) = false

/-- A reference that a load completes on. -/
abbrev Readable (s : State) (la : Word) (n : Nat) : Prop := CanonicalRef s la n ∧ MappedRef s la n

/-- A reference that a store completes on. -/
abbrev Writable (s : State) (la : Word) (n : Nat) : Prop := Readable s la n ∧ OutsideCode s la n

/-- Instruction bytes that can be fetched. -/
abbrev Fetchable (s : State) (la : Word) (n : Nat) : Prop := Readable s la n ∧ NotStored s la n

/-- Byte `k` of a value, byte 0 the least significant. -/
def byteOf (v : Word) (k : Nat) : Byte := v.extractLsb' (8 * k) 8

/-- The `n` bytes at `la` hold the low `n` bytes of `v`, little-endian (20_memory.md R72, R75). -/
def HoldsBytes (t : State) (la : Word) (n : Nat) (v : Word) : Prop :=
  ∀ k, k < n → t.mem.read (la.toNat + k) = byteOf v k

/-! ## Frames -/

/-- Every field but the general registers, `rip`, memory with its record of stores, and the status is the same. -/
def SameSystem (s t : State) : Prop :=
  t.fsbase = s.fsbase ∧ t.gsbase = s.gsbase ∧ t.sel = s.sel ∧ t.csL = s.csL ∧ t.csD = s.csD ∧ t.ssB = s.ssB ∧
    t.mode = s.mode ∧ t.cfg = s.cfg

/-- Every general register outside the list is the same. -/
def SameRegsBut (ds : List Reg) (s t : State) : Prop := ∀ r, r ∉ ds → t.reg r = s.reg r

/-- Every byte of memory outside the `n` bytes at `la` is the same, and so is the record whether it was stored to. -/
def SameBytesOutside (la : Word) (n : Nat) (s t : State) : Prop :=
  ∀ a, ¬ (la.toNat ≤ a ∧ a < la.toNat + n) → t.mem.read a = s.mem.read a ∧ t.wrote a = s.wrote a

/-- Every byte of memory is the same, and so is the record whether it was stored to. -/
def SameBytes (s t : State) : Prop := ∀ a, t.mem.read a = s.mem.read a ∧ t.wrote a = s.wrote a

/-- From `s` to `t` the low `n` bytes of `v` were stored at `la` (20_memory.md R75): they stand there little-endian and
count as stored (R94), and nothing else of memory changed. -/
def StoresBytes (s t : State) (la : Word) (n : Nat) (v : Word) : Prop :=
  HoldsBytes t la n v ∧ (∀ k, k < n → t.wrote (la.toNat + k) = true) ∧ SameBytesOutside la n s t

/-- The instruction has completed: `rip` is `nx`, the status is as before, and only the registers of `ds` (and memory)
may differ. -/
def Completed (ds : List Reg) (nx : Word) (s t : State) : Prop :=
  t.rip = nx ∧ t.status = s.status ∧ SameSystem s t ∧ SameRegsBut ds s t

/-- The exception or fault `k` at the instruction of `s`: the status records it with the instruction's address, and
nothing else changes (60_exceptions.md R303, R304). -/
def Raised (k : FaultKind) (s : State) : State := { s with status := .faulted k s.rip }

/-! ## The one data reference of an instruction (60_exceptions.md R305, R316) -/

/-- The linear address of a memory operand. -/
def memAddr (s : State) (nx : Word) (p : Prefixes) (m : MemOperand) : Word :=
  linear s (memSeg p m) (effAddr s nx p.hasAddr32 m)

/-- The linear address of a memory-offset operand. -/
def moffsLinear (s : State) (o : Moffs) : Word := linear s (moffsSeg o) (moffsAddr o)

/-- A data reference: segment, linear address, size in bytes, and whether it is a store. -/
structure DataRef where
  seg : Seg
  la : Word
  size : Nat
  isStore : Bool
deriving DecidableEq, Repr

/-- The reference of an r/m operand; a register operand makes none. -/
def rmRef (s : State) (nx : Word) (size : Nat) (isStore : Bool) : RegMem → Option DataRef
  | .reg _ => none
  | .mem p m => some ⟨memSeg p m, memAddr s nx p m, size, isStore⟩

/-- The data reference each instruction makes: at most one (R305). -/
def dataRef (i : Instr) (s : State) : Option DataRef :=
  match i with
  | .movRm32R32 _ o _ | .movRm32Imm32 _ o _ => rmRef s (nextRip i s) 4 true o
  | .movRm64R64 o _ | .movRm64Imm32 o _ => rmRef s (nextRip i s) 8 true o
  | .movR32Rm32 _ _ o => rmRef s (nextRip i s) 4 false o
  | .movR64Rm64 _ o => rmRef s (nextRip i s) 8 false o
  | .movEaxMoffs _ o => some ⟨moffsSeg o, moffsLinear s o, 4, false⟩
  | .movRaxMoffs o => some ⟨moffsSeg o, moffsLinear s o, 8, false⟩
  | .movMoffsEax _ o => some ⟨moffsSeg o, moffsLinear s o, 4, true⟩
  | .movMoffsRax o => some ⟨moffsSeg o, moffsLinear s o, 8, true⟩
  | .pushR64 _ _ | .callRel32 _ => some ⟨.ss, s.reg .rsp - 8, 8, true⟩
  | .popR64 _ _ | .ret => some ⟨.ss, s.reg .rsp, 8, false⟩
  | .leaR32M _ _ _ _ | .leaR64M _ _ _ | .movR64Imm64 _ _ | .movR32Imm32 _ _ _ | .intImm8 | .iret | .jmpRel32 _
  | .jmpRel8 _ => none

/-- The target a JMP or CALL computes (40_addressing.md R154). -/
def computedTarget (i : Instr) (s : State) : Option Word :=
  match i with
  | .jmpRel8 rel => some (nextRip i s + sext8 rel)
  | .jmpRel32 rel | .callRel32 rel => some (nextRip i s + sext32 rel)
  | _ => none

/-- The control transfers, whose target is checked (43_stack_and_control.md R270). -/
def isTransfer : Instr → Bool
  | .jmpRel8 _ | .jmpRel32 _ | .callRel32 _ | .ret => true
  | _ => false

/-- The table of R316: which kinds an instruction can raise once fetched. -/
def mayRaise (i : Instr) (s : State) : FaultKind → Bool
  | .gp => isTransfer i || (dataRef i s).any fun d => d.seg != .ss
  | .ss => (dataRef i s).any fun d => d.seg == .ss
  | .unmapped => (dataRef i s).isSome
  | .codeWrite => (dataRef i s).any (·.isStore)

/-! ## Unbounded address arithmetic (40_addressing.md R160, R173) -/

/-- The value of a displacement as a signed number. -/
def dispInt : Disp → Int
  | .d0 => 0
  | .d8 d => d.toInt
  | .d32 d => d.toInt

/-- The scale factor (30_encoding.md R120). -/
def scaleFactor : Scale → Nat
  | .s1 => 1 | .s2 => 2 | .s4 => 4 | .s8 => 8

/-- The index term over the natural numbers. -/
def indexNat (s : State) (i : Option Reg) (sc : Scale) : Nat :=
  match i with
  | none => 0
  | some r => (s.reg r).toNat * scaleFactor sc

/-- The sum of R173 without any bound. -/
def unboundedSum (s : State) (nx : Word) : MemOperand → Int
  | .ripRel d => nx.toNat + d.toInt
  | .base b d => (s.reg b).toNat + dispInt d
  | .sib b i sc d => (s.reg b).toNat + indexNat s i sc + dispInt d
  | .sibNoBase i sc d => indexNat s i sc + d.toInt

/-! ## Launch, end and invariant -/

/-- A run that has ended successfully (70_reset_and_hazards.md R334). -/
def Ended (s : State) : Prop := s.status = .running ∧ s.rip = s.cfg.stop

/-- What holds of every state of a run (the premises of R331 that no step can break). -/
structure MachineInv (s : State) : Prop where
  /-- Memory is in its canonical form. -/
  memWf : Memory.wf s.mem = true
  /-- 64-bit mode: L = 1, D = 0 (10_state.md R21, R22). -/
  mode64 : s.submode = some .bits64
  /-- `Canonical(fsbase)`, `Canonical(gsbase)` (10_state.md R38). -/
  fsCanonical : canonical s.cfg s.fsbase = true
  gsCanonical : canonical s.cfg s.gsbase = true
  /-- `Mapped` is a set of canonical 64-bit addresses (20_memory.md R88). -/
  mappedCanonical : ∀ a, inRegions s.cfg.mapped a = true → a < 2 ^ 64 ∧ canonical s.cfg (BitVec.ofNat 64 a) = true
  /-- `CodeRange` is a subset of `Mapped` (20_memory.md R94). -/
  codeMapped : ∀ a, inRegions s.cfg.codeRange a = true → inRegions s.cfg.mapped a = true
  /-- Every byte stored to is in `Mapped` and outside `CodeRange` (R75, R94). -/
  storedData : ∀ a, s.wrote a = true → inRegions s.cfg.mapped a = true ∧ inRegions s.cfg.codeRange a = false
  /-- `STOP` is canonical (70 R334). -/
  stopCanonical : canonical s.cfg s.cfg.stop = true
  /-- A fault is recorded at the instruction that raised it, and `rip` still points there (60_exceptions.md R304). -/
  faultAt : ∀ k a, s.status = .faulted k a → a = s.rip

/-- The premises of a launch (70_reset_and_hazards.md R331). -/
structure LaunchOk (s : State) : Prop where
  inv : MachineInv s
  running : s.status = .running
  nothingStored : ∀ a, s.wrote a = false
  entryCanonical : canonical s.cfg s.rip = true
  entryInCode : inRegions s.cfg.codeRange s.rip.toNat = true

end Sys2Proof.Machine
end

