-- ==== Sys2Proof/Certificates/Slice0/Obligations.lean ====
section
/-! DEFINITION. The statements about the machine, each a formalisation of the rules of spec/ its docstring names. -/

open Sys2Proof Sys2Proof.Machine

/-! ## Reset -/

/-- Reset leaves the machine in 64-bit mode (L = 1, D = 0) and running (10_state.md R47, R21, R22), with the values
that notes/assumptions/2.md, 3.md and 4.md name for what the spec leaves to the launch (DESIGN CHOICE). That no byte
counts as stored at first is notes/assumptions/30.md (DESIGN CHOICE). -/
def Obligations.ResetValues : Prop :=
  State.reset.status = .running ∧ State.reset.submode = some .bits64 ∧ State.reset.csL = true ∧
    State.reset.csD = false ∧ (∀ r, State.reset.reg r = 0) ∧ State.reset.fsbase = 0 ∧ State.reset.gsbase = 0 ∧
    State.reset.rip = 0x1000 ∧ (∀ a, State.reset.mem.read a = 0) ∧ (∀ a, State.reset.wrote a = false) ∧
    State.reset.cfg.vaBits = 48

/-- The reset state meets the premises of a launch (70_reset_and_hazards.md R331), so the invariant holds at reset.
That no byte counts as stored at first is notes/assumptions/30.md (DESIGN CHOICE). -/
def Obligations.ResetIsALaunch : Prop := LaunchOk State.reset

/-! ## General registers -/

/-- 10_state.md R24: sixteen registers, numbered 0 to 15, each readable and writable, none hardwired, one bank. -/
def Obligations.RegistersAreSixteenIndependentWords : Prop :=
  (∀ (s : State) (r r' : Reg) (v : Word), (s.setReg r v).reg r' = if r' = r then v else s.reg r') ∧
  (∀ r : Reg, Reg.ofNum r.num = r) ∧ (∀ n : BitVec 4, (Reg.ofNum n).num = n) ∧
  (List.range 16).map (fun k => Reg.ofNum (BitVec.ofNat 4 k)) =
    [.rax, .rcx, .rdx, .rbx, .rsp, .rbp, .rsi, .rdi, .r8, .r9, .r10, .r11, .r12, .r13, .r14, .r15]

/-- 10_state.md R26: a 32-bit result replaces the whole register with the zero-extended result; a 32-bit read gives bits
31:0. -/
def Obligations.Write32ZeroExtends : Prop :=
  ∀ (s : State) (r r' : Reg) (v : Word),
    ((s.setRegSized .d32 r v).reg r).toNat = v.toNat % 2 ^ 32 ∧
    (r' ≠ r → (s.setRegSized .d32 r v).reg r' = s.reg r') ∧
    (s.setRegSized .q64 r v).reg r = v ∧
    (opLow .d32 (s.reg r)).toNat = (s.reg r).toNat % 2 ^ 32

/-! ## Memory (20_memory.md) -/

/-- The canonical form: two memories of the same form that read the same at every address are the same list. -/
def Obligations.MemoryIsDeterminedByItsReads : Prop :=
  ∀ m m' : Memory, Memory.wf m = true → Memory.wf m' = true → (∀ a, m.read a = m'.read a) → m = m'

/-- R74, for every size up to 8: the value read has byte `k` at `addr + k` and no bit above its bytes; if some byte is
not in `Mapped` it is Unmapped. -/
def Obligations.MemReadIsLittleEndian : Prop :=
  ∀ (s : State) (la : Word) (n : Nat), n ≤ 8 →
    (MappedRef s la n → ∃ v, memRead s la n = .ok v ∧ (∀ k, k < n → byteOf v k = s.mem.read (la.toNat + k)) ∧
      v.toNat < 2 ^ (8 * n)) ∧
    (¬ MappedRef s la n → memRead s la n = .error .unmapped)

/-- R75: byte `k` of the value goes to `addr + k`, no other byte and nothing else changes; a byte outside `Mapped` is
Unmapped, else a byte in `CodeRange` is CodeWrite. That the stored bytes also enter the model's own record of stored
bytes, and no other byte does, is notes/assumptions/30.md (DESIGN CHOICE). -/
def Obligations.MemWriteChangesItsBytesOnly : Prop :=
  ∀ (s : State) (la : Word) (n : Nat) (v : Word), Memory.wf s.mem = true → n ≤ 8 → CanonicalRef s la n →
    (MappedRef s la n → OutsideCode s la n →
      ∃ t, memWrite s la n v = .ok t ∧ StoresBytes s t la n v ∧ t = { s with mem := t.mem, written := t.written }) ∧
    (¬ MappedRef s la n → memWrite s la n v = .error .unmapped) ∧
    (MappedRef s la n → ¬ OutsideCode s la n → memWrite s la n v = .error .codeWrite)

/-- R78: after an 8-byte write, a read of `m` bytes at offset `j` inside it gives bits `8(j+m)-1 : 8j` of the value. -/
def Obligations.MixedWidthReadSeesTheBytesWritten : Prop :=
  ∀ (s t : State) (la v : Word) (j m : Nat), Memory.wf s.mem = true → la.toNat + 8 ≤ 2 ^ 64 → j + m ≤ 8 →
    memWrite s la 8 v = .ok t →
    ∃ x, memRead t (la + BitVec.ofNat 64 j) m = .ok x ∧ x.toNat = v.toNat / 2 ^ (8 * j) % 2 ^ (8 * m)

/-- R80: bits 63 down to VA_BITS-1 are all 0 or all 1; equivalently the address is the sign extension of its low VA_BITS
bits; with VA_BITS = 48 the two ranges; with VA_BITS = 64 every address. -/
def Obligations.CanonicalForm : Prop :=
  ∀ (c : Config) (a : Word),
    (canonical c a = true ↔
      (∀ i, c.vaTop.val ≤ i → i < 64 → a.getLsbD i = false) ∨ (∀ i, c.vaTop.val ≤ i → i < 64 → a.getLsbD i = true)) ∧
    (canonical c a = true ↔ a = (a.setWidth c.vaBits).signExtend 64) ∧
    (c.vaBits = 48 → (canonical c a = true ↔ a.toNat ≤ 0x00007FFFFFFFFFFF ∨ 0xFFFF800000000000 ≤ a.toNat)) ∧
    (c.vaBits = 64 → canonical c a = true)

/-- R84, R85: base 0 for CS, DS, ES, SS; `fsbase` and `gsbase` for FS and GS; the sum is modulo 2^64. -/
def Obligations.LinearAddress : Prop :=
  ∀ (s : State) (ea : Word),
    (∀ seg, seg = .cs ∨ seg = .ds ∨ seg = .es ∨ seg = .ss → segBase s seg = 0 ∧ linear s seg ea = ea) ∧
    segBase s .fs = s.fsbase ∧ segBase s .gs = s.gsbase ∧
    (∀ seg, (linear s seg ea).toNat = ((segBase s seg).toNat + ea.toNat) % 2 ^ 64)

/-- R86, R82: a reference passes when every byte is below 2^64 and canonical, and then its address is the linear
address; otherwise it raises SS through the stack segment and GP through every other. -/
def Obligations.CheckedAddressOrException : Prop :=
  ∀ (s : State) (seg : Seg) (ea : Word) (n : Nat),
    (CanonicalRef s (linear s seg ea) n → checkedAddr s seg ea n = .ok (linear s seg ea)) ∧
    (¬ CanonicalRef s (linear s seg ea) n → checkedAddr s seg ea n = .error (if seg = .ss then .ss else .gp))

/-- R62, R68, R83: a compatibility-mode virtual address is the 32-bit sum of the base of the segment its selector names and
the effective address, zero-extended; so bits 63:32 are zero and it is canonical for every VA_BITS of at least 33. R69: the
sum of protected mode is the same, and the selectors name at most 16K segments. That a selector names its segment through
opaque functions is notes/assumptions/20.md (DESIGN CHOICE). -/
def Obligations.CompatibilityAddressesAreCanonical : Prop :=
  (∀ base ea : BitVec 32, (compatLinear base ea).toNat = (base.toNat + ea.toNat) % 2 ^ 32) ∧
  (∀ (c : Config) (base ea : BitVec 32), 33 ≤ c.vaBits → canonical c (compatLinear base ea) = true) ∧
  (∀ (c : Config) (p : FarPointer),
    (p.linear c .compatibility).toNat = ((segmentNamed p.selector).base.toNat + p.ea.toNat) % 2 ^ 32 ∧
      (p.linear c .legacyProtected).toNat = ((segmentNamed p.selector).base.toNat + p.ea.toNat) % 2 ^ 32) ∧
  (∃ segments : List Segment, segments.length ≤ 16384 ∧ ∀ sel, segmentNamed sel ∈ segments) ∧
  (∀ (s : State) (seg : Seg) (ea : Word), s.submode = some .compatibility →
    s.linearIn seg ea = some (FarPointer.linear s.cfg .compatibility ⟨s.selector seg, ea⟩))

/-! ## Encoding (30_encoding.md) -/

/-- R119, R120, R128: a REX byte is 40h plus 8W + 4R + 2X + B and no other byte is one; ModRM and SIB hold their fields
in bits 7:6, 5:3 and 2:0; a register is named by its REX bit times 8 plus its 3-bit field; scale is the log2 of the
factor. -/
def Obligations.FieldsOfRexModRMAndSib : Prop :=
  (∀ x : Rex, x.toByte.toNat = 0x40 + 8 * x.w.toNat + 4 * x.r.toNat + 2 * x.x.toNat + x.b.toNat) ∧
  (∀ b : Byte, isRex b = true ↔ 0x40 ≤ b.toNat ∧ b.toNat ≤ 0x4F) ∧
  (∀ b : Byte, b.toNat = 64 * (hiField b).toNat + 8 * (midField b).toNat + (lowField b).toNat) ∧
  (∀ (h : BitVec 2) (m l : BitVec 3), (fieldByte h m l).toNat = 64 * h.toNat + 8 * m.toNat + l.toNat) ∧
  (∀ (e : Bool) (l : BitVec 3), (Reg.ofBits e l).num.toNat = 8 * e.toNat + l.toNat) ∧
  (∀ r : Reg, r.num.toNat = 8 * r.extended.toNat + r.low3.toNat) ∧
  (∀ sc : Scale, scaleFactor sc = 2 ^ sc.bits.toNat)

/-- Decoding what the encoder lays out gives the instruction back, for every well-formed instruction and whatever bytes
follow (R119 to R130). -/
def Obligations.DecodeOfEncode : Prop :=
  ∀ (i : Instr) (rest : List Byte), i.wf = true → decode (encode i ++ rest) = .ok i rest

/-- Whatever bytes decode to an instruction, the instruction is well formed and its encoding is those bytes: every
admitted byte string has one reading and no bit of it is dropped. -/
def Obligations.EncodeOfDecode : Prop :=
  ∀ (bs rest : List Byte) (i : Instr), decode bs = .ok i rest → i.wf = true ∧ encode i ++ rest = bs

/-- R129: the decoder takes exactly `L` bytes, and `L` is at least 1 and at most 14. -/
def Obligations.DecodeTakesLengthBytes : Prop :=
  ∀ (bs rest : List Byte) (i : Instr), decode bs = .ok i rest →
    bs.length = i.length + rest.length ∧ 1 ≤ i.length ∧ i.length ≤ 14

/-- R129 and 60_exceptions.md R305: with 14 bytes the decoder always decides (the admitted forms reach at most 14), and
a refusal depends only on the bytes read so far. -/
def Obligations.DecoderDecidesWithinFourteenBytes : Prop :=
  (∀ bs : List Byte, 14 ≤ bs.length → decode bs ≠ .more) ∧
  (∀ (bs later : List Byte) (r : RefuseReason), decode bs = .refuse r → decode (bs ++ later) = .refuse r)

/-- R132, reason 1: a refused legacy byte, a second 67h, a second segment byte, and after a REX byte any legacy byte or a
second REX byte are PrefixNotAdmitted, whatever admitted legacy bytes stand before. -/
def Obligations.RefusedPrefixes : Prop :=
  ∀ (p : Prefixes) (b : Byte) (rest : List Byte),
    (b ∈ [0x26#8, 0x2E#8, 0x36#8, 0x3E#8, 0x66#8, 0xF0#8, 0xF2#8, 0xF3#8] →
      decode (p.bytes ++ b :: rest) = .refuse .prefixNotAdmitted) ∧
    (p.hasAddr32 = true → decode (p.bytes ++ 0x67#8 :: rest) = .refuse .prefixNotAdmitted) ∧
    (p.segOverride.isSome = true → b ∈ [0x64#8, 0x65#8] →
      decode (p.bytes ++ b :: rest) = .refuse .prefixNotAdmitted) ∧
    (∀ x : Rex,
      b ∈ [0x26#8, 0x2E#8, 0x36#8, 0x3E#8, 0x64#8, 0x65#8, 0x66#8, 0x67#8, 0xF0#8, 0xF2#8, 0xF3#8] ∨
        (0x40 ≤ b.toNat ∧ b.toNat ≤ 0x4F) →
      decode (p.bytes ++ x.toByte :: b :: rest) = .refuse .prefixNotAdmitted)

/-- R132, reasons 2 and 3: after any admitted legacy bytes and an optional REX byte, an opcode byte of no row is
UnknownOpcode; CDh and CFh behind a legacy or REX byte are NamedNotModelled; 64h, 65h or 67h on PUSH, POP, MOV with an
immediate in the opcode, RET, CALL and JMP, and 64h or 65h on LEA, are PrefixNotAdmitted; any REX byte on RET, CALL and
JMP, REX.W, R or X on PUSH and POP, REX.R or X on MOV with an immediate in the opcode, REX.R on C7 and REX.R, X or B on
A1 and A3 are RexBitUnused; so every REX bit that the row does not list is refused. -/
def Obligations.RefusedOpcodesAndRexBits : Prop :=
  ∀ (p : Prefixes) (x : Option Rex) (op : Byte) (rest : List Byte),
    let bytes := p.bytes ++ (x.map Rex.toByte).toList ++ op :: rest
    (findRow op = none → isLegacy op = false → isRex op = false → decode bytes = .refuse .unknownOpcode) ∧
    (op ∈ [0xCD#8, 0xCF#8] → p ≠ .empty ∨ x ≠ none → decode bytes = .refuse .namedNotModelled) ∧
    ((0x50 ≤ op.toNat ∧ op.toNat ≤ 0x5F) ∨ (0xB8 ≤ op.toNat ∧ op.toNat ≤ 0xBF) ∨
        op ∈ [0xC3#8, 0xE8#8, 0xE9#8, 0xEB#8] →
      p ≠ .empty → decode bytes = .refuse .prefixNotAdmitted) ∧
    (op = 0x8D#8 → p.segOverride.isSome = true → decode bytes = .refuse .prefixNotAdmitted) ∧
    (op ∈ [0xC3#8, 0xE8#8, 0xE9#8, 0xEB#8] → p = .empty → x ≠ none → decode bytes = .refuse .rexBitUnused) ∧
    (0x50 ≤ op.toNat ∧ op.toNat ≤ 0x5F → p = .empty → x.any (fun y => y.w || y.r || y.x) = true →
      decode bytes = .refuse .rexBitUnused) ∧
    (0xB8 ≤ op.toNat ∧ op.toNat ≤ 0xBF → p = .empty → x.any (fun y => y.r || y.x) = true →
      decode bytes = .refuse .rexBitUnused) ∧
    (op = 0xC7#8 → x.any (·.r) = true → decode bytes = .refuse .rexBitUnused) ∧
    (op ∈ [0xA1#8, 0xA3#8] → x.any (fun y => y.r || y.x || y.b) = true → decode bytes = .refuse .rexBitUnused)

/-- R132, reason 4, at the ModRM and SIB bytes, behind any admitted legacy bytes and an optional REX byte: C7 with a nonzero
reg field and 8D with mod 11 are UnknownOpcode; on 89, 8B and C7 a register operand behind a legacy byte is
PrefixNotAdmitted, and REX.X on one is RexBitUnused; on these and 8D, REX.X with no SIB byte and REX.B with no base
register (RIP-relative, or SIB with base 101 and mod 00) are RexBitUnused. -/
def Obligations.RefusedModRM : Prop :=
  ∀ (p : Prefixes) (x : Option Rex) (md : BitVec 2) (reg rm : BitVec 3) (rest : List Byte),
    let decodeAt := fun (op : Byte) (tail : List Byte) =>
      decode (p.bytes ++ (x.map Rex.toByte).toList ++ op :: fieldByte md reg rm :: tail)
    let movRm := fun op : Byte => op = 0x89#8 ∨ op = 0x8B#8 ∨ (op = 0xC7#8 ∧ reg = 0#3 ∧ x.any (·.r) = false)
    (reg ≠ 0#3 → x.any (·.r) = false → decodeAt 0xC7#8 rest = .refuse .unknownOpcode) ∧
    (md = 3#2 → p.segOverride = none → decodeAt 0x8D#8 rest = .refuse .unknownOpcode) ∧
    (∀ op, movRm op → md = 3#2 →
      (p ≠ .empty → decodeAt op rest = .refuse .prefixNotAdmitted) ∧
      (p = .empty → x.any (·.x) = true → decodeAt op rest = .refuse .rexBitUnused)) ∧
    (∀ op, movRm op ∨ (op = 0x8D#8 ∧ p.segOverride = none) →
      (md ≠ 3#2 → rm ≠ 4#3 → x.any (·.x) = true → decodeAt op rest = .refuse .rexBitUnused) ∧
      (md = 0#2 → rm = 5#3 → x.any (·.b) = true → decodeAt op rest = .refuse .rexBitUnused) ∧
      (∀ sc ix, md = 0#2 → rm = 4#3 → x.any (·.b) = true →
        decodeAt op (fieldByte sc ix 5#3 :: rest) = .refuse .rexBitUnused))

/-- Bytes the spec writes out and the instruction each stands for: the source's example (R112), and rules R231 to R266. -/
def Obligations.SpecExamplesDecode : Prop :=
  decode [0x48, 0xB8, 0x88, 0x77, 0x66, 0x55, 0x44, 0x33, 0x22, 0x11] = .ok (.movR64Imm64 .rax 0x1122334455667788) [] ∧
  decode [0x89, 0xD8] = .ok (.movRm32R32 false (.reg .rax) .rbx) [] ∧
  decode [0x48, 0x8B, 0x05, 0x10, 0, 0, 0] = .ok (.movR64Rm64 .rax (.mem .empty (.ripRel 0x10))) [] ∧
  decode [0x67, 0x48, 0x8D, 0x04, 0x8B] = .ok (.leaR64M true .rax (.sib .rbx (some .rcx) .s4 .d0)) [] ∧
  decode [0x67, 0x48, 0xA1, 0x20, 0x10, 0, 0] = .ok (.movRaxMoffs ⟨.addr32, 0x1020⟩) [] ∧
  decode [0x41, 0x57] = .ok (.pushR64 true .r15) [] ∧ decode [0xC3] = .ok .ret [] ∧
  decode [0xE8, 0x05, 0, 0, 0] = .ok (.callRel32 5) [] ∧ decode [0xEB, 0xFE] = .ok (.jmpRel8 0xFE) []

/-! ## Effective addresses (40_addressing.md) -/

/-- R160, R161, R163, R173: the effective address is the unbounded sum of base, scaled index and signed displacement (or
of `next` and the displacement), reduced modulo 2^64, or modulo 2^32 with 67h, and zero-extended; so with 67h it is below
4 GB, and through a segment with base 0 so is the virtual address. -/
def Obligations.EffectiveAddressIsTheTruncatedSum : Prop :=
  ∀ (s : State) (nx : Word) (m : MemOperand),
    ((effAddr s nx false m).toNat : Int) = unboundedSum s nx m % 2 ^ 64 ∧
    ((effAddr s nx true m).toNat : Int) = unboundedSum s nx m % 2 ^ 32 ∧
    (∀ seg, segBase s seg = 0 → (linear s seg (effAddr s nx true m)).toNat < 2 ^ 32)

/-- R166, R167, R169: RIP-relative is `next` plus the signed displacement; it reaches exactly the addresses from
`next - 2^31` to `next + 2^31 - 1` modulo 2^64; 67h truncates the sum to 32 bits and does not disable it. -/
def Obligations.RipRelativeAddressing : Prop :=
  ∀ (s : State) (nx : Word),
    (∀ d, ((effAddr s nx false (.ripRel d)).toNat : Int) = (nx.toNat + d.toInt) % 2 ^ 64 ∧
      effAddr s nx true (.ripRel d) = zext32 (trunc32 (effAddr s nx false (.ripRel d)))) ∧
    (∀ k : Int, -2 ^ 31 ≤ k → k ≤ 2 ^ 31 - 1 →
      ∃ d, ((effAddr s nx false (.ripRel d)).toNat : Int) = (nx.toNat + k) % 2 ^ 64)

/-- R174, and R175 for the operands of instructions: the default segment is SS exactly when the operand has the base
register RSP or RBP, as an index they change nothing, and DS otherwise; without an override byte the segment is that
default; an FS or GS override, with or without 67h on either side of it, replaces any default; a memory offset defaults
to DS. -/
def Obligations.SegmentOfAMemoryOperand : Prop :=
  (∀ b d, defaultSeg (.base b d) = if b = .rsp ∨ b = .rbp then .ss else .ds) ∧
  (∀ b ix sc d, defaultSeg (.sib b ix sc d) = if b = .rsp ∨ b = .rbp then .ss else .ds) ∧
  (∀ d, defaultSeg (.ripRel d) = .ds) ∧ (∀ ix sc d, defaultSeg (.sibNoBase ix sc d) = .ds) ∧
  (∀ m, memSeg .empty m = defaultSeg m ∧ memSeg .addr32 m = defaultSeg m ∧
    memSeg (.seg .fs) m = .fs ∧ memSeg (.addr32Seg .fs) m = .fs ∧ memSeg (.segAddr32 .fs) m = .fs ∧
    memSeg (.seg .gs) m = .gs ∧ memSeg (.addr32Seg .gs) m = .gs ∧ memSeg (.segAddr32 .gs) m = .gs) ∧
  (∀ off, moffsSeg ⟨.empty, off⟩ = .ds ∧ moffsSeg ⟨.addr32, off⟩ = .ds ∧
    moffsSeg ⟨.seg .fs, off⟩ = .fs ∧ moffsSeg ⟨.addr32Seg .fs, off⟩ = .fs ∧ moffsSeg ⟨.segAddr32 .fs, off⟩ = .fs ∧
    moffsSeg ⟨.seg .gs, off⟩ = .gs ∧ moffsSeg ⟨.addr32Seg .gs, off⟩ = .gs ∧ moffsSeg ⟨.segAddr32 .gs, off⟩ = .gs)

/-- 70_reset_and_hazards.md R336: moving the code by `d` moves every RIP-relative address (64-bit address size) by `d`. -/
def Obligations.RipRelativeCodeIsPositionIndependent : Prop :=
  ∀ (s : State) (d : Word) (p : Prefixes) (o : BitVec 32) (i : Instr), p.hasAddr32 = false → p.segOverride = none →
    memAddr (s.setRip (s.rip + d)) (nextRip i (s.setRip (s.rip + d))) p (.ripRel o) =
      memAddr s (nextRip i s) p (.ripRel o) + d

/-! ## MOV and LEA (42_data_movement.md) -/

/-- R231, R232: the immediate goes whole, or zero-extended, into any of the sixteen registers; nothing else changes;
no state or operand raises anything. Memory here includes the model's own record of stored bytes,
notes/assumptions/30.md (DESIGN CHOICE). -/
def Obligations.MovImmediateToRegister : Prop :=
  (∀ (s : State) (d : Reg) (imm : Word),
    ∃ t, exec (.movR64Imm64 d imm) s = .next t ∧ t.reg d = imm ∧ Completed [d] (s.rip + 10) s t ∧ SameBytes s t) ∧
  (∀ (s : State) (rex : Bool) (d : Reg) (imm : BitVec 32),
    ∃ t, exec (.movR32Imm32 rex d imm) s = .next t ∧ (t.reg d).toNat = imm.toNat ∧
      Completed [d] (s.rip + (if rex then 6 else 5)) s t ∧ SameBytes s t)

/-- R233, R234, R235, R236 with mod = 11: register to register and immediate to register, 32 bits zero-extended, 64
bits whole (the immediate sign-extended); nothing else changes. Memory here includes the model's own record of stored
bytes, notes/assumptions/30.md (DESIGN CHOICE). -/
def Obligations.MovRegisterForms : Prop :=
  (∀ (s : State) (rex : Bool) (d r : Reg),
    ∃ t, exec (.movRm32R32 rex (.reg d) r) s = .next t ∧ (t.reg d).toNat = (s.reg r).toNat % 2 ^ 32 ∧
      Completed [d] (s.rip + (if rex then 3 else 2)) s t ∧ SameBytes s t) ∧
  (∀ (s : State) (d r : Reg),
    ∃ t, exec (.movRm64R64 (.reg d) r) s = .next t ∧ t.reg d = s.reg r ∧ Completed [d] (s.rip + 3) s t ∧
      SameBytes s t) ∧
  (∀ (s : State) (rex : Bool) (d r : Reg),
    ∃ t, exec (.movR32Rm32 rex d (.reg r)) s = .next t ∧ (t.reg d).toNat = (s.reg r).toNat % 2 ^ 32 ∧
      Completed [d] (s.rip + (if rex then 3 else 2)) s t ∧ SameBytes s t) ∧
  (∀ (s : State) (d r : Reg),
    ∃ t, exec (.movR64Rm64 d (.reg r)) s = .next t ∧ t.reg d = s.reg r ∧ Completed [d] (s.rip + 3) s t ∧
      SameBytes s t) ∧
  (∀ (s : State) (rex : Bool) (d : Reg) (imm : BitVec 32),
    ∃ t, exec (.movRm32Imm32 rex (.reg d) imm) s = .next t ∧ (t.reg d).toNat = imm.toNat ∧
      Completed [d] (s.rip + (if rex then 7 else 6)) s t ∧ SameBytes s t) ∧
  (∀ (s : State) (d : Reg) (imm : BitVec 32),
    ∃ t, exec (.movRm64Imm32 (.reg d) imm) s = .next t ∧ (t.reg d).toInt = imm.toInt ∧
      Completed [d] (s.rip + 7) s t ∧ SameBytes s t)

/-- R233, R236 with a memory destination: on a writable operand the low 4 bytes, or all 8, of the source are stored
little-endian at the operand's address, computed from the registers before the instruction; no register, no other byte
and nothing else changes. That the stored bytes also enter the model's own record of stored bytes, and no other byte
does, is notes/assumptions/30.md (DESIGN CHOICE). -/
def Obligations.MovStoresToMemory : Prop :=
  (∀ (s : State) (rex : Bool) (p : Prefixes) (m : MemOperand) (r : Reg),
    let nx := nextRip (.movRm32R32 rex (.mem p m) r) s
    let la := memAddr s nx p m
    Memory.wf s.mem = true → Writable s la 4 →
    ∃ t, exec (.movRm32R32 rex (.mem p m) r) s = .next t ∧ StoresBytes s t la 4 (s.reg r) ∧
      Completed [] nx s t) ∧
  (∀ (s : State) (p : Prefixes) (m : MemOperand) (r : Reg),
    let nx := nextRip (.movRm64R64 (.mem p m) r) s
    let la := memAddr s nx p m
    Memory.wf s.mem = true → Writable s la 8 →
    ∃ t, exec (.movRm64R64 (.mem p m) r) s = .next t ∧ StoresBytes s t la 8 (s.reg r) ∧
      Completed [] nx s t) ∧
  (∀ (s : State) (rex : Bool) (p : Prefixes) (m : MemOperand) (imm : BitVec 32),
    let nx := nextRip (.movRm32Imm32 rex (.mem p m) imm) s
    let la := memAddr s nx p m
    Memory.wf s.mem = true → Writable s la 4 →
    ∃ t, exec (.movRm32Imm32 rex (.mem p m) imm) s = .next t ∧ StoresBytes s t la 4 (imm.setWidth 64) ∧
      Completed [] nx s t) ∧
  (∀ (s : State) (p : Prefixes) (m : MemOperand) (imm : BitVec 32),
    let nx := nextRip (.movRm64Imm32 (.mem p m) imm) s
    let la := memAddr s nx p m
    Memory.wf s.mem = true → Writable s la 8 →
    ∃ t, exec (.movRm64Imm32 (.mem p m) imm) s = .next t ∧ StoresBytes s t la 8 (imm.signExtend 64) ∧
      Completed [] nx s t)

/-- R234 with a memory source: on a readable operand the register gets the 4 bytes zero-extended, or the 8 bytes,
little-endian, from the address computed from the registers before the instruction; nothing else changes. Memory here
includes the model's own record of stored bytes, notes/assumptions/30.md (DESIGN CHOICE). -/
def Obligations.MovLoadsFromMemory : Prop :=
  (∀ (s : State) (rex : Bool) (d : Reg) (p : Prefixes) (m : MemOperand),
    let nx := nextRip (.movR32Rm32 rex d (.mem p m)) s
    let la := memAddr s nx p m
    Readable s la 4 →
    ∃ t, exec (.movR32Rm32 rex d (.mem p m)) s = .next t ∧ (t.reg d).toNat < 2 ^ 32 ∧
      (∀ k, k < 4 → byteOf (t.reg d) k = s.mem.read (la.toNat + k)) ∧ Completed [d] nx s t ∧ SameBytes s t) ∧
  (∀ (s : State) (d : Reg) (p : Prefixes) (m : MemOperand),
    let nx := nextRip (.movR64Rm64 d (.mem p m)) s
    let la := memAddr s nx p m
    Readable s la 8 →
    ∃ t, exec (.movR64Rm64 d (.mem p m)) s = .next t ∧
      (∀ k, k < 8 → byteOf (t.reg d) k = s.mem.read (la.toNat + k)) ∧ Completed [d] nx s t ∧ SameBytes s t)

/-- R238: RAX, or EAX zero-extended, from the absolute offset. Memory here includes the model's own record of stored
bytes, notes/assumptions/30.md (DESIGN CHOICE). -/
def Obligations.MovFromMemoryOffset : Prop :=
  (∀ (s : State) (rex : Bool) (o : Moffs), Readable s (moffsLinear s o) 4 →
    ∃ t, exec (.movEaxMoffs rex o) s = .next t ∧ (t.reg .rax).toNat < 2 ^ 32 ∧
      (∀ k, k < 4 → byteOf (t.reg .rax) k = s.mem.read ((moffsLinear s o).toNat + k)) ∧
      Completed [.rax] (nextRip (.movEaxMoffs rex o) s) s t ∧ SameBytes s t) ∧
  (∀ (s : State) (o : Moffs), Readable s (moffsLinear s o) 8 →
    ∃ t, exec (.movRaxMoffs o) s = .next t ∧
      (∀ k, k < 8 → byteOf (t.reg .rax) k = s.mem.read ((moffsLinear s o).toNat + k)) ∧
      Completed [.rax] (nextRip (.movRaxMoffs o) s) s t ∧ SameBytes s t)

/-- R239: EAX or RAX to the absolute offset; no other byte and no register changes. That the stored bytes also enter
the model's own record of stored bytes, and no other byte does, is notes/assumptions/30.md (DESIGN CHOICE). -/
def Obligations.MovToMemoryOffset : Prop :=
  (∀ (s : State) (rex : Bool) (o : Moffs), Memory.wf s.mem = true → Writable s (moffsLinear s o) 4 →
    ∃ t, exec (.movMoffsEax rex o) s = .next t ∧ StoresBytes s t (moffsLinear s o) 4 (s.reg .rax) ∧
      Completed [] (nextRip (.movMoffsEax rex o) s) s t) ∧
  (∀ (s : State) (o : Moffs), Memory.wf s.mem = true → Writable s (moffsLinear s o) 8 →
    ∃ t, exec (.movMoffsRax o) s = .next t ∧ StoresBytes s t (moffsLinear s o) 8 (s.reg .rax) ∧
      Completed [] (nextRip (.movMoffsRax o) s) s t)

/-- R176: the effective address of a memory-offset operand is its offset field, zero-extended, and the virtual address
is that plus the base of FS or GS if overridden. -/
def Obligations.MemoryOffsetAddress : Prop :=
  ∀ (s : State) (o : Moffs), o.wf = true →
    moffsAddr o = o.offset ∧ (o.pre.segOverride = none → moffsLinear s o = o.offset) ∧
    (o.pre.segOverride = some .fs → moffsLinear s o = s.fsbase + o.offset) ∧
    (o.pre.segOverride = some .gs → moffsLinear s o = s.gsbase + o.offset)

/-- R240: LEA writes the effective address (its low 32 bits, zero-extended, with operand size 32), whatever that
address is: no memory reference, no check, no segment base; nothing else changes. Memory here includes the model's own
record of stored bytes, notes/assumptions/30.md (DESIGN CHOICE). -/
def Obligations.LeaWritesTheEffectiveAddress : Prop :=
  (∀ (s : State) (a : Bool) (d : Reg) (m : MemOperand),
    let nx := nextRip (.leaR64M a d m) s
    ∃ t, exec (.leaR64M a d m) s = .next t ∧
      ((t.reg d).toNat : Int) = unboundedSum s nx m % (if a then 2 ^ 32 else 2 ^ 64) ∧
      Completed [d] nx s t ∧ SameBytes s t) ∧
  (∀ (s : State) (rex a : Bool) (d : Reg) (m : MemOperand),
    let nx := nextRip (.leaR32M rex a d m) s
    ∃ t, exec (.leaR32M rex a d m) s = .next t ∧ ((t.reg d).toNat : Int) = unboundedSum s nx m % 2 ^ 32 ∧
      Completed [d] nx s t ∧ SameBytes s t)

/-! ## Stack and control transfers (43_stack_and_control.md) -/

/-- R261: PUSH stores the register's value from before the decrement in the 8 bytes below the stack pointer, through
SS, and RSP ends at the lowest of them; PUSH RSP stores the old RSP. That the stored bytes also enter the model's own
record of stored bytes, and no other byte does, is notes/assumptions/30.md (DESIGN CHOICE). -/
def Obligations.PushStoresBelowTheStackPointer : Prop :=
  ∀ (s : State) (rex : Bool) (r : Reg), Memory.wf s.mem = true → Writable s (s.reg .rsp - 8) 8 →
    ∃ t, exec (.pushR64 rex r) s = .next t ∧ StoresBytes s t (s.reg .rsp - 8) 8 (s.reg r) ∧
      t.reg .rsp = s.reg .rsp - 8 ∧ Completed [.rsp] (s.rip + (if rex then 2 else 1)) s t

/-- R262: POP loads the 8 bytes at the stack pointer into the register and raises RSP by 8; POP RSP leaves RSP at the
loaded value; memory does not change. Memory here includes the model's own record of stored bytes,
notes/assumptions/30.md (DESIGN CHOICE). -/
def Obligations.PopLoadsTheTopOfTheStack : Prop :=
  ∀ (s : State) (rex : Bool) (d : Reg), Readable s (s.reg .rsp) 8 →
    ∃ t, exec (.popR64 rex d) s = .next t ∧
      (∀ k, k < 8 → byteOf (t.reg d) k = s.mem.read ((s.reg .rsp).toNat + k)) ∧
      (d ≠ .rsp → t.reg .rsp = s.reg .rsp + 8) ∧ Completed [d, .rsp] (s.rip + (if rex then 2 else 1)) s t ∧
      SameBytes s t

/-- R263, R266: JMP goes to `next` plus the signed displacement when that target is canonical; nothing else changes.
Memory here includes the model's own record of stored bytes, notes/assumptions/30.md (DESIGN CHOICE). -/
def Obligations.JmpGoesToTheRelativeTarget : Prop :=
  (∀ (s : State) (rel : BitVec 8), canonical s.cfg (s.rip + 2 + rel.signExtend 64) = true →
    ∃ t, exec (.jmpRel8 rel) s = .next t ∧ Completed [] (s.rip + 2 + rel.signExtend 64) s t ∧ SameBytes s t) ∧
  (∀ (s : State) (rel : BitVec 32), canonical s.cfg (s.rip + 5 + rel.signExtend 64) = true →
    ∃ t, exec (.jmpRel32 rel) s = .next t ∧ Completed [] (s.rip + 5 + rel.signExtend 64) s t ∧ SameBytes s t)

/-- R264: CALL pushes `next`, all 64 bits, and goes to `next` plus the signed displacement. That the stored bytes also
enter the model's own record of stored bytes, and no other byte does, is notes/assumptions/30.md (DESIGN CHOICE). -/
def Obligations.CallPushesTheReturnAddress : Prop :=
  ∀ (s : State) (rel : BitVec 32), Memory.wf s.mem = true →
    canonical s.cfg (s.rip + 5 + rel.signExtend 64) = true → Writable s (s.reg .rsp - 8) 8 →
    ∃ t, exec (.callRel32 rel) s = .next t ∧ StoresBytes s t (s.reg .rsp - 8) 8 (s.rip + 5) ∧
      t.reg .rsp = s.reg .rsp - 8 ∧ Completed [.rsp] (s.rip + 5 + rel.signExtend 64) s t

/-- R265: RET goes to the 8 bytes at the stack pointer, when they are a canonical address, and raises RSP by 8. Memory
here includes the model's own record of stored bytes, notes/assumptions/30.md (DESIGN CHOICE). -/
def Obligations.RetGoesToTheTopOfTheStack : Prop :=
  ∀ (s : State) (v : Word), Readable s (s.reg .rsp) 8 → HoldsBytes s (s.reg .rsp) 8 v → canonical s.cfg v = true →
    ∃ t, exec .ret s = .next t ∧ t.reg .rsp = s.reg .rsp + 8 ∧ Completed [.rsp] v s t ∧ SameBytes s t

/-- R261 to R265, the pop and the return are inverses: a POP after a PUSH gives the pushed value and the stack pointer
back, and a RET after a CALL goes to the instruction after the CALL with the stack pointer back, when that address is
canonical. Memory here includes the model's own record of stored bytes, notes/assumptions/30.md (DESIGN CHOICE). -/
def Obligations.PopUndoesPushAndRetUndoesCall : Prop :=
  (∀ (s t : State) (rex rex' : Bool) (r d : Reg), Memory.wf s.mem = true → Writable s (s.reg .rsp - 8) 8 →
    exec (.pushR64 rex r) s = .next t →
    ∃ u, exec (.popR64 rex' d) t = .next u ∧ u.reg d = s.reg r ∧ (d ≠ .rsp → u.reg .rsp = s.reg .rsp) ∧
      SameRegsBut [d, .rsp] s u) ∧
  (∀ (s t : State) (rel : BitVec 32), Memory.wf s.mem = true →
    canonical s.cfg (s.rip + 5 + rel.signExtend 64) = true → Writable s (s.reg .rsp - 8) 8 →
    canonical s.cfg (s.rip + 5) = true → exec (.callRel32 rel) s = .next t →
    ∃ u, exec .ret t = .next u ∧ u.rip = s.rip + 5 ∧ SameRegsBut [] s u ∧ SameSystem s u ∧ u.status = s.status ∧
      SameBytesOutside (s.reg .rsp - 8) 8 s u)

/-- R267, R268: INT and IRET are refused by name, in every state. That CD and CF first decode to the instructions INT and
IRET, with INT's vector byte left unread, is notes/assumptions/11.md (DEDUCED), and that the refusal is the outcome of the
step is notes/assumptions/6.md (DESIGN CHOICE): the model's, not the spec's. -/
def Obligations.IntAndIretAreRefused : Prop :=
  (∀ rest : List Byte, decode (0xCD#8 :: rest) = .ok .intImm8 rest ∧ decode (0xCF#8 :: rest) = .ok .iret rest) ∧
  (∀ s : State, exec .intImm8 s = .refused (.encoding .namedNotModelled s.rip) ∧
    exec .iret s = .refused (.encoding .namedNotModelled s.rip))

/-! ## Exceptions (60_exceptions.md) -/

/-- R270: a JMP or CALL whose computed target is not canonical, and a RET whose loaded target is not, raises GP at the
transfer: `rip`, RSP, memory and everything else but the status are as before. -/
def Obligations.NonCanonicalTargetRaisesGp : Prop :=
  (∀ (s : State) (i : Instr) (target : Word), computedTarget i s = some target → canonical s.cfg target = false →
    exec i s = .next (Raised .gp s)) ∧
  (∀ (s : State) (v : Word), Readable s (s.reg .rsp) 8 → HoldsBytes s (s.reg .rsp) 8 v → canonical s.cfg v = false →
    exec .ret s = .next (Raised .gp s))

/-- R305 step 4, R82, R87: when the target of a JMP or CALL is canonical, the data reference of an instruction is checked
for canonical form (SS through SS, GP otherwise), then `Mapped`, then, for a store, `CodeRange`; the first check that
fails is the exception, and nothing else changes. -/
def Obligations.DataReferenceFaults : Prop :=
  ∀ (s : State) (i : Instr) (d : DataRef), dataRef i s = some d →
    (∀ target, computedTarget i s = some target → canonical s.cfg target = true) →
    (¬ CanonicalRef s d.la d.size → exec i s = .next (Raised (if d.seg = .ss then .ss else .gp) s)) ∧
    (CanonicalRef s d.la d.size → ¬ MappedRef s d.la d.size → exec i s = .next (Raised .unmapped s)) ∧
    (d.isStore = true → Readable s d.la d.size → ¬ OutsideCode s d.la d.size → exec i s = .next (Raised .codeWrite s))

/-- R316: an instruction raises only the kinds its row of the table lists. -/
def Obligations.RaisesOnlyWhatItsRowLists : Prop :=
  ∀ (s t : State) (i : Instr) (k : FaultKind) (a : Word), s.status = .running → exec i s = .next t →
    t.status = .faulted k a → mayRaise i s k = true

/-- R304: whenever a step ends in an exception or fault, the status records the address of the instruction and every
other field is as it was. -/
def Obligations.FaultsArePrecise : Prop :=
  ∀ s t : State, step s = .next t → t.status ≠ .running → ∃ k, t = { s with status := .faulted k s.rip }

/-! ## Frames -/

/-- What the register-only forms leave unchanged when they complete or raise: every register but the named
destination, every byte of memory, and everything outside the general registers, `rip` and the status. Memory here
includes the model's own record of stored bytes, notes/assumptions/30.md (DESIGN CHOICE). -/
def Obligations.FrameOfRegisterForms : Prop :=
  ∀ (s t : State) (i : Instr) (d : Reg),
    (∃ imm, i = .movR64Imm64 d imm) ∨ (∃ rex imm, i = .movR32Imm32 rex d imm) ∨
      (∃ rex r, i = .movRm32R32 rex (.reg d) r) ∨ (∃ r, i = .movRm64R64 (.reg d) r) ∨
      (∃ rex imm, i = .movRm32Imm32 rex (.reg d) imm) ∨ (∃ imm, i = .movRm64Imm32 (.reg d) imm) ∨
      (∃ rex a m, i = .leaR32M rex a d m) ∨ (∃ a m, i = .leaR64M a d m) ∨
      (∃ rex o, i = .movR32Rm32 rex d o) ∨ (∃ o, i = .movR64Rm64 d o) ∨
      (d = .rax ∧ ∃ rex o, i = .movEaxMoffs rex o) ∨ (d = .rax ∧ ∃ o, i = .movRaxMoffs o) →
    exec i s = .next t → SameRegsBut [d] s t ∧ SameBytes s t ∧ SameSystem s t ∧
      (t.status = s.status ∨ ∃ k, t.status = .faulted k s.rip)

/-- What the storing MOV forms leave unchanged: every register, and every byte outside the 4 or 8 bytes at the address
the meaning computes. Memory here includes the model's own record of stored bytes, notes/assumptions/30.md (DESIGN
CHOICE). -/
def Obligations.FrameOfStoringMoves : Prop :=
  ∀ (s t : State) (i : Instr) (la : Word) (n : Nat),
    (∃ rex p m r, i = .movRm32R32 rex (.mem p m) r ∧ la = memAddr s (nextRip i s) p m ∧ n = 4) ∨
      (∃ p m r, i = .movRm64R64 (.mem p m) r ∧ la = memAddr s (nextRip i s) p m ∧ n = 8) ∨
      (∃ rex p m imm, i = .movRm32Imm32 rex (.mem p m) imm ∧ la = memAddr s (nextRip i s) p m ∧ n = 4) ∨
      (∃ p m imm, i = .movRm64Imm32 (.mem p m) imm ∧ la = memAddr s (nextRip i s) p m ∧ n = 8) ∨
      (∃ rex o, i = .movMoffsEax rex o ∧ la = moffsLinear s o ∧ n = 4) ∨
      (∃ o, i = .movMoffsRax o ∧ la = moffsLinear s o ∧ n = 8) →
    exec i s = .next t → SameRegsBut [] s t ∧ SameBytesOutside la n s t ∧ SameSystem s t ∧
      (t.status = s.status ∨ ∃ k, t.status = .faulted k s.rip)

/-- What PUSH, POP, CALL, RET and JMP leave unchanged: PUSH and CALL write RSP and the 8 bytes below it, POP its
destination and RSP, RET RSP, JMP nothing; nothing else but `rip` and the status. Memory here includes the model's own
record of stored bytes, notes/assumptions/30.md (DESIGN CHOICE). -/
def Obligations.FrameOfStackAndTransfers : Prop :=
  ∀ s t : State,
    (∀ i : Instr, (∃ rex r, i = .pushR64 rex r) ∨ (∃ rel, i = .callRel32 rel) → exec i s = .next t →
      SameRegsBut [.rsp] s t ∧ SameBytesOutside (pushSlot s) 8 s t ∧ SameSystem s t ∧
        (t.status = s.status ∨ ∃ k, t.status = .faulted k s.rip)) ∧
    (∀ rex d, exec (.popR64 rex d) s = .next t →
      SameRegsBut [d, .rsp] s t ∧ SameBytes s t ∧ SameSystem s t ∧
        (t.status = s.status ∨ ∃ k, t.status = .faulted k s.rip)) ∧
    (exec .ret s = .next t →
      SameRegsBut [.rsp] s t ∧ SameBytes s t ∧ SameSystem s t ∧
        (t.status = s.status ∨ ∃ k, t.status = .faulted k s.rip)) ∧
    (∀ i : Instr, (∃ rel, i = .jmpRel8 rel) ∨ (∃ rel, i = .jmpRel32 rel) → exec i s = .next t →
      SameRegsBut [] s t ∧ SameBytes s t ∧ SameSystem s t ∧
        (t.status = s.status ∨ ∃ k, t.status = .faulted k s.rip))

/-! ## The step (41_pointers_stack_ip.md R216 to R218) -/

/-- R218: when the bytes that can be fetched at `rip` begin with an instruction, the step is that instruction's meaning
in that state; nothing is added around it. -/
def Obligations.StepRunsTheDecodedInstruction : Prop :=
  ∀ (s : State) (i : Instr) (rest : List Byte), s.status = .running → s.rip ≠ s.cfg.stop →
    s.submode = some .bits64 → decode (fetchable s) = .ok i rest → step s = exec i s

/-- When the encoding of a well-formed instruction stands at `rip` in readable memory that the run has not stored to,
the step runs it, whatever stands after it (R216, R129, 20_memory.md R94). That a byte the run has stored to is not
fetched is notes/assumptions/30.md (DESIGN CHOICE). -/
def Obligations.StepRunsTheBytesAtRip : Prop :=
  ∀ (s : State) (i : Instr), i.wf = true → s.status = .running → s.rip ≠ s.cfg.stop → s.submode = some .bits64 →
    Fetchable s s.rip i.length →
    (∀ k b, (encode i)[k]? = some b → s.mem.read (s.rip.toNat + k) = b) → step s = exec i s

/-- R216, R305: when the decoder needs a byte that runs past 2^64 or is not canonical the step raises GP, when that byte
is not in `Mapped` the step is the fault Unmapped, with the address of the instruction and nothing else changed; and when
the run has stored to it the step stops, because R94 of 20_memory.md refuses the question (D10; that the stop is this
refusal is notes/assumptions/30.md, DESIGN CHOICE). -/
def Obligations.FetchFaults : Prop :=
  ∀ (s : State) (k : Nat), s.status = .running → s.rip ≠ s.cfg.stop → s.submode = some .bits64 →
    Fetchable s s.rip k → decode (s.mem.readBytes s.rip.toNat k) = .more →
    (byteOk s.cfg s.rip k = false → step s = .next (Raised .gp s)) ∧
    (byteOk s.cfg s.rip k = true → inRegions s.cfg.mapped (s.rip.toNat + k) = false →
      step s = .next (Raised .unmapped s)) ∧
    (byteOk s.cfg s.rip k = true → inRegions s.cfg.mapped (s.rip.toNat + k) = true → s.wrote (s.rip.toNat + k) = true →
      step s = .refused (.fetchOfStoredByte s.rip))

/-- R132, R305: when the bytes read so far are refused, the step is that refusal at the address of the instruction,
whether or not later bytes could be fetched. R132 and R218 write the refusal into the status; that the step answers
the outcome `refused` instead, and that `State.after` is the spec's record, which changes the status only, is
notes/assumptions/6.md (DESIGN CHOICE). That a byte the run has stored to is not fetched is notes/assumptions/30.md
(DESIGN CHOICE). -/
def Obligations.RefusedBytesEndTheStep : Prop :=
  ∀ (s : State) (k : Nat) (r : RefuseReason), s.status = .running → s.rip ≠ s.cfg.stop → s.submode = some .bits64 →
    Fetchable s s.rip k → k ≤ 14 → decode (s.mem.readBytes s.rip.toNat k) = .refuse r →
    step s = .refused (.encoding r s.rip) ∧ s.after = { s with status := .refused r s.rip }

/-- R218, R334, R21: no step from a state whose status is not Running, none at STOP, and none outside 64-bit mode. -/
def Obligations.WhereThereIsNoStep : Prop :=
  ∀ s : State,
    (∀ k a, s.status = .faulted k a → step s = .fault (.halted k a)) ∧
    (∀ r a, s.status = .refused r a → step s = .refused (.encoding r a)) ∧
    (s.status = .running → s.rip = s.cfg.stop → step s = .fault .runEnded) ∧
    (s.status = .running → s.rip ≠ s.cfg.stop → s.submode ≠ some .bits64 → step s = .refused .modeNotExecutable)

/-- An instruction placed at a canonical `rip` by `withFetchWord` is what the next step runs (70 R331;
notes/assumptions/22.md, DESIGN CHOICE). -/
def Obligations.PlacedInstructionIsRun : Prop :=
  ∀ (s : State) (nbits w : Nat) (i : Instr), Memory.wf s.mem = true → CanonicalRef s s.rip 14 →
    decodeTableWord nbits w = some i → step (s.withFetchWord nbits w) = exec i (s.withFetchWord nbits w)

/-! ## Invariants -/

/-- Every step keeps the invariant: memory in canonical form, 64-bit mode, canonical FS and GS bases, `Mapped`,
`CodeRange` and `STOP` as launched, stores in `Mapped` and outside `CodeRange` only, and a recorded fault at the
instruction `rip` points to. The record of stored bytes is the model's own, notes/assumptions/30.md (DESIGN CHOICE).
-/
def Obligations.StepKeepsTheInvariant : Prop :=
  ∀ s t : State, MachineInv s → step s = .next t → MachineInv t

/-- 20_memory.md R75, R88, R94: along every run, from any state, no byte of `CodeRange` and no byte outside `Mapped`
changes, and every instruction byte that is fetched after the run is the byte that stood there before it: fetched bytes
equal their launch values. That a fetch of a stored byte stops is how the model keeps R94 (notes/assumptions/30.md,
DESIGN CHOICE). -/
def Obligations.CodeAndUnmappedBytesNeverChange : Prop :=
  ∀ (n : Nat) (s t : State), Sys2Proof.core.run n s = .next t →
    (∀ a, inRegions s.cfg.codeRange a = true ∨ inRegions s.cfg.mapped a = false → t.mem.read a = s.mem.read a) ∧
    (∀ k b, fetchByte t k = .ok b → b = s.mem.read (t.rip.toNat + k))

/-- No step changes the mode (10_state.md R21), the FS and GS bases (R38), the selectors (R37: no instruction loads one;
that State holds them is notes/assumptions/9.md), the descriptor bits (R21; held by notes/assumptions/8.md) or a launch
parameter (R46: not state; held by notes/assumptions/1.md). The three logs are DESIGN CHOICE: that these are fields of
State is the model's. -/
def Obligations.SystemStateNeverChanges : Prop :=
  ∀ s t : State, step s = .next t → SameSystem s t

/-! ## The other modes -/

/-- 10_state.md R22: the submode that mode, L and D select. -/
def Obligations.SubmodeSelection : Prop :=
  ∀ (m : Mode) (l d : Bool),
    (submodeOf m l d = some .bits64 ↔ m = .long ∧ l = true ∧ d = false) ∧
    (submodeOf m l d = some .compatibility ↔ m = .long ∧ l = false) ∧
    (submodeOf m l d = none ↔ m = .long ∧ l = true ∧ d = true) ∧
    (m ≠ .long → submodeOf m l d = submodeOf m (!l) d)

/-- 30_encoding.md R115, R116, R117: Table 2-1, all eleven rows, and no 16-bit address size in 64-bit mode. -/
def Obligations.AddressSizeTable : Prop :=
  (∀ d, effAddrSizeIn .bits64 d false = .a64 ∧ effAddrSizeIn .bits64 d true = .a32) ∧
  (∀ a, effAddrSizeIn .bits64 false a = effAddrSize a) ∧
  (∀ m : Submode, m ≠ .bits64 →
    effAddrSizeIn m true false = .a32 ∧ effAddrSizeIn m true true = .a16 ∧
      effAddrSizeIn m false true = .a32 ∧ effAddrSizeIn m false false = .a16) ∧
  (∀ d a, effAddrSizeIn .bits64 d a ≠ .a16)

/-- 20_memory.md R71: the real-mode sum, at most 10FFEFh and, with bit 20 dropped, below 1 MB; physical memory is reached
at that address. -/
def Obligations.RealModeLinearAddress : Prop :=
  ∀ (c : Config) (seg ea : BitVec 16),
    (c.realWrap20 = false → realLinear c seg ea = seg.toNat * 16 + ea.toNat) ∧
    (c.realWrap20 = true → realLinear c seg ea = (seg.toNat * 16 + ea.toNat) % 2 ^ 20) ∧
    realLinear c seg ea ≤ 0x10FFEF ∧ (realPhysical c seg ea).toNat = realLinear c seg ea

/-- 41_pointers_stack_ip.md R202, R210 and 10_state.md R28: far pointers of 4, 6 or 10 bytes, the selector above the
effective address; the stack pointer's size by mode and B bit, and the instruction pointer's by mode and D bit (G4); and
what the two pointers of a machine are: the whole register, or its low 32 or 16 bits. -/
def Obligations.FarPointersAndStackPointerSize : Prop :=
  (∀ p : FarPointer, (p.bytes .a16).length = 4 ∧ (p.bytes .a32).length = 6 ∧ (p.bytes .a64).length = 10) ∧
  (∀ (asz : AddrSize) (p : FarPointer),
    leWord ((p.bytes asz).drop (addrSizeBytes asz)) = p.selector.setWidth 64) ∧
  (∀ p : FarPointer, leWord ((p.bytes .a64).take 8) = p.ea) ∧
  (∀ b, stackPointerSize .bits64 b = .a64 ∧ instructionPointerSize .bits64 b = .a64) ∧
  (∀ m : Submode, m ≠ .bits64 → stackPointerSize m true = .a32 ∧ stackPointerSize m false = .a16 ∧
    instructionPointerSize m true = .a32 ∧ instructionPointerSize m false = .a16) ∧
  (∀ (s : State) (m : Submode), s.submode = some m →
    (∃ v, s.instructionPointer = some v ∧ v.toNat = s.rip.toNat % 2 ^ (8 * addrSizeBytes (instructionPointerSize m s.csD))) ∧
    (∃ v, s.stackPointer = some v ∧ v.toNat = (s.reg .rsp).toNat % 2 ^ (8 * addrSizeBytes (stackPointerSize m s.ssB))))
end

