-- ==== Sys2Proof/Laws/Bytes.lean ====
section
/-! SUPPORT. Byte order: the bytes of a value, and the value of a list of bytes, as numbers. -/

namespace Sys2Proof.Machine

@[simp] theorem length_leBytes (n : Nat) (v : Word) : (leBytes n v).length = n := by
  induction n generalizing v with
  | zero => rfl
  | succ n ih => simp [leBytes, ih]

/-- Byte `k` of the little-endian image is bits `8k+7 .. 8k` (20_memory.md R73, R75). -/
theorem getElem_leBytes (n : Nat) (v : Word) (k : Nat) (h : k < (leBytes n v).length) :
    (leBytes n v)[k] = v.extractLsb' (8 * k) 8 := by
  induction n generalizing v k with
  | zero => simp [leBytes] at h
  | succ n ih =>
    cases k with
    | zero => ext i hi; simp [leBytes]
    | succ k =>
      have h' : k < (leBytes n (v >>> 8)).length := by simpa [leBytes] using h
      simp only [leBytes, List.getElem_cons_succ, ih _ k h']
      ext i hi
      simp only [BitVec.getElem_extractLsb', BitVec.getLsbD_ushiftRight]
      congr 1
      omega

theorem getLsbD_leWord (bs : List Byte) (i : Nat) :
    (leWord bs).getLsbD i = (decide (i < 64) && (bs.getD (i / 8) 0#8).getLsbD (i % 8)) := by
  induction bs generalizing i with
  | nil => simp [leWord]
  | cons b bs ih =>
    simp only [leWord, BitVec.getLsbD_or, BitVec.getLsbD_setWidth, BitVec.getLsbD_shiftLeft, ih]
    by_cases h8 : i < 8
    · have h1 : i / 8 = 0 := by omega
      have h2 : i % 8 = i := by omega
      simp [h1, h2, h8]
    · obtain ⟨j, rfl⟩ : ∃ j, i = j + 8 := ⟨i - 8, by omega⟩
      have h1 : (j + 8) / 8 = j / 8 + 1 := by omega
      have h2 : (j + 8) % 8 = j % 8 := by omega
      by_cases hj : j + 8 < 64
      · have : j < 64 := by omega
        simp [h1, h2, hj, this]
      · simp [hj]

/-- Byte `k` of the value of a list is the `k`-th byte of the list (20_memory.md R74). -/
theorem extract_leWord (bs : List Byte) (k : Nat) (hk : k < 8) :
    (leWord bs).extractLsb' (8 * k) 8 = bs.getD k 0#8 := by
  ext i hi
  rw [BitVec.getElem_extractLsb', getLsbD_leWord]
  have h1 : (8 * k + i) / 8 = k := by omega
  have h2 : (8 * k + i) % 8 = i := by omega
  have h3 : 8 * k + i < 64 := by omega
  simp [h1, h2, h3, BitVec.getLsbD_eq_getElem hi]

/-- The value of a list of bytes has no bit above them. -/
theorem leWord_lt (bs : List Byte) : (leWord bs).toNat < 2 ^ (8 * bs.length) := by
  apply Nat.lt_pow_two_of_testBit
  intro i hi
  rw [BitVec.testBit_toNat, getLsbD_leWord, List.getD_eq_default _ _ (by omega)]
  simp

/-- Two values with the same eight bytes are the same. -/
theorem eq_of_bytes (v w : Word) (h : ∀ k, k < 8 → v.extractLsb' (8 * k) 8 = w.extractLsb' (8 * k) 8) : v = w := by
  ext i hi
  have := congrArg (fun b : Byte => b.getLsbD (i % 8)) (h (i / 8) (by omega))
  have hm : i % 8 < 8 := by omega
  simp only [BitVec.getLsbD_extractLsb', hm, decide_true, Bool.true_and] at this
  rw [show 8 * (i / 8) + i % 8 = i by omega] at this
  simpa [BitVec.getLsbD_eq_getElem hi] using this

/-- Reading back what was laid out (20_memory.md R73). -/
theorem leWord_leBytes (v : Word) : leWord (leBytes 8 v) = v := by
  apply eq_of_bytes
  intro k hk
  rw [extract_leWord _ _ hk, List.getD_eq_getElem _ _ (by simpa using hk), getElem_leBytes]

end Sys2Proof.Machine
end

