-- ==== Sys2Proof/Laws/Decode.lean ====
section
/-! SUPPORT. The pieces of the decoder and the encoder, each inverse to its fellow. -/

namespace Sys2Proof

open Machine

/-! ## Fields of bytes -/

@[simp] theorem Reg.ofNum_num (r : Reg) : Reg.ofNum r.num = r := by cases r <;> rfl

theorem Reg.num_ofNum (n : BitVec 4) : (Reg.ofNum n).num = n := by revert n; decide

@[simp] theorem Reg.ofBits_low3 (r : Reg) : Reg.ofBits r.extended r.low3 = r := by cases r <;> rfl

@[simp] theorem Reg.low3_ofBits (e : Bool) (l : BitVec 3) : (Reg.ofBits e l).low3 = l := by revert e l; decide

@[simp] theorem Reg.extended_ofBits (e : Bool) (l : BitVec 3) : (Reg.ofBits e l).extended = e := by revert e l; decide

theorem Reg.lowIs4_eq (r : Reg) : r.lowIs4 = (r.low3 == 4#3) := by cases r <;> rfl
theorem Reg.lowIs5_eq (r : Reg) : r.lowIs5 = (r.low3 == 5#3) := by cases r <;> rfl

@[simp] theorem Rex.ofByte_toByte (x : Rex) : Rex.ofByte x.toByte = x := by
  obtain ⟨w, r, x, b⟩ := x; revert w r x b; decide

@[simp] theorem isRex_toByte (x : Rex) : isRex x.toByte = true := by
  obtain ⟨w, r, x, b⟩ := x; revert w r x b; decide

theorem Rex.toByte_ofByte (b : Byte) (h : isRex b = true) : (Rex.ofByte b).toByte = b := by revert b; decide

@[simp] theorem isLegacy_toByte (x : Rex) : isLegacy x.toByte = false := by
  obtain ⟨w, r, x, b⟩ := x; revert w r x b; decide

theorem fieldByte_fields (b : Byte) : fieldByte (hiField b) (midField b) (lowField b) = b := by revert b; decide

@[simp] theorem hiField_fieldByte (h : BitVec 2) (m l : BitVec 3) : hiField (fieldByte h m l) = h := by
  revert h m l; decide
@[simp] theorem midField_fieldByte (h : BitVec 2) (m l : BitVec 3) : midField (fieldByte h m l) = m := by
  revert h m l; decide
@[simp] theorem lowField_fieldByte (h : BitVec 2) (m l : BitVec 3) : lowField (fieldByte h m l) = l := by
  revert h m l; decide

@[simp] theorem Scale.ofBits_bits (s : Scale) : Scale.ofBits s.bits = s := by cases s <;> rfl
@[simp] theorem Scale.bits_ofBits (b : BitVec 2) : (Scale.ofBits b).bits = b := by revert b; decide

/-! ## Sequencing -/

@[simp] theorem Decoded.andThen_ok {α β : Type} (a : α) (r : List Byte) (f : α → List Byte → Decoded β) :
    (Decoded.ok a r).andThen f = f a r := rfl
@[simp] theorem Decoded.andThen_more {α β : Type} (f : α → List Byte → Decoded β) :
    (Decoded.more : Decoded α).andThen f = .more := rfl
@[simp] theorem Decoded.andThen_refuse {α β : Type} (w : RefuseReason) (f : α → List Byte → Decoded β) :
    (Decoded.refuse w : Decoded α).andThen f = .refuse w := rfl

theorem Decoded.andThen_eq_ok {α β : Type} {d : Decoded α} {f : α → List Byte → Decoded β} {b : β} {r : List Byte} :
    d.andThen f = .ok b r ↔ ∃ a r', d = .ok a r' ∧ f a r' = .ok b r := by
  cases d <;> simp

@[simp] theorem takeByte_cons (b : Byte) (bs : List Byte) : takeByte (b :: bs) = .ok b bs := rfl

theorem takeByte_eq_ok {bs r : List Byte} {b : Byte} : takeByte bs = .ok b r ↔ bs = b :: r := by
  cases bs <;> simp [takeByte]

/-! ## Little-endian fields (30_encoding.md R124) -/

theorem takeLe_append (n : Nat) (bs rest : List Byte) (h : bs.length = n) :
    takeLe n (bs ++ rest) = .ok (leWord bs) rest := by
  induction n generalizing bs with
  | zero => simp [List.length_eq_zero_iff.1 h, takeLe, leWord]
  | succ n ih =>
    cases bs with
    | nil => simp at h
    | cons b bs => simp [takeLe, ih bs (by simpa using h), leWord]

theorem takeLe_eq_ok {n : Nat} {bs rest : List Byte} {v : Word} (h : takeLe n bs = .ok v rest) :
    ∃ fs, fs.length = n ∧ bs = fs ++ rest ∧ v = leWord fs := by
  induction n generalizing bs v with
  | zero =>
    simp only [takeLe, Decoded.ok.injEq] at h
    exact ⟨[], rfl, by simp [h.2], by simp [← h.1, leWord]⟩
  | succ n ih =>
    cases bs with
    | nil => simp [takeLe] at h
    | cons b bs =>
      simp only [takeLe, Decoded.andThen_eq_ok, Decoded.ok.injEq] at h
      obtain ⟨w, r, hw, rfl, rfl⟩ := h
      obtain ⟨fs, h1, h2, h3⟩ := ih hw
      exact ⟨b :: fs, by simp [h1], by simp [h2], by simp [leWord, h3]⟩

/-- The bytes of the value of at most eight bytes are those bytes. -/
theorem leBytes_leWord (bs : List Byte) (h : bs.length ≤ 8) : leBytes bs.length (leWord bs) = bs := by
  apply List.ext_getElem (by simp)
  intro k h1 h2
  rw [getElem_leBytes, extract_leWord _ _ (by omega), List.getD_eq_getElem _ _ h2]

theorem leWord_leBytes_lt {n : Nat} {v : Word} (hv : v.toNat < 2 ^ (8 * n)) :
    leWord (leBytes n v) = v := by
  apply eq_of_bytes
  intro k hk
  rw [extract_leWord _ _ hk]
  by_cases hn : k < n
  · rw [List.getD_eq_getElem _ _ (by simpa using hn), getElem_leBytes]
  · rw [List.getD_eq_default _ _ (by simpa using hn)]
    apply BitVec.eq_of_toNat_eq
    rw [BitVec.extractLsb'_toNat, Nat.shiftRight_eq_div_pow, Nat.div_eq_of_lt]
    · rfl
    · exact Nat.lt_of_lt_of_le hv (Nat.pow_le_pow_right (by decide) (by omega))

@[simp] theorem length_bytes32 (v : BitVec 32) : (bytes32 v).length = 4 := by simp [bytes32]

theorem leWord_bytes32 (v : BitVec 32) : leWord (bytes32 v) = v.setWidth 64 := by
  have : (zext32 v).toNat < 2 ^ (8 * 4) := by
    simp only [zext32, BitVec.toNat_setWidth]; exact Nat.lt_of_le_of_lt (Nat.mod_le _ _) v.isLt
  exact leWord_leBytes_lt this

@[simp] theorem take32_bytes32 (v : BitVec 32) (rest : List Byte) : take32 (bytes32 v ++ rest) = .ok v rest := by
  rw [take32, takeLe_append 4 _ _ (length_bytes32 v), leWord_bytes32]
  simp

theorem take32_eq_ok {bs rest : List Byte} {v : BitVec 32} (h : take32 bs = .ok v rest) : bs = bytes32 v ++ rest := by
  simp only [take32, Decoded.andThen_eq_ok, Decoded.ok.injEq] at h
  obtain ⟨w, r, hw, rfl, rfl⟩ := h
  obtain ⟨fs, h1, rfl, rfl⟩ := takeLe_eq_ok hw
  have hlt : (leWord fs).toNat < 2 ^ 32 := by simpa [h1] using leWord_lt fs
  have : zext32 ((leWord fs).setWidth 32) = leWord fs := by
    apply BitVec.eq_of_toNat_eq
    simp only [zext32, BitVec.toNat_setWidth]
    rw [Nat.mod_eq_of_lt hlt, Nat.mod_eq_of_lt (leWord fs).isLt]
  rw [bytes32, this]
  have := leBytes_leWord fs (by omega)
  rw [h1] at this
  rw [this]

/-! ## Legacy bytes and the REX byte -/

theorem Prefixes.add_67 (p : Prefixes) : p.add 0x67#8 = p.add67.map some := rfl
theorem Prefixes.add_64 (p : Prefixes) : p.add 0x64#8 = (p.addSeg .fs).map some := rfl
theorem Prefixes.add_65 (p : Prefixes) : p.add 0x65#8 = (p.addSeg .gs).map some := rfl

/-- Legacy bytes, then a byte that is none. -/
theorem decodePrefixes_bytes (p : Prefixes) (b : Byte) (rest : List Byte) (h : isLegacy b = false) :
    decodePrefixes .empty (p.bytes ++ b :: rest) = .ok p (b :: rest) := by
  have hn (q : Prefixes) : q.add b = some none := by
    simp only [isLegacy, Bool.or_eq_false_iff] at h
    simp [Prefixes.add, h]
  cases p with
  | empty => simp [Prefixes.bytes, decodePrefixes, hn]
  | addr32 => simp [Prefixes.bytes, decodePrefixes, Prefixes.add_67, Prefixes.add67, hn]
  | seg s =>
    cases s <;>
      simp [Prefixes.bytes, decodePrefixes, SegOverride.byte, Prefixes.add_64, Prefixes.add_65, Prefixes.addSeg, hn]
  | addr32Seg s =>
    cases s <;>
      simp [Prefixes.bytes, decodePrefixes, SegOverride.byte, Prefixes.add_64, Prefixes.add_65, Prefixes.addSeg,
        Prefixes.add_67, Prefixes.add67, hn]
  | segAddr32 s =>
    cases s <;>
      simp [Prefixes.bytes, decodePrefixes, SegOverride.byte, Prefixes.add_64, Prefixes.add_65, Prefixes.addSeg,
        Prefixes.add_67, Prefixes.add67, hn]

/-- An optional REX byte and the opcode byte. -/
theorem decodeRexOpcode_bytes (x : Option Rex) (op : Byte) (rest : List Byte) (hl : isLegacy op = false)
    (hr : isRex op = false) : decodeRexOpcode ((x.map Rex.toByte).toList ++ op :: rest) = .ok (x, op) rest := by
  cases x <;> simp [decodeRexOpcode, hl, hr]

end Sys2Proof
end

