-- ==== Sys2Proof/Laws/DecodeRoundTrip.lean ====
section
/-! SUPPORT. The pieces of an instruction, encoded then decoded and decoded then encoded; each lemma is one piece of the
two round trips, which are obligations and are not proved here. -/

namespace Sys2Proof

open Machine

/-! ## Encoded, then decoded -/

/-- The displacement that `mod` announces, read back. -/
theorem decodeDisp_bytes (d : Disp) (rest : List Byte) : decodeDisp d.modBits (d.bytes ++ rest) = .ok d rest := by
  cases d <;> simp [decodeDisp, Disp.modBits, Disp.bytes]

theorem indexOfBits_bits (i : Option Reg) (h : indexOk i = true) :
    indexOfBits (indexExtended i) (indexBits i) = i := by
  cases i with
  | none => rfl
  | some r => cases r <;> first | rfl | simp [indexOk] at h

/-- A memory operand read back from its ModRM fields and the bytes after the ModRM byte. -/
theorem decodeMem_bytes (m : MemOperand) (rex : Rex) (reg : BitVec 3) (rest : List Byte) (h : m.wf = true)
    (hx : rex.x = m.indexExt) (hb : rex.b = m.baseExtended) :
    ∃ md rm tail, m.bytes reg ++ rest = fieldByte md reg rm :: tail ∧ md ≠ 3#2 ∧
      decodeMem md rm rex tail = .ok m rest := by
  cases m with
  | ripRel d =>
    exact ⟨0, 5, bytes32 d ++ rest, rfl, by decide, by
      simp_all [decodeMem, MemOperand.indexExt, MemOperand.baseExtended]⟩
  | base b d =>
    refine ⟨d.modBits, b.low3, d.bytes ++ rest, rfl, by cases d <;> simp [Disp.modBits], ?_⟩
    simp only [MemOperand.wf, Reg.lowIs4_eq, Reg.lowIs5_eq] at h
    simp only [MemOperand.indexExt] at hx
    simp only [MemOperand.baseExtended] at hb
    have h1 : (b.low3 == 4#3) = false := by cases hh : (b.low3 == 4#3) <;> simp_all
    have h2 : (d.modBits == 0#2 && b.low3 == 5#3) = false := by
      cases d <;> simp_all [Disp.modBits]
    simp only [decodeMem, h1, h2, hx, hb, decodeDisp_bytes, Bool.false_eq_true, if_false, Decoded.andThen_ok,
      Reg.ofBits_low3]
  | sib b i sc d =>
    refine ⟨d.modBits, 4#3, fieldByte sc.bits (indexBits i) b.low3 :: (d.bytes ++ rest), rfl,
      by cases d <;> simp [Disp.modBits], ?_⟩
    simp only [MemOperand.wf, Reg.lowIs5_eq, Bool.and_eq_true] at h
    simp only [MemOperand.indexExt] at hx
    simp only [MemOperand.baseExtended] at hb
    have h2 : (d.modBits == 0#2 && b.low3 == 5#3) = false := by
      cases d <;> simp_all [Disp.modBits]
    simp only [decodeMem, decodeSib, BEq.rfl, if_true, takeByte_cons, Decoded.andThen_ok, lowField_fieldByte,
      hiField_fieldByte, midField_fieldByte, h2, hx, hb, decodeDisp_bytes, indexOfBits_bits i h.1, Bool.false_eq_true,
      if_false, Reg.ofBits_low3, Scale.ofBits_bits]
  | sibNoBase i sc d =>
    refine ⟨0#2, 4#3, fieldByte sc.bits (indexBits i) 5#3 :: (bytes32 d ++ rest), rfl, by decide, ?_⟩
    simp only [MemOperand.wf] at h
    simp only [MemOperand.indexExt] at hx
    simp only [MemOperand.baseExtended] at hb
    simp [decodeMem, decodeSib, hx, hb, indexOfBits_bits i h]

/-- The legacy bytes an r/m operand carries. -/
def RegMem.pre : RegMem → Prefixes
  | .reg _ => .empty
  | .mem p _ => p

theorem RegMem.prefixBytes_eq (o : RegMem) : o.prefixBytes = o.pre.bytes := by cases o <;> rfl

/-- The register and the r/m operand read back from ModRM, SIB and displacement. -/
theorem decodeModRM_bytes (bad : BitVec 2 → BitVec 3 → Bool) (r : Reg) (o : RegMem) (rex : Rex) (rest : List Byte)
    (h : o.wf = true) (hr : rex.r = r.extended) (hx : rex.x = o.indexExt) (hb : rex.b = o.baseExtended)
    (hbad : ∀ md, (md = 3#2 → ∃ q, o = .reg q) → bad md r.low3 = false) :
    decodeModRM bad o.pre rex (o.bytes r.low3 ++ rest) = .ok (r, o) rest := by
  cases o with
  | reg q =>
    simp only [RegMem.indexExt] at hx
    simp only [RegMem.baseExtended] at hb
    have := hbad 3#2 (fun _ => ⟨q, rfl⟩)
    simp [decodeModRM, RegMem.bytes, RegMem.pre, this, hr, hx, hb]
  | mem p m =>
    obtain ⟨md, rm, tail, he, hm, hd⟩ := decodeMem_bytes m rex r.low3 rest h hx hb
    have h3 : (md == 3#2) = false := by simpa using hm
    simp only [decodeModRM, RegMem.bytes, RegMem.pre, he, takeByte_cons, Decoded.andThen_ok, hiField_fieldByte,
      midField_fieldByte, lowField_fieldByte, hbad md (fun h => absurd h hm), h3, hd, hr, Bool.false_eq_true, if_false,
      Reg.ofBits_low3]

theorem decode_bytes (p : Prefixes) (x : Option Rex) (op : Byte) (rest : List Byte) (hl : isLegacy op = false)
    (hr : isRex op = false) (row : OpcodeRow) (hrow : findRow op = some row) (hc : row.check p x = none) :
    decode (p.bytes ++ ((x.map Rex.toByte).toList ++ op :: rest)) = decodeOperands row.op op p x rest := by
  have h1 : decodePrefixes .empty (p.bytes ++ ((x.map Rex.toByte).toList ++ op :: rest)) =
      .ok p ((x.map Rex.toByte).toList ++ op :: rest) := by
    cases x with
    | none => exact decodePrefixes_bytes p op rest hl
    | some x => exact decodePrefixes_bytes p x.toByte (op :: rest) (isLegacy_toByte x)
  simp [decode, h1, decodeRexOpcode_bytes x op rest hl hr, hrow, hc]

theorem rexBytes_eq (rex : Bool) (x : Rex) :
    rexBytes rex x = ((if rex then some x else none).map Rex.toByte).toList := by
  cases rex <;> rfl

/-! ## Decoded, then encoded -/

/-- A legacy byte that is admitted stands after those before it. -/
theorem Prefixes.bytes_of_add {p q : Prefixes} {b : Byte} (h : p.add b = some (some q)) : q.bytes = p.bytes ++ [b] := by
  simp only [Prefixes.add, beq_iff_eq] at h
  split at h
  · subst b; cases p <;> simp [Prefixes.add67] at h <;> subst h <;> rfl
  · split at h
    · subst b; cases p <;> simp [Prefixes.addSeg] at h <;> subst h <;> rfl
    · split at h
      · subst b; cases p <;> simp [Prefixes.addSeg] at h <;> subst h <;> rfl
      · split at h <;> simp at h

/-- What the legacy bytes read tell of the bytes. -/
theorem decodePrefixes_ok {p0 p : Prefixes} {bs rest : List Byte} (h : decodePrefixes p0 bs = .ok p rest) :
    ∃ mid, bs = mid ++ rest ∧ p0.bytes ++ mid = p.bytes ∧ ∃ b t, rest = b :: t ∧ isLegacy b = false := by
  induction bs generalizing p0 with
  | nil => simp [decodePrefixes] at h
  | cons b bs ih =>
    simp only [decodePrefixes] at h
    split at h
    · simp at h
    · rename_i hb
      simp at h
      refine ⟨[], by simp [h.2], by simp [h.1], b, bs, h.2.symm, ?_⟩
      simp only [Prefixes.add] at hb
      simp only [isLegacy]
      split at hb
      · cases hq : p0.add67 <;> simp [hq] at hb
      · split at hb
        · cases hq : p0.addSeg .fs <;> simp [hq] at hb
        · split at hb
          · cases hq : p0.addSeg .gs <;> simp [hq] at hb
          · split at hb
            · simp at hb
            · simp_all
    · rename_i q hb
      obtain ⟨mid, h1, h2, h3⟩ := ih h
      refine ⟨b :: mid, by simp [h1], ?_, h3⟩
      rw [← h2, Prefixes.bytes_of_add hb]; simp

/-- What the REX byte and the opcode byte read tell of the bytes. -/
theorem decodeRexOpcode_ok {bs rest : List Byte} {x : Option Rex} {op : Byte}
    (h : decodeRexOpcode bs = .ok (x, op) rest) :
    bs = (x.map Rex.toByte).toList ++ op :: rest ∧ isRex op = false := by
  simp only [decodeRexOpcode, Decoded.andThen_eq_ok, takeByte_eq_ok] at h
  obtain ⟨b, r, rfl, h⟩ := h
  split at h
  · simp only [Decoded.andThen_eq_ok, takeByte_eq_ok] at h
    obtain ⟨c, r', rfl, h⟩ := h
    split at h
    · simp at h
    · simp at h
      obtain ⟨⟨rfl, rfl⟩, rfl⟩ := h
      simp_all [Rex.toByte_ofByte]
  · simp at h
    obtain ⟨⟨rfl, rfl⟩, rfl⟩ := h
    simp_all

/-- A displacement read tells its bytes and `mod`. -/
theorem decodeDisp_ok {md : BitVec 2} {bs rest : List Byte} {d : Disp} (hm : md ≠ 3#2)
    (h : decodeDisp md bs = .ok d rest) :
    bs = d.bytes ++ rest ∧ d.modBits = md := by
  have : md = 0#2 ∨ md = 1#2 ∨ md = 2#2 := by clear h; revert md; decide
  obtain rfl | rfl | rfl := this
  · simp [decodeDisp] at h; simp [← h, Disp.bytes, Disp.modBits]
  · simp [decodeDisp, Decoded.andThen_eq_ok, takeByte_eq_ok] at h
    obtain ⟨a, rfl, rfl⟩ := h
    simp [Disp.bytes, Disp.modBits]
  · simp [decodeDisp, Decoded.andThen_eq_ok] at h
    obtain ⟨a, h, rfl⟩ := h
    simp [Disp.bytes, Disp.modBits, take32_eq_ok h]

/-- An index read from its field encodes as that field. -/
theorem indexOfBits_facts (x : Bool) (f : BitVec 3) :
    indexOk (indexOfBits x f) = true ∧ indexExtended (indexOfBits x f) = x ∧
    indexBits (indexOfBits x f) = f := by revert x f; decide

/-- A memory operand read is well formed and its bytes are the ModRM byte and the bytes read. -/
theorem decodeMem_ok {md : BitVec 2} {rm reg : BitVec 3} {rex : Rex} {bs rest : List Byte} {m : MemOperand}
    (hm : md ≠ 3#2) (h : decodeMem md rm rex bs = .ok m rest) :
    m.bytes reg ++ rest = fieldByte md reg rm :: bs ∧ m.wf = true ∧ m.indexExt = rex.x ∧ m.baseExtended = rex.b := by
  simp only [decodeMem] at h
  split at h
  · rename_i hrm
    simp at hrm; subst hrm
    simp only [decodeSib, Decoded.andThen_eq_ok, takeByte_eq_ok] at h
    obtain ⟨s, r, rfl, h⟩ := h
    obtain ⟨h1, h2, h3⟩ := indexOfBits_facts rex.x (midField s)
    split at h
    · rename_i hc
      simp at hc
      split at h
      · simp at h
      · simp only [Decoded.andThen_eq_ok] at h
        obtain ⟨d, r', h, h'⟩ := h
        simp at h'
        obtain ⟨rfl, rfl⟩ := h'
        have := take32_eq_ok h
        subst this
        simp_all [MemOperand.bytes, MemOperand.wf, MemOperand.indexExt, MemOperand.baseExtended]
        rw [← fieldByte_fields s, hc.2]; simp
    · rename_i hc
      simp only [Decoded.andThen_eq_ok] at h
      obtain ⟨d, r', h, h'⟩ := h
      simp at h'
      obtain ⟨rfl, rfl⟩ := h'
      obtain ⟨rfl, rfl⟩ := decodeDisp_ok hm h
      simp only [MemOperand.bytes, MemOperand.wf, MemOperand.indexExt, MemOperand.baseExtended, h1, h2, h3,
        Reg.low3_ofBits, Reg.extended_ofBits, Scale.bits_ofBits, Reg.lowIs5_eq, fieldByte_fields]
      simp
      simp at hc
      cases d <;> simp_all [Disp.modBits]
  · rename_i hrm
    split at h
    · simp at h
    · split at h
      · rename_i hc
        split at h
        · simp at h
        · simp only [Decoded.andThen_eq_ok] at h
          obtain ⟨d, r', h, h'⟩ := h
          simp at h'
          obtain ⟨rfl, rfl⟩ := h'
          have := take32_eq_ok h
          subst this
          simp_all [MemOperand.bytes, MemOperand.wf, MemOperand.indexExt, MemOperand.baseExtended]
      · rename_i hc
        simp only [Decoded.andThen_eq_ok] at h
        obtain ⟨d, r', h, h'⟩ := h
        simp at h'
        obtain ⟨rfl, rfl⟩ := h'
        obtain ⟨rfl, rfl⟩ := decodeDisp_ok hm h
        simp only [MemOperand.bytes, MemOperand.wf, MemOperand.indexExt, MemOperand.baseExtended,
          Reg.low3_ofBits, Reg.extended_ofBits, Reg.lowIs5_eq, Reg.lowIs4_eq]
        simp at hc hrm
        cases d <;> simp_all [Disp.modBits]

/-- A ModRM group read tells its bytes, the REX bits and the legacy bytes. -/
theorem decodeModRM_ok {bad : BitVec 2 → BitVec 3 → Bool} {p : Prefixes} {rex : Rex} {bs rest : List Byte}
    {r : Reg} {o : RegMem} (h : decodeModRM bad p rex bs = .ok (r, o) rest) :
    ∃ reg md, bs = o.bytes reg ++ rest ∧ o.wf = true ∧ o.indexExt = rex.x ∧ o.baseExtended = rex.b ∧ o.pre = p ∧
      reg = r.low3 ∧ r.extended = rex.r ∧ bad md reg = false ∧ ((∃ q, o = .reg q) ↔ md = 3#2) := by
  simp only [decodeModRM, Decoded.andThen_eq_ok, takeByte_eq_ok] at h
  obtain ⟨m, r1, rfl, h⟩ := h
  refine ⟨midField m, hiField m, ?_⟩
  split at h
  · simp at h
  · rename_i hbad
    split at h
    · rename_i h3
      split at h
      · simp at h
      · split at h
        · simp at h
        · simp at h
          obtain ⟨⟨rfl, rfl⟩, rfl⟩ := h
          simp_all [RegMem.bytes, RegMem.wf, RegMem.indexExt, RegMem.baseExtended, RegMem.pre]
          rw [← h3]; exact (fieldByte_fields m).symm
    · rename_i h3
      simp at h3
      simp only [Decoded.andThen_eq_ok] at h
      obtain ⟨o', r', h, h'⟩ := h
      simp at h'
      obtain ⟨⟨rfl, rfl⟩, rfl⟩ := h'
      have := decodeMem_ok (reg := midField m) h3 h
      rw [fieldByte_fields] at this
      simp_all [RegMem.bytes, RegMem.wf, RegMem.indexExt, RegMem.baseExtended, RegMem.pre]

/-- A row that admits the legacy bytes and the REX byte lists them. -/
theorem OpcodeRow.check_eq_none {row : OpcodeRow} {p : Prefixes} {x : Option Rex} (h : row.check p x = none) :
    (p.hasAddr32 = true → row.addr = true) ∧ (p.segOverride.isSome = true → row.seg = true) ∧
    ∀ y, x = some y → row.rexAny = true ∧ (y.w = true → row.rex.w = true) ∧ (y.r = true → row.rex.r = true) ∧
      (y.x = true → row.rex.x = true) ∧ (y.b = true → row.rex.b = true) := by
  unfold OpcodeRow.check at h
  split at h
  · simp at h
  rename_i h1
  cases x with
  | none => simp at h1; grind
  | some y => simp at h h1; grind

end Sys2Proof
end

