-- ==== Sys2Proof/Laws/DecodeStable.lean ====
section
/-! SUPPORT. The pieces of the decoder answer from the bytes they need (60_exceptions.md R305), and how many that is at
most (30_encoding.md R129). -/

namespace Sys2Proof

/-! ## Later bytes -/

/-- Bytes after those read do not change an answer. -/
def Stable {α : Type} (f : List Byte → Decoded α) : Prop :=
  ∀ bs later, (∀ a r, f bs = .ok a r → f (bs ++ later) = .ok a (r ++ later)) ∧
    (∀ w, f bs = .refuse w → f (bs ++ later) = .refuse w)

theorem Stable.andThen {α β : Type} {f : List Byte → Decoded α} {g : α → List Byte → Decoded β}
    (hf : Stable f) (hg : ∀ a, Stable (g a)) : Stable fun bs => (f bs).andThen (g) := by
  intro bs later
  have h := hf bs later
  show (∀ b r, (f bs).andThen g = .ok b r → (f (bs ++ later)).andThen g = .ok b (r ++ later)) ∧
    (∀ w, (f bs).andThen g = .refuse w → (f (bs ++ later)).andThen g = .refuse w)
  cases hh : f bs with
  | ok a r =>
    have := h.1 a r hh
    rw [this, Decoded.andThen_ok, Decoded.andThen_ok]
    exact hg a r later
  | more => simp
  | refuse w => simp [h.2 w hh]

theorem Stable.ok {α : Type} (a : α) : Stable (fun bs => .ok a bs) := by intro bs later; simp

theorem Stable.refuse {α : Type} (w : RefuseReason) : Stable (fun _ => (.refuse w : Decoded α)) := by intro bs later; simp

theorem Stable.ite {α : Type} {c : Prop} [Decidable c] {f g : List Byte → Decoded α} (hf : Stable f) (hg : Stable g) :
    Stable (fun bs => if c then f bs else g bs) := by
  by_cases h : c <;> simp [h] <;> assumption

theorem stable_takeByte : Stable takeByte := by
  intro bs later; cases bs <;> simp [takeByte]

theorem stable_takeLe (n : Nat) : Stable (takeLe n) := by
  induction n with
  | zero => intro bs later; simp [takeLe]
  | succ n ih =>
    intro bs later
    cases bs with
    | nil => simp [takeLe]
    | cons b bs =>
      simp only [takeLe, List.cons_append]
      exact Stable.andThen ih (fun _ => Stable.ok _) bs later

theorem stable_take32 : Stable take32 := Stable.andThen (stable_takeLe 4) (fun _ => Stable.ok _)

theorem stable_decodePrefixes (p : Prefixes) : Stable (decodePrefixes p) := by
  intro bs later
  induction bs generalizing p with
  | nil => simp [decodePrefixes]
  | cons b bs ih =>
    simp only [decodePrefixes, List.cons_append]
    split
    · simp
    · simp
    · exact ih _

theorem stable_rex : Stable decodeRexOpcode :=
  .andThen stable_takeByte fun _ =>
    .ite (.andThen stable_takeByte fun _ => .ite (.refuse _) (.ok _)) (.ok _)

theorem stable_disp (md) : Stable (decodeDisp md) := by
  unfold decodeDisp
  split
  · exact Stable.andThen stable_takeByte (fun _ => Stable.ok _)
  · exact Stable.andThen stable_take32 (fun _ => Stable.ok _)
  · exact Stable.ok _

theorem stable_sib (md x) : Stable (decodeSib md x) :=
  .andThen stable_takeByte fun _ =>
    .ite (.ite (.refuse _) (.andThen stable_take32 fun _ => .ok _)) (.andThen (stable_disp md) fun _ => .ok _)

theorem stable_mem (md rm x) : Stable (decodeMem md rm x) :=
  .ite (stable_sib md x) (.ite (.refuse _)
    (.ite (.ite (.refuse _) (.andThen stable_take32 fun _ => .ok _)) (.andThen (stable_disp md) fun _ => .ok _)))

theorem stable_modrm (bad p x) : Stable (decodeModRM bad p x) :=
  .andThen stable_takeByte fun _ => .ite (.refuse _)
    (.ite (.ite (.refuse _) (.ite (.refuse _) (.ok _))) (.andThen (stable_mem _ _ x) fun _ => .ok _))

theorem stable_moffs (p) : Stable (decodeMoffs p) := Stable.andThen (stable_takeLe _) fun _ => Stable.ok _

theorem stable_operands (op b p x) : Stable (decodeOperands op b p x) := by
  cases op
  case push => exact .ok _
  case pop => exact .ok _
  case movStore => exact .andThen (stable_modrm _ _ _) fun _ => .ok _
  case movLoad => exact .andThen (stable_modrm _ _ _) fun _ => .ok _
  case lea =>
    refine .andThen (stable_modrm _ _ _) fun o => ?_
    obtain ⟨r, o⟩ := o
    cases o
    · exact .refuse _
    · exact .ok _
  case moffsLoad => exact .andThen (stable_moffs _) fun _ => .ok _
  case moffsStore => exact .andThen (stable_moffs _) fun _ => .ok _
  case movImm => exact .ite (.andThen (stable_takeLe 8) fun _ => .ok _) (.andThen stable_take32 fun _ => .ok _)
  case ret => exact .ok _
  case movRmImm => exact .andThen (stable_modrm _ _ _) fun _ => .andThen stable_take32 fun _ => .ok _
  case int => exact .ok _
  case iret => exact .ok _
  case call => exact .andThen stable_take32 fun _ => .ok _
  case jmp32 => exact .andThen stable_take32 fun _ => .ok _
  case jmp8 => exact .andThen stable_takeByte fun _ => .ok _

/-! ## When more bytes are needed -/

theorem takeLe_more {n : Nat} {bs : List Byte} (h : takeLe n bs = .more) : bs.length < n := by
  induction n generalizing bs with
  | zero => simp [takeLe] at h
  | succ n ih =>
    cases bs with
    | nil => simp
    | cons b bs =>
      simp only [takeLe] at h
      cases hh : takeLe n bs <;> simp [hh] at h
      simpa using ih hh

theorem Decoded.andThen_eq_more {α β : Type} {d : Decoded α} {f : α → List Byte → Decoded β} :
    d.andThen f = .more ↔ d = .more ∨ ∃ a r, d = .ok a r ∧ f a r = .more := by
  cases d <;> simp

theorem take32_more {bs : List Byte} (h : take32 bs = .more) : bs.length < 4 := by
  simp only [take32, Decoded.andThen_eq_more] at h
  obtain h | ⟨a, r, _, h⟩ := h
  · exact takeLe_more h
  · simp at h

theorem takeByte_more {bs : List Byte} (h : takeByte bs = .more) : bs.length = 0 := by
  cases bs <;> simp [takeByte] at h; rfl

theorem decodePrefixes_more {p : Prefixes} {bs : List Byte} (h : decodePrefixes p bs = .more) : p.bytes.length + bs.length ≤ 2 := by
  induction bs generalizing p with
  | nil => cases p <;> simp [Prefixes.bytes]
  | cons b bs ih =>
    simp only [decodePrefixes] at h
    split at h
    · simp at h
    · simp at h
    · rename_i q hb
      have := ih h
      have h2 := Prefixes.bytes_of_add hb
      rw [h2] at this; simp at this ⊢; omega

theorem rex_more {bs : List Byte} (h : decodeRexOpcode bs = .more) : bs.length ≤ 1 := by
  simp only [decodeRexOpcode, Decoded.andThen_eq_more] at h
  obtain h | ⟨a, r, ha, h⟩ := h
  · have := takeByte_more h; omega
  · rw [takeByte_eq_ok] at ha; subst ha
    split at h
    · simp only [Decoded.andThen_eq_more] at h
      obtain h | ⟨a, r', ha, h⟩ := h
      · have := takeByte_more h; simp [List.length_cons, this]
      · split at h <;> simp at h
    · simp at h

theorem disp_more {md} {bs : List Byte} (h : decodeDisp md bs = .more) : bs.length < 4 := by
  unfold decodeDisp at h
  split at h
  · simp only [Decoded.andThen_eq_more] at h
    obtain h | ⟨a, r, _, h⟩ := h
    · have := takeByte_more h; omega
    · simp at h
  · simp only [Decoded.andThen_eq_more] at h
    obtain h | ⟨a, r, _, h⟩ := h
    · exact take32_more h
    · simp at h
  · simp at h

theorem sib_more {md x} {bs : List Byte} (h : decodeSib md x bs = .more) : bs.length < 5 := by
  simp only [decodeSib, Decoded.andThen_eq_more] at h
  obtain h | ⟨a, r, ha, h⟩ := h
  · have := takeByte_more h; omega
  · rw [takeByte_eq_ok] at ha; subst ha
    split at h
    · split at h
      · simp at h
      · simp only [Decoded.andThen_eq_more] at h
        obtain h | ⟨a, r, _, h⟩ := h
        · have := take32_more h; simp; omega
        · simp at h
    · simp only [Decoded.andThen_eq_more] at h
      obtain h | ⟨a, r, _, h⟩ := h
      · have := disp_more h; simp; omega
      · simp at h

theorem mem_more {md rm x} {bs : List Byte} (h : decodeMem md rm x bs = .more) : bs.length < 5 := by
  simp only [decodeMem] at h
  split at h
  · exact sib_more h
  · split at h
    · simp at h
    · split at h
      · split at h
        · simp at h
        · simp only [Decoded.andThen_eq_more] at h
          obtain h | ⟨a, r, _, h⟩ := h
          · have := take32_more h; omega
          · simp at h
      · simp only [Decoded.andThen_eq_more] at h
        obtain h | ⟨a, r, _, h⟩ := h
        · have := disp_more h; omega
        · simp at h

theorem modrm_more {bad p x} {bs : List Byte} (h : decodeModRM bad p x bs = .more) : bs.length < 6 := by
  simp only [decodeModRM, Decoded.andThen_eq_more] at h
  obtain h | ⟨a, r, ha, h⟩ := h
  · have := takeByte_more h; omega
  · rw [takeByte_eq_ok] at ha; subst ha
    split at h
    · simp at h
    · split at h
      · split at h
        · simp at h
        · split at h <;> simp at h
      · simp only [Decoded.andThen_eq_more] at h
        obtain h | ⟨a, r, _, h⟩ := h
        · have := mem_more h; simp; omega
        · simp at h

theorem length_rm_le (o : RegMem) (reg) : (o.bytes reg).length ≤ 6 := by
  cases o with
  | reg r => simp [RegMem.bytes]
  | mem p m => cases m with
    | ripRel d => simp [RegMem.bytes, MemOperand.bytes]
    | base b d => cases d <;> simp [RegMem.bytes, MemOperand.bytes, Disp.bytes]
    | sib b i sc d => cases d <;> simp [RegMem.bytes, MemOperand.bytes, Disp.bytes]
    | sibNoBase i sc d => simp [RegMem.bytes, MemOperand.bytes]

theorem moffs_more {p} {bs : List Byte} (h : decodeMoffs p bs = .more) : bs.length < 8 := by
  simp only [decodeMoffs, Decoded.andThen_eq_more] at h
  obtain h | ⟨a, r, ha, h⟩ := h
  · have := takeLe_more h; split at this <;> omega
  · simp at h

theorem operands_more {op b p x bs} (h : decodeOperands op b p x bs = .more) : bs.length < 10 := by
  cases op <;> simp only [decodeOperands, Decoded.andThen_eq_more] at h
  case push => simp at h
  case pop => simp at h
  case ret => simp at h
  case int => simp at h
  case iret => simp at h
  case movStore =>
    obtain h | ⟨a, r, ha, h⟩ := h
    · have := modrm_more h; omega
    · simp at h
  case movLoad =>
    obtain h | ⟨a, r, ha, h⟩ := h
    · have := modrm_more h; omega
    · simp at h
  case lea =>
    obtain h | ⟨a, r, ha, h⟩ := h
    · have := modrm_more h; omega
    · split at h <;> simp at h
  case moffsLoad =>
    obtain h | ⟨a, r, ha, h⟩ := h
    · have := moffs_more h; omega
    · simp at h
  case moffsStore =>
    obtain h | ⟨a, r, ha, h⟩ := h
    · have := moffs_more h; omega
    · simp at h
  case movImm =>
    split at h <;> simp only [Decoded.andThen_eq_more] at h
    · obtain h | ⟨a, r, ha, h⟩ := h
      · have := takeLe_more h; omega
      · simp at h
    · obtain h | ⟨a, r, ha, h⟩ := h
      · have := take32_more h; omega
      · simp at h
  case movRmImm =>
    obtain h | ⟨⟨r1, o⟩, r, ha, h⟩ := h
    · have := modrm_more h; omega
    · obtain h | ⟨a, r', _, h⟩ := h
      · have := take32_more h
        obtain ⟨reg, md, rfl, _⟩ := decodeModRM_ok ha
        have := length_rm_le o reg
        simp; omega
      · simp at h
  case call =>
      obtain h | ⟨a, r, ha, h⟩ := h
      · have := take32_more h; omega
      · simp at h
  case jmp32 =>
      obtain h | ⟨a, r, ha, h⟩ := h
      · have := take32_more h; omega
      · simp at h
  case jmp8 =>
      obtain h | ⟨a, r, ha, h⟩ := h
      · have := takeByte_more h; omega
      · simp at h

end Sys2Proof
end

