-- ==== Sys2Proof/Laws/State.lean ====
section
/-! SUPPORT. What each update of the state leaves and changes, field by field, and the register file's two laws. -/

namespace Sys2Proof.Machine

@[simp] theorem Regs.get_set_same (f : Regs) (r : Reg) (v : Word) : (f.set r v).get r = v := by cases r <;> rfl

theorem Regs.get_set_other (f : Regs) {r r' : Reg} (v : Word) (h : r' ≠ r) : (f.set r v).get r' = f.get r' := by
  cases r <;> cases r' <;> first | rfl | exact absurd rfl h

/-- The sixteen registers are independent of each other (10_state.md R24). -/
@[simp] theorem State.reg_setReg (s : State) (r r' : Reg) (v : Word) :
    (s.setReg r v).reg r' = if r' = r then v else s.reg r' := by
  unfold State.reg State.setReg
  split
  · subst_vars; exact Regs.get_set_same _ _ _
  · exact Regs.get_set_other _ _ ‹_›

@[simp] theorem State.setReg_rip (s : State) (r : Reg) (v : Word) : (s.setReg r v).rip = s.rip := rfl
@[simp] theorem State.setReg_fsbase (s : State) (r : Reg) (v : Word) : (s.setReg r v).fsbase = s.fsbase := rfl
@[simp] theorem State.setReg_gsbase (s : State) (r : Reg) (v : Word) : (s.setReg r v).gsbase = s.gsbase := rfl
@[simp] theorem State.setReg_sel (s : State) (r : Reg) (v : Word) : (s.setReg r v).sel = s.sel := rfl
@[simp] theorem State.setReg_csL (s : State) (r : Reg) (v : Word) : (s.setReg r v).csL = s.csL := rfl
@[simp] theorem State.setReg_csD (s : State) (r : Reg) (v : Word) : (s.setReg r v).csD = s.csD := rfl
@[simp] theorem State.setReg_ssB (s : State) (r : Reg) (v : Word) : (s.setReg r v).ssB = s.ssB := rfl
@[simp] theorem State.setReg_mode (s : State) (r : Reg) (v : Word) : (s.setReg r v).mode = s.mode := rfl
@[simp] theorem State.setReg_mem (s : State) (r : Reg) (v : Word) : (s.setReg r v).mem = s.mem := rfl
@[simp] theorem State.setReg_written (s : State) (r : Reg) (v : Word) : (s.setReg r v).written = s.written := rfl
@[simp] theorem State.setReg_wrote (s : State) (r : Reg) (v : Word) (a : Nat) : (s.setReg r v).wrote a = s.wrote a := rfl
@[simp] theorem State.setReg_status (s : State) (r : Reg) (v : Word) : (s.setReg r v).status = s.status := rfl
@[simp] theorem State.setReg_cfg (s : State) (r : Reg) (v : Word) : (s.setReg r v).cfg = s.cfg := rfl

@[simp] theorem State.setRip_reg (s : State) (v : Word) (r : Reg) : (s.setRip v).reg r = s.reg r := rfl
@[simp] theorem State.setRip_regs (s : State) (v : Word) : (s.setRip v).regs = s.regs := rfl
@[simp] theorem State.setRip_rip (s : State) (v : Word) : (s.setRip v).rip = v := rfl
@[simp] theorem State.setRip_fsbase (s : State) (v : Word) : (s.setRip v).fsbase = s.fsbase := rfl
@[simp] theorem State.setRip_gsbase (s : State) (v : Word) : (s.setRip v).gsbase = s.gsbase := rfl
@[simp] theorem State.setRip_sel (s : State) (v : Word) : (s.setRip v).sel = s.sel := rfl
@[simp] theorem State.setRip_csL (s : State) (v : Word) : (s.setRip v).csL = s.csL := rfl
@[simp] theorem State.setRip_csD (s : State) (v : Word) : (s.setRip v).csD = s.csD := rfl
@[simp] theorem State.setRip_ssB (s : State) (v : Word) : (s.setRip v).ssB = s.ssB := rfl
@[simp] theorem State.setRip_mode (s : State) (v : Word) : (s.setRip v).mode = s.mode := rfl
@[simp] theorem State.setRip_mem (s : State) (v : Word) : (s.setRip v).mem = s.mem := rfl
@[simp] theorem State.setRip_written (s : State) (v : Word) : (s.setRip v).written = s.written := rfl
@[simp] theorem State.setRip_wrote (s : State) (v : Word) (a : Nat) : (s.setRip v).wrote a = s.wrote a := rfl
@[simp] theorem State.setRip_status (s : State) (v : Word) : (s.setRip v).status = s.status := rfl
@[simp] theorem State.setRip_cfg (s : State) (v : Word) : (s.setRip v).cfg = s.cfg := rfl

@[simp] theorem State.reg_mem (s : State) (m : Memory) (r : Reg) : ({ s with mem := m } : State).reg r = s.reg r := rfl
@[simp] theorem State.reg_written (s : State) (w : List Region) (r : Reg) :
    ({ s with written := w } : State).reg r = s.reg r := rfl
@[simp] theorem State.reg_status (s : State) (u : Status) (r : Reg) :
    ({ s with status := u } : State).reg r = s.reg r := rfl

/-- A 32-bit result replaces the whole register, zero-extended (10_state.md R26). -/
@[simp] theorem State.reg_setRegSized (s : State) (n : OpSize) (r r' : Reg) (v : Word) :
    (s.setRegSized n r v).reg r' = if r' = r then opLow n v else s.reg r' := State.reg_setReg ..

@[simp] theorem State.setRegSized_rip (s : State) (n : OpSize) (r : Reg) (v : Word) :
    (s.setRegSized n r v).rip = s.rip := rfl
@[simp] theorem State.setRegSized_fsbase (s : State) (n : OpSize) (r : Reg) (v : Word) :
    (s.setRegSized n r v).fsbase = s.fsbase := rfl
@[simp] theorem State.setRegSized_gsbase (s : State) (n : OpSize) (r : Reg) (v : Word) :
    (s.setRegSized n r v).gsbase = s.gsbase := rfl
@[simp] theorem State.setRegSized_sel (s : State) (n : OpSize) (r : Reg) (v : Word) :
    (s.setRegSized n r v).sel = s.sel := rfl
@[simp] theorem State.setRegSized_csL (s : State) (n : OpSize) (r : Reg) (v : Word) :
    (s.setRegSized n r v).csL = s.csL := rfl
@[simp] theorem State.setRegSized_csD (s : State) (n : OpSize) (r : Reg) (v : Word) :
    (s.setRegSized n r v).csD = s.csD := rfl
@[simp] theorem State.setRegSized_ssB (s : State) (n : OpSize) (r : Reg) (v : Word) :
    (s.setRegSized n r v).ssB = s.ssB := rfl
@[simp] theorem State.setRegSized_mode (s : State) (n : OpSize) (r : Reg) (v : Word) :
    (s.setRegSized n r v).mode = s.mode := rfl
@[simp] theorem State.setRegSized_mem (s : State) (n : OpSize) (r : Reg) (v : Word) :
    (s.setRegSized n r v).mem = s.mem := rfl
@[simp] theorem State.setRegSized_written (s : State) (n : OpSize) (r : Reg) (v : Word) :
    (s.setRegSized n r v).written = s.written := rfl
@[simp] theorem State.setRegSized_wrote (s : State) (n : OpSize) (r : Reg) (v : Word) (a : Nat) :
    (s.setRegSized n r v).wrote a = s.wrote a := rfl
@[simp] theorem State.setRegSized_status (s : State) (n : OpSize) (r : Reg) (v : Word) :
    (s.setRegSized n r v).status = s.status := rfl
@[simp] theorem State.setRegSized_cfg (s : State) (n : OpSize) (r : Reg) (v : Word) :
    (s.setRegSized n r v).cfg = s.cfg := rfl

end Sys2Proof.Machine
end

