-- ==== Sys2Proof/Laws/Ops.lean ====
section
/-! SUPPORT. The checks of a reference and what a load, a store, a push and the end of an instruction can do, each said
once; later proofs cite these and unfold nothing. -/

namespace Sys2Proof.Machine

/-! ## Except -/

theorem bind_eq_ok {ε α β : Type} {x : Except ε α} {f : α → Except ε β} {b : β} :
    (x >>= f) = .ok b ↔ ∃ a, x = .ok a ∧ f a = .ok b := by
  cases x <;> simp [bind, Except.bind]

theorem bind_eq_error {ε α β : Type} {x : Except ε α} {f : α → Except ε β} {e : ε} :
    (x >>= f) = .error e ↔ x = .error e ∨ ∃ a, x = .ok a ∧ f a = .error e := by
  cases x <;> simp [bind, Except.bind]

/-! ## Checks -/

theorem byteOk_iff (c : Config) (la : Word) (k : Nat) :
    byteOk c la k = true ↔ la.toNat + k < 2 ^ 64 ∧ canonical c (la + BitVec.ofNat 64 k) = true := by
  simp [byteOk]

theorem allOk_iff (s : State) (la : Word) (n : Nat) :
    (List.range n).all (byteOk s.cfg la) = true ↔ CanonicalRef s la n := by
  simp [List.all_eq_true, byteOk_iff, CanonicalRef]

theorem allMapped_iff (s : State) (la : Word) (n : Nat) : allMapped s.cfg la n = true ↔ MappedRef s la n := by
  simp [allMapped, List.all_eq_true, MappedRef]

theorem touchesCode_eq_false_iff (s : State) (la : Word) (n : Nat) :
    touchesCode s.cfg la n = false ↔ OutsideCode s la n := by
  simp [touchesCode, List.any_eq_false, OutsideCode]

/-- `CheckedAddr` answers the linear address exactly on a canonical reference (20_memory.md R86). -/
theorem checkedAddr_eq (s : State) (seg : Seg) (ea : Word) (n : Nat) [Decidable (CanonicalRef s (linear s seg ea) n)] :
    checkedAddr s seg ea n =
      if CanonicalRef s (linear s seg ea) n then .ok (linear s seg ea) else .error (canonicalFault seg) := by
  unfold checkedAddr
  simp only [allOk_iff]

theorem checkedAddr_ok {s : State} {seg : Seg} {ea : Word} {n : Nat} (h : CanonicalRef s (linear s seg ea) n) :
    checkedAddr s seg ea n = .ok (linear s seg ea) := by
  classical rw [checkedAddr_eq, if_pos h]

theorem checkedAddr_error {s : State} {seg : Seg} {ea : Word} {n : Nat} (h : ¬ CanonicalRef s (linear s seg ea) n) :
    checkedAddr s seg ea n = .error (canonicalFault seg) := by
  classical rw [checkedAddr_eq, if_neg h]

/-! ## Loads -/

/-- A load of readable bytes answers their little-endian value. -/
theorem load_ok {s : State} {seg : Seg} {ea : Word} {n : Nat} (h : Readable s (linear s seg ea) n) :
    load s seg ea n = .ok (leWord (s.mem.readBytes (linear s seg ea).toNat n)) := by
  simp [load, checkedAddr_ok h.1, memRead, (allMapped_iff s _ n).2 h.2, bind, Except.bind]

theorem load_canonical_error {s : State} {seg : Seg} {ea : Word} {n : Nat}
    (h : ¬ CanonicalRef s (linear s seg ea) n) : load s seg ea n = .error (canonicalFault seg) := by
  simp [load, checkedAddr_error h, bind, Except.bind]

theorem load_mapped_error {s : State} {seg : Seg} {ea : Word} {n : Nat} (h : CanonicalRef s (linear s seg ea) n)
    (hm : ¬ MappedRef s (linear s seg ea) n) : load s seg ea n = .error .unmapped := by
  have hm' : allMapped s.cfg (linear s seg ea) n = false := by rw [← allMapped_iff] at hm; simpa using hm
  simp [load, checkedAddr_ok h, memRead, hm', bind, Except.bind]

/-- Everything a load can answer. -/
theorem load_cases (s : State) (seg : Seg) (ea : Word) (n : Nat) :
    (Readable s (linear s seg ea) n ∧ load s seg ea n = .ok (leWord (s.mem.readBytes (linear s seg ea).toNat n))) ∨
    (¬ CanonicalRef s (linear s seg ea) n ∧ load s seg ea n = .error (canonicalFault seg)) ∨
    (CanonicalRef s (linear s seg ea) n ∧ ¬ MappedRef s (linear s seg ea) n ∧ load s seg ea n = .error .unmapped) := by
  by_cases h : CanonicalRef s (linear s seg ea) n
  · by_cases hm : MappedRef s (linear s seg ea) n
    · exact .inl ⟨⟨h, hm⟩, load_ok ⟨h, hm⟩⟩
    · exact .inr (.inr ⟨h, hm, load_mapped_error h hm⟩)
  · exact .inr (.inl ⟨h, load_canonical_error h⟩)

/-! ## Stores -/

/-- The union grows by exactly the bytes added. -/
theorem inRegions_addRegion (rs : List Region) (a n b : Nat) :
    inRegions (addRegion rs a n) b = true ↔ inRegions rs b = true ∨ (a ≤ b ∧ b < a + n) := by
  unfold addRegion
  split
  · rename_i h
    refine ⟨.inl, fun hb => hb.elim id fun ⟨h1, h2⟩ => ?_⟩
    have := List.all_eq_true.1 h (b - a) (List.mem_range.2 (by omega))
    rwa [show a + (b - a) = b by omega] at this
  · simp [inRegions, or_comm]

/-- The state after `n` bytes of `v` are written at `la`. -/
abbrev stored (s : State) (la : Word) (n : Nat) (v : Word) : State :=
  { s with mem := s.mem.writeBytes la.toNat (leBytes n v), written := addRegion s.written la.toNat n }

@[simp] theorem reg_stored (s : State) (la : Word) (n : Nat) (v : Word) (r : Reg) : (stored s la n v).reg r = s.reg r := rfl

theorem sameBytes_of_eq {s t : State} (hm : t.mem = s.mem) (hw : t.written = s.written) : SameBytes s t :=
  fun a => ⟨by rw [hm], by rw [State.wrote, hw, State.wrote]⟩

theorem wrote_stored (s : State) (la : Word) (n : Nat) (v : Word) (a : Nat) :
    (stored s la n v).wrote a = true ↔ s.wrote a = true ∨ (la.toNat ≤ a ∧ a < la.toNat + n) :=
  inRegions_addRegion ..

theorem store_ok {s : State} {seg : Seg} {ea : Word} {n : Nat} (v : Word) (h : Writable s (linear s seg ea) n) :
    store s seg ea n v = .ok (stored s (linear s seg ea) n v) := by
  simp [store, checkedAddr_ok h.1.1, memWrite, (allMapped_iff s _ n).2 h.1.2, (touchesCode_eq_false_iff s _ n).2 h.2,
    bind, Except.bind, stored]

theorem store_canonical_error {s : State} {seg : Seg} {ea : Word} {n : Nat} (v : Word)
    (h : ¬ CanonicalRef s (linear s seg ea) n) : store s seg ea n v = .error (canonicalFault seg) := by
  simp [store, checkedAddr_error h, bind, Except.bind]

theorem store_mapped_error {s : State} {seg : Seg} {ea : Word} {n : Nat} (v : Word)
    (h : CanonicalRef s (linear s seg ea) n) (hm : ¬ MappedRef s (linear s seg ea) n) :
    store s seg ea n v = .error .unmapped := by
  have hm' : allMapped s.cfg (linear s seg ea) n = false := by rw [← allMapped_iff] at hm; simpa using hm
  simp [store, checkedAddr_ok h, memWrite, hm', bind, Except.bind]

theorem store_code_error {s : State} {seg : Seg} {ea : Word} {n : Nat} (v : Word) (h : Readable s (linear s seg ea) n)
    (hc : ¬ OutsideCode s (linear s seg ea) n) : store s seg ea n v = .error .codeWrite := by
  have hc' : touchesCode s.cfg (linear s seg ea) n = true := by
    rw [← touchesCode_eq_false_iff] at hc; simpa using hc
  simp [store, checkedAddr_ok h.1, memWrite, (allMapped_iff s _ n).2 h.2, hc', bind, Except.bind]

/-- Everything a store can answer. -/
theorem store_cases (s : State) (seg : Seg) (ea : Word) (n : Nat) (v : Word) :
    (Writable s (linear s seg ea) n ∧ store s seg ea n v = .ok (stored s (linear s seg ea) n v)) ∨
    (¬ CanonicalRef s (linear s seg ea) n ∧ store s seg ea n v = .error (canonicalFault seg)) ∨
    (CanonicalRef s (linear s seg ea) n ∧ ¬ MappedRef s (linear s seg ea) n ∧ store s seg ea n v = .error .unmapped) ∨
    (Readable s (linear s seg ea) n ∧ ¬ OutsideCode s (linear s seg ea) n ∧
      store s seg ea n v = .error .codeWrite) := by
  by_cases h : CanonicalRef s (linear s seg ea) n
  · by_cases hm : MappedRef s (linear s seg ea) n
    · by_cases hc : OutsideCode s (linear s seg ea) n
      · exact .inl ⟨⟨⟨h, hm⟩, hc⟩, store_ok v ⟨⟨h, hm⟩, hc⟩⟩
      · exact .inr (.inr (.inr ⟨⟨h, hm⟩, hc, store_code_error v ⟨h, hm⟩ hc⟩))
    · exact .inr (.inr (.inl ⟨h, hm, store_mapped_error v h hm⟩))
  · exact .inr (.inl ⟨h, store_canonical_error v h⟩)

/-- A canonical reference of at least one byte does not run past the address space. -/
theorem CanonicalRef.le {s : State} {la : Word} {n : Nat} (h : CanonicalRef s la n) : la.toNat + n ≤ 2 ^ 64 := by
  have hla := la.isLt
  cases n with
  | zero => omega
  | succ n => have := (h n (by omega)).1; omega

theorem wf_stored {s : State} {la : Word} {n : Nat} (v : Word) (h : Memory.wf s.mem = true) (hc : CanonicalRef s la n) :
    Memory.wf (stored s la n v).mem = true :=
  Memory.wf_writeBytes h (by simpa using hc.le)

theorem stored_outside (s : State) (la : Word) (n : Nat) (v : Word) : SameBytesOutside la n s (stored s la n v) :=
  fun a ha => ⟨Memory.read_writeBytes_outside (by simpa using ha), by
    rw [Bool.eq_iff_iff, wrote_stored]; exact or_iff_left ha⟩

theorem stored_holds {s : State} {la : Word} {n : Nat} (v : Word) (h : Memory.wf s.mem = true)
    (hc : CanonicalRef s la n) : HoldsBytes (stored s la n v) la n v := fun k hk => by
  have := Memory.read_writeBytes_inside (m := s.mem) (a := la.toNat) (k := k) (bs := leBytes n v) h
    (by simpa using hc.le) (by simpa using hk)
  rw [this, getElem_leBytes]; rfl

/-- A store of canonical bytes is a store as the statements say it. -/
theorem storesBytes_stored {s : State} {la : Word} {n : Nat} (v : Word) (h : Memory.wf s.mem = true)
    (hc : CanonicalRef s la n) : StoresBytes s (stored s la n v) la n v :=
  ⟨stored_holds v h hc, fun k hk => (wrote_stored ..).2 (.inr ⟨by omega, by omega⟩), stored_outside s la n v⟩

/-! ## Push, the top of the stack, the target check, the end of an instruction -/

theorem linear_ss (s : State) (ea : Word) : linear s .ss ea = ea := by simp [linear, segBase]

/-- Everything a push can answer (43_stack_and_control.md R261). -/
theorem push_cases (s : State) (v : Word) :
    (Writable s (pushSlot s) 8 ∧ push s v = .ok ((stored s (pushSlot s) 8 v).setReg .rsp (pushSlot s))) ∨
    (¬ CanonicalRef s (pushSlot s) 8 ∧ push s v = .error .ss) ∨
    (CanonicalRef s (pushSlot s) 8 ∧ ¬ MappedRef s (pushSlot s) 8 ∧ push s v = .error .unmapped) ∨
    (Readable s (pushSlot s) 8 ∧ ¬ OutsideCode s (pushSlot s) 8 ∧ push s v = .error .codeWrite) := by
  have h := store_cases s .ss (pushSlot s) 8 v
  rw [linear_ss] at h
  obtain ⟨h1, h2⟩ | ⟨h1, h2⟩ | ⟨h1, h3, h2⟩ | ⟨h1, h3, h2⟩ := h
  · exact .inl ⟨h1, by simp [push, h2, bind, Except.bind, pure, Except.pure]⟩
  · exact .inr (.inl ⟨h1, by simp [push, h2, bind, Except.bind, canonicalFault]⟩)
  · exact .inr (.inr (.inl ⟨h1, h3, by simp [push, h2, bind, Except.bind]⟩))
  · exact .inr (.inr (.inr ⟨h1, h3, by simp [push, h2, bind, Except.bind]⟩))

/-- Everything reading the top of the stack can answer (R262). -/
theorem top_cases (s : State) :
    (Readable s (s.reg .rsp) 8 ∧ top s = .ok (leWord (s.mem.readBytes (s.reg .rsp).toNat 8))) ∨
    (¬ CanonicalRef s (s.reg .rsp) 8 ∧ top s = .error .ss) ∨
    (CanonicalRef s (s.reg .rsp) 8 ∧ ¬ MappedRef s (s.reg .rsp) 8 ∧ top s = .error .unmapped) := by
  have h := load_cases s .ss (s.reg .rsp) 8
  rw [linear_ss] at h
  exact h

theorem checkTarget_cases (s : State) (t : Word) :
    (canonical s.cfg t = true ∧ checkTarget s t = .ok ()) ∨ (canonical s.cfg t = false ∧ checkTarget s t = .error .gp) := by
  unfold checkTarget
  cases canonical s.cfg t <;> simp

@[simp] theorem finish_ok (s t : State) : finish s (.ok t) = .next t := rfl
@[simp] theorem finish_error (s : State) (k : FaultKind) : finish s (.error k) = .next (Raised k s) := rfl

theorem raise_eq (k : FaultKind) (s : State) : raise k s = .next (Raised k s) := rfl

/-- The end of an instruction answers a next state: the new one, or the exception with nothing else changed. -/
theorem finish_next {s t : State} {r : Except FaultKind State} (h : finish s r = .next t) :
    r = .ok t ∨ ∃ k, r = .error k ∧ t = Raised k s := by
  cases r with
  | ok u => exact .inl (by simpa using h)
  | error k => exact .inr ⟨k, rfl, by simpa using h.symm⟩

end Sys2Proof.Machine
end

