-- ==== Sys2Proof/Laws/Exec.lean ====
section
/-! SUPPORT. What the shared meanings of the instructions answer, and the inversion of `exec`: all that any instruction
can do, said once. -/

namespace Sys2Proof.Machine

/-! ## The r/m operand and the memory offset -/

theorem linear_mem (s : State) (nx : Word) (p : Prefixes) (m : MemOperand) :
    linear s (memSeg p m) (effAddr s nx p.hasAddr32 m) = memAddr s nx p m := rfl

theorem movToRm_reg (s : State) (nx : Word) (n : OpSize) (d : Reg) (v : Word) :
    movToRm s nx n (.reg d) v = .next ((s.setRegSized n d v).setRip nx) := rfl

theorem movToRm_mem {s : State} {nx : Word} {n : OpSize} {p : Prefixes} {m : MemOperand} (v : Word)
    (h : Writable s (memAddr s nx p m) (opBytes n)) :
    movToRm s nx n (.mem p m) v = .next ((stored s (memAddr s nx p m) (opBytes n) v).setRip nx) := by
  rw [movToRm, writeRm, store_ok v h]; rfl

/-- Everything a MOV to memory can answer. -/
theorem movToRm_mem_cases (s : State) (nx : Word) (n : OpSize) (p : Prefixes) (m : MemOperand) (v : Word) :
    (Writable s (memAddr s nx p m) (opBytes n) ∧
      movToRm s nx n (.mem p m) v = .next ((stored s (memAddr s nx p m) (opBytes n) v).setRip nx)) ∨
    (¬ CanonicalRef s (memAddr s nx p m) (opBytes n) ∧
      movToRm s nx n (.mem p m) v = .next (Raised (canonicalFault (memSeg p m)) s)) ∨
    (CanonicalRef s (memAddr s nx p m) (opBytes n) ∧ ¬ MappedRef s (memAddr s nx p m) (opBytes n) ∧
      movToRm s nx n (.mem p m) v = .next (Raised .unmapped s)) ∨
    (Readable s (memAddr s nx p m) (opBytes n) ∧ ¬ OutsideCode s (memAddr s nx p m) (opBytes n) ∧
      movToRm s nx n (.mem p m) v = .next (Raised .codeWrite s)) := by
  have h := store_cases s (memSeg p m) (effAddr s nx p.hasAddr32 m) (opBytes n) v
  rw [linear_mem] at h
  obtain ⟨h1, h2⟩ | ⟨h1, h2⟩ | ⟨h1, h3, h2⟩ | ⟨h1, h3, h2⟩ := h
  · exact .inl ⟨h1, by rw [movToRm, writeRm, h2]; rfl⟩
  · exact .inr (.inl ⟨h1, by rw [movToRm, writeRm, h2]; rfl⟩)
  · exact .inr (.inr (.inl ⟨h1, h3, by rw [movToRm, writeRm, h2]; rfl⟩))
  · exact .inr (.inr (.inr ⟨h1, h3, by rw [movToRm, writeRm, h2]; rfl⟩))

theorem movFromRm_reg (s : State) (nx : Word) (n : OpSize) (d r : Reg) :
    movFromRm s nx n d (.reg r) = .next ((s.setRegSized n d (opLow n (s.reg r))).setRip nx) := rfl

/-- The value a load of `n` bytes gives. -/
abbrev loaded (s : State) (la : Word) (n : Nat) : Word := leWord (s.mem.readBytes la.toNat n)

theorem movFromRm_mem {s : State} {nx : Word} {n : OpSize} {p : Prefixes} {m : MemOperand} (d : Reg)
    (h : Readable s (memAddr s nx p m) (opBytes n)) :
    movFromRm s nx n d (.mem p m) =
      .next ((s.setRegSized n d (loaded s (memAddr s nx p m) (opBytes n))).setRip nx) := by
  rw [movFromRm, readRm, load_ok h]; rfl

/-- Everything a MOV from memory can answer. -/
theorem movFromRm_mem_cases (s : State) (nx : Word) (n : OpSize) (d : Reg) (p : Prefixes) (m : MemOperand) :
    (Readable s (memAddr s nx p m) (opBytes n) ∧
      movFromRm s nx n d (.mem p m) =
        .next ((s.setRegSized n d (loaded s (memAddr s nx p m) (opBytes n))).setRip nx)) ∨
    (¬ CanonicalRef s (memAddr s nx p m) (opBytes n) ∧
      movFromRm s nx n d (.mem p m) = .next (Raised (canonicalFault (memSeg p m)) s)) ∨
    (CanonicalRef s (memAddr s nx p m) (opBytes n) ∧ ¬ MappedRef s (memAddr s nx p m) (opBytes n) ∧
      movFromRm s nx n d (.mem p m) = .next (Raised .unmapped s)) := by
  have h := load_cases s (memSeg p m) (effAddr s nx p.hasAddr32 m) (opBytes n)
  rw [linear_mem] at h
  obtain ⟨h1, h2⟩ | ⟨h1, h2⟩ | ⟨h1, h3, h2⟩ := h
  · exact .inl ⟨h1, by rw [movFromRm, readRm, h2]; rfl⟩
  · exact .inr (.inl ⟨h1, by rw [movFromRm, readRm, h2]; rfl⟩)
  · exact .inr (.inr ⟨h1, h3, by rw [movFromRm, readRm, h2]; rfl⟩)

/-- Everything a MOV from a memory offset can answer. -/
theorem movFromMoffs_cases (s : State) (nx : Word) (n : OpSize) (o : Moffs) :
    (Readable s (moffsLinear s o) (opBytes n) ∧
      movFromMoffs s nx n o = .next ((s.setRegSized n .rax (loaded s (moffsLinear s o) (opBytes n))).setRip nx)) ∨
    (¬ CanonicalRef s (moffsLinear s o) (opBytes n) ∧
      movFromMoffs s nx n o = .next (Raised (canonicalFault (moffsSeg o)) s)) ∨
    (CanonicalRef s (moffsLinear s o) (opBytes n) ∧ ¬ MappedRef s (moffsLinear s o) (opBytes n) ∧
      movFromMoffs s nx n o = .next (Raised .unmapped s)) := by
  obtain ⟨h1, h2⟩ | ⟨h1, h2⟩ | ⟨h1, h3, h2⟩ := load_cases s (moffsSeg o) (moffsAddr o) (opBytes n)
  · exact .inl ⟨h1, by rw [movFromMoffs, readMoffs, h2]; rfl⟩
  · exact .inr (.inl ⟨h1, by rw [movFromMoffs, readMoffs, h2]; rfl⟩)
  · exact .inr (.inr ⟨h1, h3, by rw [movFromMoffs, readMoffs, h2]; rfl⟩)

/-- Everything a MOV to a memory offset can answer. -/
theorem movToMoffs_cases (s : State) (nx : Word) (n : OpSize) (o : Moffs) :
    (Writable s (moffsLinear s o) (opBytes n) ∧
      movToMoffs s nx n o = .next ((stored s (moffsLinear s o) (opBytes n) (s.reg .rax)).setRip nx)) ∨
    (¬ CanonicalRef s (moffsLinear s o) (opBytes n) ∧
      movToMoffs s nx n o = .next (Raised (canonicalFault (moffsSeg o)) s)) ∨
    (CanonicalRef s (moffsLinear s o) (opBytes n) ∧ ¬ MappedRef s (moffsLinear s o) (opBytes n) ∧
      movToMoffs s nx n o = .next (Raised .unmapped s)) ∨
    (Readable s (moffsLinear s o) (opBytes n) ∧ ¬ OutsideCode s (moffsLinear s o) (opBytes n) ∧
      movToMoffs s nx n o = .next (Raised .codeWrite s)) := by
  obtain ⟨h1, h2⟩ | ⟨h1, h2⟩ | ⟨h1, h3, h2⟩ | ⟨h1, h3, h2⟩ :=
    store_cases s (moffsSeg o) (moffsAddr o) (opBytes n) (s.reg .rax)
  · exact .inl ⟨h1, by rw [movToMoffs, writeMoffs, h2]; rfl⟩
  · exact .inr (.inl ⟨h1, by rw [movToMoffs, writeMoffs, h2]; rfl⟩)
  · exact .inr (.inr (.inl ⟨h1, h3, by rw [movToMoffs, writeMoffs, h2]; rfl⟩))
  · exact .inr (.inr (.inr ⟨h1, h3, by rw [movToMoffs, writeMoffs, h2]; rfl⟩))

/-! ## Stack and transfers -/

/-- Everything PUSH can answer. -/
theorem execPushR64_cases (rex : Bool) (r : Reg) (s : State) :
    (Writable s (pushSlot s) 8 ∧
      execPushR64 rex r s =
        .next (((stored s (pushSlot s) 8 (s.reg r)).setReg .rsp (pushSlot s)).setRip (nextRip (.pushR64 rex r) s))) ∨
    (¬ CanonicalRef s (pushSlot s) 8 ∧ execPushR64 rex r s = .next (Raised .ss s)) ∨
    (CanonicalRef s (pushSlot s) 8 ∧ ¬ MappedRef s (pushSlot s) 8 ∧
      execPushR64 rex r s = .next (Raised .unmapped s)) ∨
    (Readable s (pushSlot s) 8 ∧ ¬ OutsideCode s (pushSlot s) 8 ∧
      execPushR64 rex r s = .next (Raised .codeWrite s)) := by
  obtain ⟨h1, h2⟩ | ⟨h1, h2⟩ | ⟨h1, h3, h2⟩ | ⟨h1, h3, h2⟩ := push_cases s (s.reg r)
  · exact .inl ⟨h1, by rw [execPushR64, h2]; rfl⟩
  · exact .inr (.inl ⟨h1, by rw [execPushR64, h2]; rfl⟩)
  · exact .inr (.inr (.inl ⟨h1, h3, by rw [execPushR64, h2]; rfl⟩))
  · exact .inr (.inr (.inr ⟨h1, h3, by rw [execPushR64, h2]; rfl⟩))

/-- Everything POP can answer. -/
theorem execPopR64_cases (rex : Bool) (d : Reg) (s : State) :
    (Readable s (s.reg .rsp) 8 ∧
      execPopR64 rex d s =
        .next (((dropTop s).setReg d (loaded s (s.reg .rsp) 8)).setRip (nextRip (.popR64 rex d) s))) ∨
    (¬ CanonicalRef s (s.reg .rsp) 8 ∧ execPopR64 rex d s = .next (Raised .ss s)) ∨
    (CanonicalRef s (s.reg .rsp) 8 ∧ ¬ MappedRef s (s.reg .rsp) 8 ∧
      execPopR64 rex d s = .next (Raised .unmapped s)) := by
  obtain ⟨h1, h2⟩ | ⟨h1, h2⟩ | ⟨h1, h3, h2⟩ := top_cases s
  · exact .inl ⟨h1, by rw [execPopR64, h2]; rfl⟩
  · exact .inr (.inl ⟨h1, by rw [execPopR64, h2]; rfl⟩)
  · exact .inr (.inr ⟨h1, h3, by rw [execPopR64, h2]; rfl⟩)

/-- Everything a jump can answer (43_stack_and_control.md R270). -/
theorem jumpTo_cases (s : State) (target : Word) :
    (canonical s.cfg target = true ∧ jumpTo s target = .next (s.setRip target)) ∨
    (canonical s.cfg target = false ∧ jumpTo s target = .next (Raised .gp s)) := by
  obtain ⟨h1, h2⟩ | ⟨h1, h2⟩ := checkTarget_cases s target
  · exact .inl ⟨h1, by rw [jumpTo, h2]; rfl⟩
  · exact .inr ⟨h1, by rw [jumpTo, h2]; rfl⟩

/-- The target of CALL. -/
abbrev callTarget (rel : BitVec 32) (s : State) : Word := relTarget (nextRip (.callRel32 rel) s) (sext32 rel)

/-- Everything CALL can answer. -/
theorem execCallRel32_cases (rel : BitVec 32) (s : State) :
    (canonical s.cfg (callTarget rel s) = false ∧ execCallRel32 rel s = .next (Raised .gp s)) ∨
    (canonical s.cfg (callTarget rel s) = true ∧ Writable s (pushSlot s) 8 ∧
      execCallRel32 rel s =
        .next (((stored s (pushSlot s) 8 (nextRip (.callRel32 rel) s)).setReg .rsp (pushSlot s)).setRip
          (callTarget rel s))) ∨
    (canonical s.cfg (callTarget rel s) = true ∧ ¬ CanonicalRef s (pushSlot s) 8 ∧
      execCallRel32 rel s = .next (Raised .ss s)) ∨
    (canonical s.cfg (callTarget rel s) = true ∧ CanonicalRef s (pushSlot s) 8 ∧ ¬ MappedRef s (pushSlot s) 8 ∧
      execCallRel32 rel s = .next (Raised .unmapped s)) ∨
    (canonical s.cfg (callTarget rel s) = true ∧ Readable s (pushSlot s) 8 ∧ ¬ OutsideCode s (pushSlot s) 8 ∧
      execCallRel32 rel s = .next (Raised .codeWrite s)) := by
  obtain ⟨h1, h2⟩ | ⟨h1, h2⟩ := checkTarget_cases s (callTarget rel s)
  · refine .inr ?_
    obtain ⟨h3, h4⟩ | ⟨h3, h4⟩ | ⟨h3, h5, h4⟩ | ⟨h3, h5, h4⟩ := push_cases s (nextRip (.callRel32 rel) s)
    · exact .inl ⟨h1, h3, by simp only [execCallRel32, h2, h4]; rfl⟩
    · exact .inr (.inl ⟨h1, h3, by simp only [execCallRel32, h2, h4]; rfl⟩)
    · exact .inr (.inr (.inl ⟨h1, h3, h5, by simp only [execCallRel32, h2, h4]; rfl⟩))
    · exact .inr (.inr (.inr ⟨h1, h3, h5, by simp only [execCallRel32, h2, h4]; rfl⟩))
  · exact .inl ⟨h1, by simp only [execCallRel32, h2]; rfl⟩

/-- Everything RET can answer. -/
theorem execRet_cases (s : State) :
    (¬ CanonicalRef s (s.reg .rsp) 8 ∧ execRet s = .next (Raised .ss s)) ∨
    (CanonicalRef s (s.reg .rsp) 8 ∧ ¬ MappedRef s (s.reg .rsp) 8 ∧ execRet s = .next (Raised .unmapped s)) ∨
    (Readable s (s.reg .rsp) 8 ∧ canonical s.cfg (loaded s (s.reg .rsp) 8) = true ∧
      execRet s = .next ((dropTop s).setRip (loaded s (s.reg .rsp) 8))) ∨
    (Readable s (s.reg .rsp) 8 ∧ canonical s.cfg (loaded s (s.reg .rsp) 8) = false ∧
      execRet s = .next (Raised .gp s)) := by
  obtain ⟨h1, h2⟩ | ⟨h1, h2⟩ | ⟨h1, h3, h2⟩ := top_cases s
  · refine .inr (.inr ?_)
    obtain ⟨h3, h4⟩ | ⟨h3, h4⟩ := checkTarget_cases s (loaded s (s.reg .rsp) 8)
    · exact .inl ⟨h1, h3, by simp only [execRet, h2, bind, Except.bind, h4]; rfl⟩
    · exact .inr ⟨h1, h3, by simp only [execRet, h2, bind, Except.bind, h4]; rfl⟩
  · exact .inl ⟨h1, by rw [execRet, h2]; rfl⟩
  · exact .inr (.inl ⟨h1, h3, by rw [execRet, h2]; rfl⟩)

/-! ## Reading back -/

/-- Byte `k` of a loaded value is the byte of memory at that offset. -/
theorem byteOf_loaded (s : State) (la : Word) {n k : Nat} (hk : k < n) (h8 : k < 8) :
    byteOf (loaded s la n) k = s.mem.read (la.toNat + k) := by
  rw [byteOf, loaded, extract_leWord _ _ h8, List.getD_eq_getElem _ _ (by simpa using hk), Memory.getElem_readBytes]

theorem loaded_lt (s : State) (la : Word) (n : Nat) : (loaded s la n).toNat < 2 ^ (8 * n) := by
  simpa using leWord_lt (s.mem.readBytes la.toNat n)

/-- Eight bytes that hold a value load as that value. -/
theorem loaded_of_holds {s : State} {la v : Word} (h : HoldsBytes s la 8 v) : loaded s la 8 = v := by
  apply eq_of_bytes
  intro k hk
  have := byteOf_loaded s la hk hk
  rw [byteOf] at this
  rw [this, h k hk]; rfl

/-! ## What an instruction may raise (60_exceptions.md R316) -/

theorem canonicalFault_eq (seg : Seg) : canonicalFault seg = if seg = .ss then .ss else .gp := by cases seg <;> rfl

theorem mayRaise_unmapped (i : Instr) (s : State) : mayRaise i s .unmapped = (dataRef i s).isSome := rfl

theorem mayRaise_codeWrite (i : Instr) (s : State) : mayRaise i s .codeWrite = (dataRef i s).any (·.isStore) := rfl

theorem mayRaise_ss (i : Instr) (s : State) : mayRaise i s .ss = (dataRef i s).any (fun d => d.seg == .ss) := rfl

theorem mayRaise_gp (i : Instr) (s : State) :
    mayRaise i s .gp = (isTransfer i || (dataRef i s).any (fun d => d.seg != .ss)) := rfl

theorem isTransfer_of_target {i : Instr} {s : State} {target : Word} (h : computedTarget i s = some target) :
    isTransfer i = true := by
  cases i <;> first | rfl | cases h

/-! ## The inversion of `exec` -/

/-- What a completed instruction leaves: the system state and the status are as before, and memory is as before or is
the one store of the instruction. -/
structure Effect (i : Instr) (s t : State) : Prop where
  system : SameSystem s t
  status : t.status = s.status
  mem : (t.mem = s.mem ∧ t.written = s.written) ∨ ∃ d v, dataRef i s = some d ∧ d.isStore = true ∧ Writable s d.la d.size ∧
    t.mem = (stored s d.la d.size v).mem ∧ t.written = (stored s d.la d.size v).written

theorem sameSystem_refl (s : State) : SameSystem s s := ⟨rfl, rfl, rfl, rfl, rfl, rfl, rfl, rfl⟩

theorem effect_regs {i : Instr} {s t : State} (h : SameSystem s t) (h' : t.status = s.status) (hm : t.mem = s.mem)
    (hw : t.written = s.written) : Effect i s t := ⟨h, h', .inl ⟨hm, hw⟩⟩

theorem movToRm_next {i : Instr} {s t : State} {nx : Word} {n : OpSize} {o : RegMem} {v : Word}
    (hd : dataRef i s = rmRef s nx (opBytes n) true o) (h : movToRm s nx n o v = .next t) :
    Effect i s t ∨ ∃ k, t = Raised k s ∧ ∃ d, dataRef i s = some d ∧
      (k = .unmapped ∨ k = .codeWrite ∧ d.isStore = true ∨ k = canonicalFault d.seg) := by
  cases o with
  | reg r =>
    rw [movToRm_reg] at h
    cases h
    exact .inl (effect_regs (sameSystem_refl s) rfl rfl rfl)
  | mem p m =>
    obtain ⟨h1, h2⟩ | ⟨h1, h2⟩ | ⟨h1, h3, h2⟩ | ⟨h1, h3, h2⟩ := movToRm_mem_cases s nx n p m v <;> rw [h2] at h <;>
      cases h
    · exact .inl ⟨sameSystem_refl s, rfl, .inr ⟨_, v, hd, rfl, h1, rfl, rfl⟩⟩
    · exact .inr ⟨_, rfl, _, hd, .inr (.inr rfl)⟩
    · exact .inr ⟨_, rfl, _, hd, .inl rfl⟩
    · exact .inr ⟨_, rfl, _, hd, .inr (.inl ⟨rfl, rfl⟩)⟩

theorem movFromRm_next {i : Instr} {s t : State} {nx : Word} {n : OpSize} {d : Reg} {o : RegMem}
    (hd : dataRef i s = rmRef s nx (opBytes n) false o) (h : movFromRm s nx n d o = .next t) :
    Effect i s t ∨ ∃ k, t = Raised k s ∧ ∃ d, dataRef i s = some d ∧
      (k = .unmapped ∨ k = .codeWrite ∧ d.isStore = true ∨ k = canonicalFault d.seg) := by
  cases o with
  | reg r =>
    rw [movFromRm_reg] at h
    cases h
    exact .inl (effect_regs (sameSystem_refl s) rfl rfl rfl)
  | mem p m =>
    obtain ⟨h1, h2⟩ | ⟨h1, h2⟩ | ⟨h1, h3, h2⟩ := movFromRm_mem_cases s nx n d p m <;> rw [h2] at h <;> cases h
    · exact .inl (effect_regs (sameSystem_refl s) rfl rfl rfl)
    · exact .inr ⟨_, rfl, _, hd, .inr (.inr rfl)⟩
    · exact .inr ⟨_, rfl, _, hd, .inl rfl⟩

theorem movFromMoffs_next {i : Instr} {s t : State} {nx : Word} {n : OpSize} {o : Moffs}
    (hd : dataRef i s = some ⟨moffsSeg o, moffsLinear s o, opBytes n, false⟩) (h : movFromMoffs s nx n o = .next t) :
    Effect i s t ∨ ∃ k, t = Raised k s ∧ ∃ d, dataRef i s = some d ∧
      (k = .unmapped ∨ k = .codeWrite ∧ d.isStore = true ∨ k = canonicalFault d.seg) := by
  obtain ⟨h1, h2⟩ | ⟨h1, h2⟩ | ⟨h1, h3, h2⟩ := movFromMoffs_cases s nx n o <;> rw [h2] at h <;> cases h
  · exact .inl (effect_regs (sameSystem_refl s) rfl rfl rfl)
  · exact .inr ⟨_, rfl, _, hd, .inr (.inr rfl)⟩
  · exact .inr ⟨_, rfl, _, hd, .inl rfl⟩

theorem movToMoffs_next {i : Instr} {s t : State} {nx : Word} {n : OpSize} {o : Moffs}
    (hd : dataRef i s = some ⟨moffsSeg o, moffsLinear s o, opBytes n, true⟩) (h : movToMoffs s nx n o = .next t) :
    Effect i s t ∨ ∃ k, t = Raised k s ∧ ∃ d, dataRef i s = some d ∧
      (k = .unmapped ∨ k = .codeWrite ∧ d.isStore = true ∨ k = canonicalFault d.seg) := by
  obtain ⟨h1, h2⟩ | ⟨h1, h2⟩ | ⟨h1, h3, h2⟩ | ⟨h1, h3, h2⟩ := movToMoffs_cases s nx n o <;> rw [h2] at h <;> cases h
  · exact .inl ⟨sameSystem_refl s, rfl, .inr ⟨_, _, hd, rfl, h1, rfl, rfl⟩⟩
  · exact .inr ⟨_, rfl, _, hd, .inr (.inr rfl)⟩
  · exact .inr ⟨_, rfl, _, hd, .inl rfl⟩
  · exact .inr ⟨_, rfl, _, hd, .inr (.inl ⟨rfl, rfl⟩)⟩

/-- An instruction that answers a next state has completed, or has raised a kind its data reference or its target
allows; nothing else happens. -/
theorem exec_next {i : Instr} {s t : State} (h : exec i s = .next t) :
    Effect i s t ∨ ∃ k, t = Raised k s ∧
      ((∃ d, dataRef i s = some d ∧
          (k = .unmapped ∨ k = .codeWrite ∧ d.isStore = true ∨ k = canonicalFault d.seg)) ∨
        (k = .gp ∧ (i = .ret ∨ ∃ target, computedTarget i s = some target ∧ canonical s.cfg target = false))) := by
  have lift (x : Effect i s t ∨ ∃ k, t = Raised k s ∧ ∃ d, dataRef i s = some d ∧
      (k = .unmapped ∨ k = .codeWrite ∧ d.isStore = true ∨ k = canonicalFault d.seg)) :
      Effect i s t ∨ ∃ k, t = Raised k s ∧
        ((∃ d, dataRef i s = some d ∧
            (k = .unmapped ∨ k = .codeWrite ∧ d.isStore = true ∨ k = canonicalFault d.seg)) ∨
          (k = .gp ∧ (i = .ret ∨ ∃ target, computedTarget i s = some target ∧ canonical s.cfg target = false))) :=
    x.imp id fun ⟨k, e, hd⟩ => ⟨k, e, .inl hd⟩
  cases i with
  | movRm32R32 rex o r => exact lift (movToRm_next rfl h)
  | movRm64R64 o r => exact lift (movToRm_next rfl h)
  | movRm32Imm32 rex o v => exact lift (movToRm_next rfl h)
  | movRm64Imm32 o v => exact lift (movToRm_next rfl h)
  | movR32Rm32 rex r o => exact lift (movFromRm_next rfl h)
  | movR64Rm64 r o => exact lift (movFromRm_next rfl h)
  | movEaxMoffs rex o => exact lift (movFromMoffs_next rfl h)
  | movRaxMoffs o => exact lift (movFromMoffs_next rfl h)
  | movMoffsEax rex o => exact lift (movToMoffs_next rfl h)
  | movMoffsRax o => exact lift (movToMoffs_next rfl h)
  | leaR32M rex a d m => cases h; exact .inl (effect_regs (sameSystem_refl s) rfl rfl rfl)
  | leaR64M a d m => cases h; exact .inl (effect_regs (sameSystem_refl s) rfl rfl rfl)
  | movR64Imm64 d v => cases h; exact .inl (effect_regs (sameSystem_refl s) rfl rfl rfl)
  | movR32Imm32 rex d v => cases h; exact .inl (effect_regs (sameSystem_refl s) rfl rfl rfl)
  | intImm8 => cases h
  | iret => cases h
  | pushR64 rex r =>
    simp only [exec] at h
    obtain ⟨h1, h2⟩ | ⟨h1, h2⟩ | ⟨h1, h3, h2⟩ | ⟨h1, h3, h2⟩ := execPushR64_cases rex r s <;> rw [h2] at h <;> cases h
    · exact .inl ⟨sameSystem_refl s, rfl, .inr ⟨_, _, rfl, rfl, h1, rfl, rfl⟩⟩
    · exact .inr ⟨_, rfl, .inl ⟨_, rfl, .inr (.inr rfl)⟩⟩
    · exact .inr ⟨_, rfl, .inl ⟨_, rfl, .inl rfl⟩⟩
    · exact .inr ⟨_, rfl, .inl ⟨_, rfl, .inr (.inl ⟨rfl, rfl⟩)⟩⟩
  | popR64 rex d =>
    simp only [exec] at h
    obtain ⟨h1, h2⟩ | ⟨h1, h2⟩ | ⟨h1, h3, h2⟩ := execPopR64_cases rex d s <;> rw [h2] at h <;> cases h
    · exact .inl (effect_regs (sameSystem_refl s) rfl rfl rfl)
    · exact .inr ⟨_, rfl, .inl ⟨_, rfl, .inr (.inr rfl)⟩⟩
    · exact .inr ⟨_, rfl, .inl ⟨_, rfl, .inl rfl⟩⟩
  | jmpRel8 rel =>
    simp only [exec, execJmpRel8] at h
    obtain ⟨h1, h2⟩ | ⟨h1, h2⟩ := jumpTo_cases s (relTarget (nextRip (.jmpRel8 rel) s) (sext8 rel)) <;> rw [h2] at h <;>
      cases h
    · exact .inl (effect_regs (sameSystem_refl s) rfl rfl rfl)
    · exact .inr ⟨_, rfl, .inr ⟨rfl, .inr ⟨_, rfl, h1⟩⟩⟩
  | jmpRel32 rel =>
    simp only [exec, execJmpRel32] at h
    obtain ⟨h1, h2⟩ | ⟨h1, h2⟩ := jumpTo_cases s (relTarget (nextRip (.jmpRel32 rel) s) (sext32 rel)) <;>
      rw [h2] at h <;> cases h
    · exact .inl (effect_regs (sameSystem_refl s) rfl rfl rfl)
    · exact .inr ⟨_, rfl, .inr ⟨rfl, .inr ⟨_, rfl, h1⟩⟩⟩
  | callRel32 rel =>
    simp only [exec] at h
    obtain ⟨h1, h2⟩ | ⟨h1, h3, h2⟩ | ⟨h1, h3, h2⟩ | ⟨h1, h3, h4, h2⟩ | ⟨h1, h3, h4, h2⟩ := execCallRel32_cases rel s <;>
      rw [h2] at h <;> cases h
    · exact .inr ⟨_, rfl, .inr ⟨rfl, .inr ⟨_, rfl, h1⟩⟩⟩
    · exact .inl ⟨sameSystem_refl s, rfl, .inr ⟨_, _, rfl, rfl, h3, rfl, rfl⟩⟩
    · exact .inr ⟨_, rfl, .inl ⟨_, rfl, .inr (.inr rfl)⟩⟩
    · exact .inr ⟨_, rfl, .inl ⟨_, rfl, .inl rfl⟩⟩
    · exact .inr ⟨_, rfl, .inl ⟨_, rfl, .inr (.inl ⟨rfl, rfl⟩)⟩⟩
  | ret =>
    simp only [exec] at h
    obtain ⟨h1, h2⟩ | ⟨h1, h3, h2⟩ | ⟨h1, h3, h2⟩ | ⟨h1, h3, h2⟩ := execRet_cases s <;> rw [h2] at h <;> cases h
    · exact .inr ⟨_, rfl, .inl ⟨_, rfl, .inr (.inr rfl)⟩⟩
    · exact .inr ⟨_, rfl, .inl ⟨_, rfl, .inl rfl⟩⟩
    · exact .inl (effect_regs (sameSystem_refl s) rfl rfl rfl)
    · exact .inr ⟨_, rfl, .inr ⟨rfl, .inl rfl⟩⟩

end Sys2Proof.Machine
end

