-- ==== Sys2Proof/Laws/PerInstr.lean ====
section
/-! SUPPORT. Statements made instruction by instruction: the encoder lays out `L` bytes (30_encoding.md R129). -/

namespace Sys2Proof.Laws.EncodeLength

open Sys2Proof

/-- The encoding has the length from which `next` is computed. -/
def Statement (i : Instr) : Prop := (encode i).length = i.length

@[simp] theorem length_rexBytes (rex : Bool) (x : Rex) : (rexBytes rex x).length = rex.toNat := by cases rex <;> rfl

@[simp] theorem length_prefixes (p : Prefixes) : p.bytes.length = p.count := by cases p <;> rfl

@[simp] theorem length_mem (m : MemOperand) (reg : BitVec 3) : (m.bytes reg).length = m.size := by
  cases m with
  | ripRel d => simp [MemOperand.bytes, MemOperand.size]
  | base b d => cases d <;> simp [MemOperand.bytes, MemOperand.size, Disp.bytes, Disp.size]
  | sib b i sc d => cases d <;> simp [MemOperand.bytes, MemOperand.size, Disp.bytes, Disp.size]
  | sibNoBase i sc d => simp [MemOperand.bytes, MemOperand.size]

@[simp] theorem length_rm (o : RegMem) (reg : BitVec 3) : (o.bytes reg).length = o.size := by
  cases o with
  | reg r => rfl
  | mem p m => exact length_mem m reg

@[simp] theorem length_prefixBytes (o : RegMem) : o.prefixBytes.length = o.prefixCount := by
  cases o with
  | reg r => rfl
  | mem p m => exact length_prefixes p

@[simp] theorem length_addrBytes (a : Bool) : (addrBytes a).length = a.toNat := by cases a <;> rfl

@[simp] theorem length_offset (o : Moffs) : o.offsetBytes.length = if o.pre.hasAddr32 then 4 else 8 := by
  simp [Moffs.offsetBytes]

theorem pushR64 (rex : Bool) (src : Reg) : Statement (.pushR64 rex src) := by
  simp [Statement, encode, Instr.length]
  try omega

theorem popR64 (rex : Bool) (dst : Reg) : Statement (.popR64 rex dst) := by
  simp [Statement, encode, Instr.length]
  try omega

theorem movRm32R32 (rex : Bool) (dst : RegMem) (src : Reg) : Statement (.movRm32R32 rex dst src) := by
  simp [Statement, encode, Instr.length]
  try omega

theorem movRm64R64 (dst : RegMem) (src : Reg) : Statement (.movRm64R64 dst src) := by
  simp [Statement, encode, Instr.length]
  try omega

theorem movR32Rm32 (rex : Bool) (dst : Reg) (src : RegMem) : Statement (.movR32Rm32 rex dst src) := by
  simp [Statement, encode, Instr.length]
  try omega

theorem movR64Rm64 (dst : Reg) (src : RegMem) : Statement (.movR64Rm64 dst src) := by
  simp [Statement, encode, Instr.length]
  try omega

theorem leaR32M (rex addr32 : Bool) (dst : Reg) (src : MemOperand) : Statement (.leaR32M rex addr32 dst src) := by
  simp [Statement, encode, Instr.length]
  try omega

theorem leaR64M (addr32 : Bool) (dst : Reg) (src : MemOperand) : Statement (.leaR64M addr32 dst src) := by
  simp [Statement, encode, Instr.length]
  try omega

theorem movEaxMoffs (rex : Bool) (src : Moffs) : Statement (.movEaxMoffs rex src) := by
  simp [Statement, encode, Instr.length, Moffs.size]
  try omega

theorem movRaxMoffs (src : Moffs) : Statement (.movRaxMoffs src) := by
  simp [Statement, encode, Instr.length, Moffs.size]
  try omega

theorem movMoffsEax (rex : Bool) (dst : Moffs) : Statement (.movMoffsEax rex dst) := by
  simp [Statement, encode, Instr.length, Moffs.size]
  try omega

theorem movMoffsRax (dst : Moffs) : Statement (.movMoffsRax dst) := by
  simp [Statement, encode, Instr.length, Moffs.size]
  try omega

theorem movR64Imm64 (dst : Reg) (imm : Word) : Statement (.movR64Imm64 dst imm) := by
  simp [Statement, encode, Instr.length]
  try omega

theorem movR32Imm32 (rex : Bool) (dst : Reg) (imm : BitVec 32) : Statement (.movR32Imm32 rex dst imm) := by
  simp [Statement, encode, Instr.length]
  try omega

theorem ret : Statement .ret := by
  simp [Statement, encode, Instr.length]
  try omega

theorem movRm32Imm32 (rex : Bool) (dst : RegMem) (imm : BitVec 32) : Statement (.movRm32Imm32 rex dst imm) := by
  simp [Statement, encode, Instr.length]
  try omega

theorem movRm64Imm32 (dst : RegMem) (imm : BitVec 32) : Statement (.movRm64Imm32 dst imm) := by
  simp [Statement, encode, Instr.length]
  try omega

theorem intImm8 : Statement .intImm8 := by
  simp [Statement, encode, Instr.length]
  try omega

theorem iret : Statement .iret := by
  simp [Statement, encode, Instr.length]
  try omega

theorem callRel32 (rel : BitVec 32) : Statement (.callRel32 rel) := by
  simp [Statement, encode, Instr.length]
  try omega

theorem jmpRel32 (rel : BitVec 32) : Statement (.jmpRel32 rel) := by
  simp [Statement, encode, Instr.length]
  try omega

theorem jmpRel8 (rel : BitVec 8) : Statement (.jmpRel8 rel) := by
  simp [Statement, encode, Instr.length]
  try omega

end Sys2Proof.Laws.EncodeLength
end

