-- ==== Sys2Proof/Laws/Step.lean ====
section
/-! SUPPORT. The fetch and the inversion of `step`: all that a step can do, said once. -/

namespace Sys2Proof.Machine

/-! ## Fetch -/

theorem fetchByte_ok {s : State} {k : Nat} (h1 : byteOk s.cfg s.rip k = true)
    (h2 : inRegions s.cfg.mapped (s.rip.toNat + k) = true) (h3 : s.wrote (s.rip.toNat + k) = false) :
    fetchByte s k = .ok (s.mem.read (s.rip.toNat + k)) := by
  simp [fetchByte, h1, h2, h3]

theorem fetchByte_gp {s : State} {k : Nat} (h : byteOk s.cfg s.rip k = false) : fetchByte s k = .error (.fault .gp) := by
  simp [fetchByte, h]

theorem fetchByte_unmapped {s : State} {k : Nat} (h1 : byteOk s.cfg s.rip k = true)
    (h2 : inRegions s.cfg.mapped (s.rip.toNat + k) = false) : fetchByte s k = .error (.fault .unmapped) := by
  simp [fetchByte, h1, h2]

theorem fetchByte_stored {s : State} {k : Nat} (h1 : byteOk s.cfg s.rip k = true)
    (h2 : inRegions s.cfg.mapped (s.rip.toNat + k) = true) (h3 : s.wrote (s.rip.toNat + k) = true) :
    fetchByte s k = .error .storedByte := by
  simp [fetchByte, h1, h2, h3]

/-- A byte is fetched only where the run has not stored, and it is the byte memory holds (20_memory.md R94). -/
theorem fetchByte_eq_ok {s : State} {k : Nat} {b : Byte} (h : fetchByte s k = .ok b) :
    s.wrote (s.rip.toNat + k) = false ∧ b = s.mem.read (s.rip.toNat + k) := by
  unfold fetchByte at h
  split at h
  · cases h
  · split at h
    · cases h
    · split at h
      · cases h
      · rename_i hw
        exact ⟨by simpa using hw, by simpa using h.symm⟩

/-- Fetchable bytes are fetched, and the fetch goes on after them. -/
theorem fetchRun_fetchable {s : State} {k m : Nat} (n : Nat) (h : Fetchable s s.rip (k + m)) :
    fetchRun s k (m + n) =
      (s.mem.readBytes (s.rip.toNat + k) m ++ (fetchRun s (k + m) n).1, (fetchRun s (k + m) n).2) := by
  induction m generalizing k with
  | zero => simp [Memory.readBytes]
  | succ m ih =>
    have h1 : fetchByte s k = .ok (s.mem.read (s.rip.toNat + k)) :=
      fetchByte_ok ((byteOk_iff _ _ _).2 (h.1.1 k (by omega))) (h.1.2 k (by omega)) (h.2 k (by omega))
    rw [show m + 1 + n = (m + n) + 1 by omega, fetchRun, h1]
    simp only [ih (k := k + 1) (by rwa [show k + 1 + m = k + (m + 1) by omega])]
    simp [Memory.readBytes, show s.rip.toNat + (k + 1) = s.rip.toNat + k + 1 by omega,
      show k + 1 + m = k + (m + 1) by omega]

/-- The first `k` fetched bytes, when they can be fetched. -/
theorem fetchable_eq {s : State} {k : Nat} (hk : k ≤ maxLength) (h : Fetchable s s.rip k) :
    fetchable s = s.mem.readBytes s.rip.toNat k ++ (fetchRun s k (maxLength - k)).1 := by
  have := fetchRun_fetchable (s := s) (k := 0) (m := k) (maxLength - k) (by simpa using h)
  rw [show k + (maxLength - k) = maxLength by omega] at this
  simp [fetchable, this]

/-! ## The inversion of `step` -/

/-- A step that answers a next state ran the instruction it fetched and decoded, or raised what the fetch raised. -/
theorem step_next {s t : State} (h : step s = .next t) :
    s.status = .running ∧ s.rip ≠ s.cfg.stop ∧ s.submode = some .bits64 ∧
      ((∃ i, fetchDecode s = .ok i ∧ exec i s = .next t) ∨ ∃ k, fetchDecode s = .stopped (.fault k) ∧ t = Raised k s) := by
  unfold step at h
  split at h
  · cases h
  · cases h
  · rename_i hs
    split at h
    · cases h
    · split at h
      · cases h
      · rename_i h1 h2
        refine ⟨hs, h1, by simpa using h2, ?_⟩
        split at h
        · exact .inl ⟨_, ‹_›, h⟩
        · exact .inr ⟨_, ‹_›, by simpa [raise_eq] using h.symm⟩
        · cases h
        · cases h

/-- A step on a running machine in 64-bit mode away from `STOP` is fetch, decode and the meaning. -/
theorem step_running {s : State} (h : s.status = .running) (h1 : s.rip ≠ s.cfg.stop)
    (h2 : s.submode = some .bits64) :
    step s =
      match fetchDecode s with
      | .ok i => exec i s
      | .stopped (.fault k) => raise k s
      | .stopped .storedByte => .refused (.fetchOfStoredByte s.rip)
      | .refuse r => refuse r s := by
  unfold step
  rw [h]
  exact (if_neg h1).trans (if_neg fun hn => hn h2)

/-- What a step leaves: the system state is as before; the status is as before or records a fault at `rip` with nothing
else changed; and memory, with its record of stores, is as before or is one store to
writable bytes. -/
theorem step_effect {s t : State} (h : step s = .next t) :
    (∃ k, t = Raised k s) ∨
    (SameSystem s t ∧ t.status = s.status ∧
      ((t.mem = s.mem ∧ t.written = s.written) ∨
        ∃ la n v, Writable s la n ∧ t.mem = (stored s la n v).mem ∧ t.written = (stored s la n v).written)) := by
  obtain ⟨-, -, -, ⟨i, -, hi⟩ | ⟨k, -, hk⟩⟩ := step_next h
  · obtain ⟨h1, h2, h3⟩ | ⟨k, hk, -⟩ := exec_next hi
    · exact .inr ⟨h1, h2, h3.imp id fun ⟨d, v, _, _, hw, hm⟩ => ⟨d.la, d.size, v, hw, hm⟩⟩
    · exact .inl ⟨k, hk⟩
  · exact .inl ⟨k, hk⟩

/-- A byte that is not recorded as stored after a step was not before it, and the step left it as it was. -/
theorem step_not_stored {s t : State} {a : Nat} (h : step s = .next t) (ha : t.wrote a = false) :
    s.wrote a = false ∧ t.mem.read a = s.mem.read a := by
  obtain ⟨k, rfl⟩ | ⟨-, -, ⟨hm, hw⟩ | ⟨la, n, v, -, hm, hw⟩⟩ := step_effect h
  · exact ⟨ha, rfl⟩
  · rw [State.wrote, hw] at ha
    exact ⟨ha, by rw [hm]⟩
  · have hn : ¬ (stored s la n v).wrote a = true := by
      rw [State.wrote, ← hw]
      simpa [State.wrote] using ha
    rw [wrote_stored, not_or] at hn
    exact ⟨by simpa using hn.1, by rw [hm]; exact (stored_outside s la n v a hn.2).1⟩

end Sys2Proof.Machine
end

