-- ==== Sys2Proof/Machine/Flags.lean ====
section
/-! DEFINITION. Flags. The spec gives the machine none: 10_state.md R41 ("No admitted instruction reads or writes a
flag"), 42_data_movement.md R230 and R242, 43_stack_and_control.md R260. There is no flag in State and no flag
computation in the spec, so this file holds no definition. -/
end

