-- ==== Sys2Proof/Tests/Slice0.lean ====
section
/-! SUPPORT. Tests. Expected values are those of 95_test_vectors.md (V1 to V12) or hand calculation from the rule named;
the last part gives, for every obligation with hypotheses, a state and operands that meet them. -/

namespace Sys2Proof.Tests

open Sys2Proof.Machine

/-! ## Ill-formed terms (WellFormed.lean), one for each check -/

theorem test_wf_push_needs_rex : (Instr.pushR64 false .r8).wf = false := by decide
theorem test_wf_pop_needs_rex : (Instr.popR64 false .r15).wf = false := by decide
theorem test_wf_mov_imm_needs_rex : (Instr.movR32Imm32 false .r9 1).wf = false := by decide
theorem test_wf_reg_field_needs_rex : (Instr.movRm32R32 false (.reg .rax) .r8).wf = false := by decide
theorem test_wf_rm_field_needs_rex : (Instr.movR32Rm32 false .rax (.reg .r8)).wf = false := by decide
theorem test_wf_base_needs_rex : (Instr.movRm32Imm32 false (.mem .empty (.base .r8 .d0)) 1).wf = false := by decide
theorem test_wf_index_needs_rex : (Instr.leaR32M false false .rax (.sib .rax (some .r12) .s1 .d0)).wf = false := by decide
theorem test_wf_rsp_base_needs_sib : (Instr.leaR64M false .rax (.base .rsp .d0)).wf = false := by decide
theorem test_wf_r12_base_needs_sib : (Instr.movRm64R64 (.mem .empty (.base .r12 (.d8 0))) .rax).wf = false := by decide
theorem test_wf_rbp_base_needs_disp : (Instr.movR64Rm64 .rax (.mem .empty (.base .rbp .d0))).wf = false := by decide
theorem test_wf_r13_sib_needs_disp : (Instr.movRm64Imm32 (.mem .empty (.sib .r13 none .s1 .d0)) 0).wf = false := by
  decide
theorem test_wf_rsp_is_no_index : (Instr.leaR64M false .rax (.sib .rax (some .rsp) .s1 .d0)).wf = false := by decide
theorem test_wf_rsp_is_no_index_without_base : (Instr.leaR64M false .rax (.sibNoBase (some .rsp) .s1 0)).wf = false := by
  decide
theorem test_wf_offset_fits_67 : (Instr.movRaxMoffs ⟨.addr32, 0x100000000⟩).wf = false := by decide

/-! ## Decoding: bytes written out from the rules and from V5 to V10 -/

theorem test_decode_push : decode [0x50] = .ok (.pushR64 false .rax) [] := by decide
theorem test_decode_push_r15 : decode [0x41, 0x57] = .ok (.pushR64 true .r15) [] := by decide
theorem test_decode_pop : decode [0x5B] = .ok (.popR64 false .rbx) [] := by decide
theorem test_decode_mov_store32 : decode [0x89, 0xD8] = .ok (.movRm32R32 false (.reg .rax) .rbx) [] := by decide
theorem test_decode_mov_store64 : decode [0x49, 0x89, 0xC0] = .ok (.movRm64R64 (.reg .r8) .rax) [] := by decide
theorem test_decode_mov_load32 : decode [0x67, 0x8B, 0x3A] = .ok (.movR32Rm32 false .rdi (.mem .addr32 (.base .rdx .d0))) [] := by
  decide
theorem test_decode_mov_load64 : decode [0x48, 0x8B, 0x4C, 0x24, 0x08] =
    .ok (.movR64Rm64 .rcx (.mem .empty (.sib .rsp none .s1 (.d8 8)))) [] := by decide
theorem test_decode_mov_fs_absolute : decode [0x64, 0x48, 0x8B, 0x34, 0x25, 0x10, 0, 0, 0] =
    .ok (.movR64Rm64 .rsi (.mem (.seg .fs) (.sibNoBase none .s1 0x10))) [] := by decide
theorem test_decode_lea32 : decode [0x8D, 0x04, 0x8B] = .ok (.leaR32M false false .rax (.sib .rbx (some .rcx) .s4 .d0)) [] := by
  decide
theorem test_decode_lea64 : decode [0x48, 0x8D, 0x84, 0xC8, 0, 0, 0, 0x80] =
    .ok (.leaR64M false .rax (.sib .rax (some .rcx) .s8 (.d32 0x80000000))) [] := by decide
theorem test_decode_mov_eax_moffs : decode [0xA1, 0x20, 0x10, 0, 0, 0, 0, 0, 0] =
    .ok (.movEaxMoffs false ⟨.empty, 0x1020⟩) [] := by decide
theorem test_decode_mov_rax_moffs : decode [0x67, 0x48, 0xA1, 0x20, 0x10, 0, 0] =
    .ok (.movRaxMoffs ⟨.addr32, 0x1020⟩) [] := by decide
theorem test_decode_mov_moffs_eax : decode [0xA3, 1, 2, 3, 4, 5, 6, 7, 8, 9] =
    .ok (.movMoffsEax false ⟨.empty, 0x0807060504030201⟩) [9] := by decide
theorem test_decode_mov_moffs_rax : decode [0x65, 0x48, 0xA3, 0x20, 0, 0, 0, 0, 0, 0, 0] =
    .ok (.movMoffsRax ⟨.seg .gs, 0x20⟩) [] := by decide
theorem test_decode_mov_imm64 : decode [0x48, 0xB8, 0x88, 0x77, 0x66, 0x55, 0x44, 0x33, 0x22, 0x11] =
    .ok (.movR64Imm64 .rax 0x1122334455667788) [] := by decide
theorem test_decode_mov_imm32 : decode [0x41, 0xB8, 0x78, 0x56, 0x34, 0x12] =
    .ok (.movR32Imm32 true .r8 0x12345678) [] := by decide
theorem test_decode_ret : decode [0xC3] = .ok .ret [] := by decide
theorem test_decode_mov_rm_imm32 : decode [0xC7, 0x03, 0, 0, 0, 0x80] =
    .ok (.movRm32Imm32 false (.mem .empty (.base .rbx .d0)) 0x80000000) [] := by decide
theorem test_decode_longest : decode [0x64, 0x67, 0x48, 0xC7, 0x84, 0xC8, 0, 0, 0, 0x80, 0x78, 0x56, 0x34, 0x12] =
    .ok (.movRm64Imm32 (.mem (.segAddr32 .fs) (.sib .rax (some .rcx) .s8 (.d32 0x80000000))) 0x12345678) [] := by decide
theorem test_decode_int : decode [0xCD, 0x80] = .ok .intImm8 [0x80] := by decide
theorem test_decode_iret : decode [0xCF] = .ok .iret [] := by decide
theorem test_decode_call : decode [0xE8, 0x05, 0, 0, 0] = .ok (.callRel32 5) [] := by decide
theorem test_decode_jmp32 : decode [0xE9, 0xFB, 0xFF, 0xFF, 0xFF] = .ok (.jmpRel32 0xFFFFFFFB) [] := by decide
theorem test_decode_jmp8 : decode [0xEB, 0x0C] = .ok (.jmpRel8 0x0C) [] := by decide

/-- The longest instruction has 14 bytes (V5). -/
theorem test_length_longest :
    (Instr.movRm64Imm32 (.mem (.segAddr32 .fs) (.sib .rax (some .rcx) .s8 (.d32 0))) 0).length = 14 := by decide

/-- An opcode byte is in at most one row of the opcode map (30_encoding.md R130). -/
theorem test_opcode_rows_do_not_overlap : opcodeRows.Pairwise fun r r' => r.pattern &&& r'.mask ≠ r'.pattern &&& r.mask := by
  decide

/-- V12. -/
theorem test_refused_unknown : ∀ bs ∈ ([[0x90], [0xF4], [0x0F, 0x05], [0xFF, 0xE0], [0xC2, 0x08, 0x00], [0x48, 0x8D, 0xC0],
    [0x48, 0xC7, 0x08, 0, 0, 0, 0]] : List (List Byte)), decode bs = .refuse .unknownOpcode := by decide
theorem test_refused_legacy : ∀ bs ∈ ([[0x66, 0xB8, 0x34, 0x12], [0xF3, 0xA4], [0x2E, 0x8B, 0x03], [0x67, 0x50],
    [0x64, 0x48, 0x8D, 0x03], [0x64, 0x89, 0xD8], [0x67, 0x67, 0x8B, 0x03], [0x64, 0x65, 0x8B, 0x03],
    [0x48, 0x67, 0x8B, 0x03], [0x48, 0x48, 0x8B, 0x03]] : List (List Byte)), decode bs = .refuse .prefixNotAdmitted := by
  decide
theorem test_refused_rex : ∀ bs ∈ ([[0x48, 0x50], [0x48, 0xC3], [0x42, 0x8B, 0x03], [0x41, 0x8B, 0x05, 0, 0, 0, 0],
    [0x4C, 0xC7, 0xC0, 0, 0, 0, 0], [0x49, 0xA1, 0, 0, 0, 0, 0, 0, 0, 0], [0x44, 0xB8, 0, 0, 0, 0]] : List (List Byte)),
    decode bs = .refuse .rexBitUnused := by decide

/-! ## One step on a small state -/

/-- The default launch of 95_test_vectors.md with no code in it. -/
def base : State := { State.reset with cfg := { Config.reset with codeRange := [] } }

/-- An instruction's bytes at `a`, with `rip` there and `CodeRange` those bytes. -/
def codeAt (s : State) (a : Word) (bs : List Byte) : State :=
  { s with rip := a, mem := s.mem.writeBytes a.toNat bs, cfg := { s.cfg with codeRange := [⟨a.toNat, bs.length⟩] } }

def bytesAt (s : State) (a : Nat) (bs : List Byte) : State := { s with mem := s.mem.writeBytes a bs }

/-- One field of the state after a step. -/
def after (s : State) (f : State → α) : Option α :=
  match step s with
  | .next t => some (f t)
  | .fault _ | .refused _ => none

/-- V9: PUSH RAX. -/
theorem test_push : after (codeAt ((base.setReg .rax 0x0123456789ABCDEF).setReg .rsp 0x8000) 0x1000 [0x50])
    (fun t => (t.mem.readBytes 0x7FF8 8, t.reg .rsp, t.rip)) =
    some ([0xEF, 0xCD, 0xAB, 0x89, 0x67, 0x45, 0x23, 0x01], 0x7FF8, 0x1001) := by decide
/-- V9: PUSH RSP stores the old value. -/
theorem test_push_rsp : after (codeAt (base.setReg .rsp 0x8000) 0x1000 [0x54])
    (fun t => (t.mem.readBytes 0x7FF8 8, t.reg .rsp)) = some ([0, 0x80, 0, 0, 0, 0, 0, 0], 0x7FF8) := by decide
/-- V9: POP RSP leaves the loaded value. -/
theorem test_pop_rsp : after (codeAt (bytesAt (base.setReg .rsp 0x7FF8) 0x7FF8 [0xEF, 0xCD, 0xAB, 0x89, 0x67, 0x45, 0x23, 0x01])
    0x1000 [0x5C]) (fun t => t.reg .rsp) = some 0x0123456789ABCDEF := by decide
/-- V9: POP at the top of the space wraps RSP to 0. -/
theorem test_pop_wraps : after (codeAt (bytesAt (base.setReg .rsp 0xFFFFFFFFFFFFFFF8) 0xFFFFFFFFFFFFFFF8 [1]) 0x1000 [0x58])
    (fun t => (t.reg .rax, t.reg .rsp)) = some (1, 0) := by decide
/-- V7: MOV EAX, EBX zero-extends. -/
theorem test_mov_rm32_r32 :
    after (codeAt ((base.setReg .rax 0x1111111111111111).setReg .rbx 0x2222222233333333) 0x1000 [0x89, 0xD8])
    (fun t => t.reg .rax) = some 0x33333333 := by decide
/-- V7: a source that is also the address. -/
theorem test_mov_rm64_r64 : after (codeAt (base.setReg .rax 0x5000) 0x1000 [0x48, 0x89, 0x00])
    (fun t => t.mem.readBytes 0x5000 8) = some [0, 0x50, 0, 0, 0, 0, 0, 0] := by decide
/-- V7: 67h truncates the RIP-relative address. -/
theorem test_mov_r64_rip32 : after (codeAt (bytesAt base 0x1018 [0x77]) 0x100001000 [0x67, 0x48, 0x8B, 0x05, 0x10, 0, 0, 0])
    (fun t => (t.reg .rax, t.rip)) = some (0x77, 0x100001008) := by decide
/-- V7: FS base plus the address wraps modulo 2^64. -/
theorem test_mov_r64_fs_wraps : after (codeAt (bytesAt ({ base with fsbase := 0xFFFFFFFFFFFFFFF8 }.setReg .rbx 0x10) 8 [0x42])
    0x1000 [0x64, 0x48, 0x8B, 0x03]) (fun t => t.reg .rax) = some 0x42 := by decide
/-- V7: four bytes at the last addresses of the lower half. -/
theorem test_mov_r32_rm32 : after (codeAt (bytesAt (base.setReg .rbx 0x7FFFFFFFFFFC) 0x7FFFFFFFFFFC [0x11]) 0x1000 [0x8B, 0x03])
    (fun t => t.reg .rax) = some 0x11 := by decide
/-- V6: base + index * 4, and 67h on the same bytes. -/
theorem test_lea_r64 : after (codeAt ((base.setReg .rbx 0x1FFFFFFF0).setReg .rcx 8) 0x1000 [0x48, 0x8D, 0x04, 0x8B])
    (fun t => t.reg .rax) = some 0x200000010 := by decide
theorem test_lea_r64_addr32 : after (codeAt ((base.setReg .rbx 0x1FFFFFFF0).setReg .rcx 8) 0x1000 [0x67, 0x48, 0x8D, 0x04, 0x8B])
    (fun t => t.reg .rax) = some 0x10 := by decide
/-- V6: 64-bit address, 32-bit operand. -/
theorem test_lea_r32 : after (codeAt ((base.setReg .rbx 0x1FFFFFFF0).setReg .rcx 8) 0x1000 [0x8D, 0x04, 0x8B])
    (fun t => t.reg .rax) = some 0x10 := by decide
/-- V7: memory offsets. -/
theorem test_mov_eax_moffs : after (codeAt (bytesAt (base.setReg .rax 0xFFFFFFFFFFFFFFFF) 0x1020 [0x88, 0x77, 0x66, 0x55, 0x44])
    0x1000 [0xA1, 0x20, 0x10, 0, 0, 0, 0, 0, 0]) (fun t => (t.reg .rax, t.rip)) = some (0x55667788, 0x1009) := by decide
theorem test_mov_rax_moffs : after (codeAt (bytesAt base 0x1020 [0x88, 0x77, 0x66, 0x55, 0x44, 0x33, 0x22, 0x11]) 0x1000
    [0x67, 0x48, 0xA1, 0x20, 0x10, 0, 0]) (fun t => (t.reg .rax, t.rip)) = some (0x1122334455667788, 0x1007) := by decide
/-- R239: EAX stores four bytes and no more. -/
theorem test_mov_moffs_eax : after (codeAt (bytesAt (base.setReg .rax 0x1122334455667788) 0x1024 [0x99]) 0x1000
    [0xA3, 0x20, 0x10, 0, 0, 0, 0, 0, 0]) (fun t => t.mem.readBytes 0x1020 5) = some [0x88, 0x77, 0x66, 0x55, 0x99] := by
  decide
/-- V7: through GS. -/
theorem test_mov_moffs_rax : after (codeAt ({ base with gsbase := 0x7000 }.setReg .rax 0x1122334455667788) 0x1000
    [0x65, 0x48, 0xA3, 0x20, 0, 0, 0, 0, 0, 0, 0]) (fun t => (t.mem.readBytes 0x7020 8, t.rip)) =
    some ([0x88, 0x77, 0x66, 0x55, 0x44, 0x33, 0x22, 0x11], 0x100B) := by decide
/-- S1. -/
theorem test_mov_r64_imm64 : after (codeAt base 0x1000 [0x48, 0xB8, 0x88, 0x77, 0x66, 0x55, 0x44, 0x33, 0x22, 0x11])
    (fun t => (t.reg .rax, t.rip)) = some (0x1122334455667788, 0x100A) := by decide
/-- V7: the upper half becomes 0. -/
theorem test_mov_r32_imm32 : after (codeAt (base.setReg .rax 0x1111111111111111) 0x1000 [0xB8, 0xFF, 0xFF, 0xFF, 0xFF])
    (fun t => t.reg .rax) = some 0xFFFFFFFF := by decide
/-- V7: four bytes written, the fifth kept. -/
theorem test_mov_rm32_imm32 : after (codeAt (bytesAt (base.setReg .rbx 0x5000) 0x5004 [0x99]) 0x1000 [0xC7, 0x03, 0, 0, 0, 0x80])
    (fun t => t.mem.readBytes 0x5000 8) = some [0, 0, 0, 0x80, 0x99, 0, 0, 0] := by decide
/-- V7: the immediate is sign-extended; the length counts the immediate in a RIP-relative address. -/
theorem test_mov_rm64_imm32 : after (codeAt base 0x1000 [0x48, 0xC7, 0xC0, 0xFF, 0xFF, 0xFF, 0xFF])
    (fun t => t.reg .rax) = some 0xFFFFFFFFFFFFFFFF := by decide
theorem test_mov_rm64_imm32_rip : after (codeAt base 0x1000 [0x48, 0xC7, 0x05, 0x10, 0, 0, 0, 0x78, 0x56, 0x34, 0x12])
    (fun t => (t.mem.readBytes 0x101B 8, t.rip)) = some ([0x78, 0x56, 0x34, 0x12, 0, 0, 0, 0], 0x100B) := by decide
/-- V10. -/
theorem test_jmp8_back : after (codeAt base 0x2000 [0xEB, 0x80]) (fun t => t.rip) = some 0x1F82 := by decide
theorem test_jmp8_non_canonical : after (codeAt base 0x7FFFFFFFFFFE [0xEB, 0x00]) (fun t => (t.status, t.rip)) =
    some (.faulted .gp 0x7FFFFFFFFFFE, 0x7FFFFFFFFFFE) := by decide
theorem test_jmp32_wraps : after (codeAt base 0x1000 [0xE9, 0, 0, 0, 0x80]) (fun t => t.rip) = some 0xFFFFFFFF80001005 := by
  decide
theorem test_call : after (codeAt (base.setReg .rsp 0x7FF8) 0x200B [0xE8, 0x05, 0, 0, 0])
    (fun t => (t.mem.readBytes 0x7FF0 8, t.reg .rsp, t.rip)) =
    some ([0x10, 0x20, 0, 0, 0, 0, 0, 0], 0x7FF0, 0x2015) := by decide
theorem test_call_stack_fault : after (codeAt (base.setReg .rsp 0x800000000008) 0x200B [0xE8, 0x05, 0, 0, 0])
    (fun t => (t.status, t.reg .rsp, t.rip)) = some (.faulted .ss 0x200B, 0x800000000008, 0x200B) := by decide
theorem test_ret : after (codeAt (bytesAt (base.setReg .rsp 0x7FF0) 0x7FF0 [0x10, 0x20]) 0x201E [0xC3])
    (fun t => (t.rip, t.reg .rsp)) = some (0x2010, 0x7FF8) := by decide
theorem test_ret_non_canonical : after (codeAt (bytesAt (base.setReg .rsp 0x7FF0) 0x7FF0 [0, 0, 0, 0, 0, 0x80]) 0x201E [0xC3])
    (fun t => (t.status, t.reg .rsp)) = some (.faulted .gp 0x201E, 0x7FF0) := by decide
/-- V12: the refusal carries the address, and the spec's record of it is the status. -/
theorem test_int_refused : step (codeAt base 0x1000 [0xCD, 0x80]) = .refused (.encoding .namedNotModelled 0x1000) := rfl
theorem test_iret_refused : (codeAt base 0x1000 [0xCF]).after.status = .refused .namedNotModelled 0x1000 := by decide

/-- V8: base RBP references through SS; RBP only as index does not; R13 is not RBP. -/
theorem test_fault_rbp_base : after (codeAt (base.setReg .rbp 0x7FFFFFFFFFF8) 0x1000 [0x48, 0x8B, 0x45, 0x08])
    (fun t => t.status) = some (.faulted .ss 0x1000) := by decide
theorem test_fault_rbp_index : after (codeAt (base.setReg .rbx 0x800000000000) 0x1000 [0x48, 0x8B, 0x04, 0x2B])
    (fun t => t.status) = some (.faulted .gp 0x1000) := by decide
/-- V8: eight bytes of which the last four are missing from `Mapped`. -/
theorem test_fault_unmapped :
    after (codeAt ({ base with cfg := { base.cfg with mapped := [⟨0, 0x9004⟩] } }.setReg .rbx 0x9000) 0x1000 [0x48, 0x8B, 0x03])
    (fun t => (t.status, t.reg .rax)) = some (.faulted .unmapped 0x1000, 0) := by decide
/-- V8: a store into the instruction itself. -/
theorem test_fault_code_write : after (codeAt (base.setReg .rbx 0x1000) 0x1000 [0x48, 0x89, 0x03]) (fun t => t.status) =
    some (.faulted .codeWrite 0x1000) := by decide
/-- 20_memory.md R94, D10: the bytes a store writes count as stored, the ones beside them do not, and a step that needs a
stored byte stops. -/
theorem test_store_is_recorded : after (codeAt (base.setReg .rbx 0x5000) 0x1000 [0x48, 0x89, 0x03])
    (fun t => (t.wrote 0x4FFF, t.wrote 0x5000, t.wrote 0x5007, t.wrote 0x5008)) = some (false, true, true, false) := by decide
theorem test_stored_byte_stops : step { codeAt base 0x1000 [0x41, 0x50] with written := [⟨0x1001, 1⟩] } =
    .refused (.fetchOfStoredByte 0x1000) := rfl
/-- V8: with VA_BITS = 64 every address is canonical. -/
theorem test_va64 : after (codeAt ({ base with cfg := { base.cfg with vaTop := 63, mapped := [⟨0, 2 ^ 64⟩] } }.setReg .rax
    0x800000000000) 0x1000 [0x48, 0x8B, 0x00]) (fun t => (t.status, t.reg .rax)) = some (.running, 0) := by decide
/-- V11: a fetch that runs out of canonical addresses, and one that wraps `next` to 0. -/
theorem test_fetch_gp : after (codeAt base 0x7FFFFFFFFFFE [0x48, 0x8B, 0x03]) (fun t => t.status) =
    some (.faulted .gp 0x7FFFFFFFFFFE) := by decide
theorem test_fetch_wraps : after (codeAt (base.setReg .rsp 0x8000) 0xFFFFFFFFFFFFFFFF [0x50]) (fun t => t.rip) = some 0 := by
  decide
/-- S3: real mode, 1234h:5678h. -/
theorem test_real_mode : realLinear Config.reset 0x1234 0x5678 = 0x179B8 := by decide
/-- A far pointer in real mode is selector and offset (S3). -/
theorem test_real_far_pointer : FarPointer.linear Config.reset .real ⟨0x1234, 0x5678⟩ = 0x179B8 := by decide
/-- 10_state.md R28, 41_pointers_stack_ip.md R210: EIP by the D bit, SP by the B bit, in protected mode. -/
theorem test_pointer_widths : let s := { base with mode := .legacyProtected, csL := false, csD := true, rip := 0x123456789 }
    s.instructionPointer = some 0x23456789 ∧ { s with csD := false }.instructionPointer = some 0x6789 ∧
      (s.setReg .rsp 0x18000).stackPointer = some 0x8000 := by decide
/-- A row of the opcode table placed at `rip` runs as the first instruction after reset. -/
theorem test_placed : decodeTableWord 8 0xC3 = some .ret ∧
    after (State.reset.withFetchWord 8 0x50) (fun t => t.reg .rsp) = some 0xFFFFFFFFFFFFFFF8 := by decide

/-! ## Witnesses: hypotheses that are met -/

theorem next_of_after {α : Type} {s : State} {f : State → α} {a : α} (h : after s f = some a) : ∃ t, step s = .next t := by
  unfold after at h
  split at h
  · exact ⟨_, ‹_›⟩
  · cases h
  · cases h

/-- `Mapped` ends in the middle of a quadword (V8). -/
def small : State := { base with cfg := { base.cfg with mapped := [⟨0, 0x9004⟩], codeRange := [⟨0x1000, 16⟩] } }

theorem witness_MemoryIsDeterminedByItsReads : Memory.wf [(5, 1), (2 ^ 64 - 1, 0xFF)] = true := by decide
theorem witness_MemRead : MappedRef small 0x8FFC 8 ∧ ¬ MappedRef small 0x8FFD 8 := by decide
theorem witness_MemWrite :
    (CanonicalRef small 0x8FFC 8 ∧ MappedRef small 0x8FFC 8 ∧ OutsideCode small 0x8FFC 8) ∧
    (CanonicalRef small 0x9000 8 ∧ ¬ MappedRef small 0x9000 8) ∧
    (CanonicalRef small 0xFFF 4 ∧ MappedRef small 0xFFF 4 ∧ ¬ OutsideCode small 0xFFF 4) := by decide
theorem witness_MixedWidth : (0x8FFC : Word).toNat + 8 ≤ 2 ^ 64 ∧ 4 + 4 ≤ 8 ∧
    ∃ t, memWrite small 0x8FFC 8 0x0123456789ABCDEF = .ok t := ⟨by decide, by decide, _, rfl⟩
theorem witness_CanonicalForm : base.cfg.vaBits = 48 ∧ canonical base.cfg 0x7FFFFFFFFFFF = true ∧
    canonical base.cfg 0x800000000000 = false ∧ canonical base.cfg 0xFFFF800000000000 = true ∧
    canonical base.cfg 0xFFFF7FFFFFFFFFFF = false ∧ { base.cfg with vaTop := 63 }.vaBits = 64 := by decide
theorem witness_CheckedAddress : CanonicalRef base (linear base .ds 0x7FFFFFFFFFF8) 8 ∧
    ¬ CanonicalRef base (linear base .ds 0x7FFFFFFFFFF9) 8 ∧ CanonicalRef base (linear base .ss 0xFFFFFFFFFFFFFFF8) 8 ∧
    ¬ CanonicalRef base (linear base .ss 0xFFFFFFFFFFFFFFF9) 8 := by decide
theorem witness_Compatibility : 33 ≤ { base.cfg with vaTop := 32 }.vaBits ∧
    { base with csL := false }.submode = some .compatibility := by decide
theorem witness_DecodeOfEncode : (Instr.movRm64Imm32 (.mem (.segAddr32 .gs) (.sib .r13 (some .r12) .s8 (.d8 0x80))) 5).wf = true ∧
    (Instr.movEaxMoffs false ⟨.addr32, 0xFFFFFFFF⟩).wf = true := by decide
theorem witness_EncodeOfDecode : decode [0x41, 0x57, 0x00] = .ok (.pushR64 true .r15) [0x00] := by decide
theorem witness_DecoderDecides : 14 ≤ (List.replicate 14 (0 : Byte)).length ∧ decode [0x66] = .refuse .prefixNotAdmitted := by
  decide
theorem witness_RefusedPrefixes : Prefixes.addr32.hasAddr32 = true ∧ (Prefixes.seg .gs).segOverride.isSome = true ∧
    0x40 ≤ (0x4F : Byte).toNat := by decide
theorem witness_RefusedOpcodes : (findRow 0x90 = none ∧ isLegacy 0x90 = false ∧ isRex 0x90 = false) ∧
    (Prefixes.addr32 ≠ .empty) ∧ (some (⟨true, false, false, false⟩ : Rex)).any (fun y => y.w || y.r || y.x) = true := by
  decide
/-- The clauses of RefusedOpcodesAndRexBits at the ends of their ranges: each byte string meets the clause its reason is
under. -/
theorem witness_RefusedOpcodes_bytes :
    (∀ bs ∈ ([[0x67, 0x5F], [0x64, 0x50], [0x65, 0xBF], [0x67, 0xB8], [0x64, 0xEB], [0x64, 0x8D], [0x67, 0x65, 0x48, 0x8D]] :
      List (List Byte)), decode bs = .refuse .prefixNotAdmitted) ∧
    (∀ bs ∈ ([[0x48, 0x5F], [0x44, 0x50], [0x42, 0x5F], [0x44, 0xB8], [0x42, 0xBF], [0x4A, 0xBF], [0x44, 0xC7], [0x67, 0x4C, 0xC7],
      [0x44, 0xA1], [0x42, 0xA3], [0x64, 0x41, 0xA1], [0x40, 0xC3], [0x40, 0xE8], [0x41, 0xEB]] : List (List Byte)),
      decode bs = .refuse .rexBitUnused) ∧
    (∀ bs ∈ ([[0x67, 0xCD], [0x48, 0xCF]] : List (List Byte)), decode bs = .refuse .namedNotModelled) := by decide
/-- The same for RefusedModRM, with and without a REX byte. -/
theorem witness_RefusedModRM :
    (∀ bs ∈ ([[0xC7, 0x08], [0xC7, 0xF8], [0x48, 0xC7, 0xC8], [0x8D, 0xC0], [0x67, 0x48, 0x8D, 0xFF]] : List (List Byte)),
      decode bs = .refuse .unknownOpcode) ∧
    (∀ bs ∈ ([[0x64, 0x89, 0xD8], [0x67, 0x8B, 0xC0], [0x65, 0x48, 0xC7, 0xC0]] : List (List Byte)),
      decode bs = .refuse .prefixNotAdmitted) ∧
    (∀ bs ∈ ([[0x42, 0x89, 0xD8], [0x42, 0xC7, 0xC0], [0x42, 0x8D, 0x00], [0x42, 0x8B, 0xBF], [0x41, 0x8D, 0x05],
      [0x67, 0x41, 0xC7, 0x05], [0x41, 0x8D, 0x04, 0x25], [0x64, 0x41, 0x89, 0x3C, 0xE5]] : List (List Byte)),
      decode bs = .refuse .rexBitUnused) := by decide
theorem witness_RipRelativeCode : Prefixes.empty.hasAddr32 = false ∧ Prefixes.empty.segOverride = none := by decide
theorem witness_SegmentBaseZero : segBase base .ds = 0 ∧ segBase base .ss = 0 ∧ segBase base .fs = 0 := by decide
theorem witness_MemoryOffset : (Moffs.mk (.addr32Seg .fs) 0xFFFFFFFF).wf = true ∧
    (Moffs.mk .empty 0xFFFFFFFFFFFFFFFF).wf = true := by decide

/-- RBX at the last mapped quadword, RSP above it. -/
def dataState : State := ((bytesAt small 0x8FFC [1, 2, 3, 4, 5, 6, 7, 8]).setReg .rbx 0x8FFC).setReg .rsp 0x8FFC

theorem witness_MovStores : Memory.wf dataState.mem = true ∧
    Writable dataState (memAddr dataState (nextRip (.movRm64R64 (.mem .empty (.base .rbx .d0)) .rax) dataState) .empty
      (.base .rbx .d0)) 8 ∧
    Writable dataState (memAddr dataState 0x1006 .empty (.base .rbx (.d8 4))) 4 := by decide
theorem witness_MovLoads : Readable dataState (memAddr dataState 0x1003 .empty (.base .rbx .d0)) 8 := by decide
theorem witness_MovMoffs : Writable dataState (moffsLinear dataState ⟨.empty, 0x8FFC⟩) 8 ∧
    Readable dataState (moffsLinear dataState ⟨.addr32, 0x9000⟩) 4 := by decide
theorem witness_PushPop : Writable dataState (dataState.reg .rsp - 8) 8 ∧ Readable dataState (dataState.reg .rsp) 8 := by
  decide
theorem witness_Jmp : canonical dataState.cfg (dataState.rip + 2 + (0x80 : BitVec 8).signExtend 64) = true ∧
    canonical dataState.cfg (dataState.rip + 5 + (0x80000000 : BitVec 32).signExtend 64) = true := by decide

/-- A return address on the stack: canonical, or with the first byte that is not. -/
def retState (b : Byte) : State := bytesAt dataState 0x8FFC [0x10, 0x20, 0, 0, 0, b, 0, 0]

theorem witness_Ret : Readable (retState 0x7F) ((retState 0x7F).reg .rsp) 8 ∧
    HoldsBytes (retState 0x7F) ((retState 0x7F).reg .rsp) 8 0x00007F0000002010 ∧
    canonical (retState 0x7F).cfg 0x00007F0000002010 = true := by
  refine ⟨by decide, ?_, by decide⟩
  unfold HoldsBytes
  decide
theorem witness_RetNonCanonical : Readable (retState 0x80) ((retState 0x80).reg .rsp) 8 ∧
    HoldsBytes (retState 0x80) ((retState 0x80).reg .rsp) 8 0x0000800000002010 ∧
    canonical (retState 0x80).cfg 0x0000800000002010 = false := by
  refine ⟨by decide, ?_, by decide⟩
  unfold HoldsBytes
  decide
theorem witness_PopUndoesPush : (∃ t, exec (.pushR64 false .rax) dataState = .next t) ∧
    canonical dataState.cfg (dataState.rip + 5) = true ∧ ∃ t, exec (.callRel32 0) dataState = .next t :=
  ⟨⟨_, rfl⟩, by decide, _, rfl⟩
theorem witness_NonCanonicalTarget : computedTarget (.jmpRel8 0x7F) { base with rip := 0x7FFFFFFFFF7F } = some 0x800000000000 ∧
    canonical base.cfg 0x800000000000 = false := by decide

/-- The data references of V8: not canonical, not mapped, in the code. -/
theorem witness_DataReferenceFaults :
    (dataRef (.popR64 false .rax) (base.setReg .rsp 0x7FFFFFFFFFF9) = some ⟨.ss, 0x7FFFFFFFFFF9, 8, false⟩ ∧
      ¬ CanonicalRef (base.setReg .rsp 0x7FFFFFFFFFF9) 0x7FFFFFFFFFF9 8) ∧
    (dataRef (.popR64 false .rax) (small.setReg .rsp 0x8FFD) = some ⟨.ss, 0x8FFD, 8, false⟩ ∧
      CanonicalRef small 0x8FFD 8 ∧ ¬ MappedRef small 0x8FFD 8) ∧
    (dataRef (.pushR64 false .rax) (small.setReg .rsp 0x1001) = some ⟨.ss, 0xFF9, 8, true⟩ ∧
      Readable small 0xFF9 8 ∧ ¬ OutsideCode small 0xFF9 8) := by decide
theorem witness_RaisesOnly : after (codeAt (base.setReg .rbx 0x1000) 0x1000 [0x48, 0x89, 0x03]) (fun t => t.status) ≠
    some .running ∧ (codeAt (base.setReg .rbx 0x1000) 0x1000 [0x48, 0x89, 0x03]).status = .running := by decide
theorem witness_Frames : (∃ t, exec (.movR64Imm64 .r8 5) base = .next t) ∧
    (∃ t, exec (.movRm64R64 (.mem .empty (.base .rbx .d0)) .rax) dataState = .next t) ∧
    (∃ t, exec (.popR64 true .r9) dataState = .next t) ∧ ∃ t, exec .ret (retState 0x7F) = .next t :=
  ⟨⟨_, rfl⟩, ⟨_, rfl⟩, ⟨_, rfl⟩, _, rfl⟩

/-- `JMP` to itself in four mapped bytes. -/
def spin : State := codeAt { base with cfg := { base.cfg with mapped := [⟨0x1000, 4⟩] } } 0x1000 [0xEB, 0xFE]

theorem witness_StepRuns : spin.status = .running ∧ spin.rip ≠ spin.cfg.stop ∧ spin.submode = some .bits64 ∧
    decode (fetchable spin) = .ok (.jmpRel8 0xFE) [0, 0] ∧ Fetchable spin spin.rip 2 := by decide
theorem witness_FetchFaults : Fetchable (codeAt spin 0x1003 [0x41]) 0x1003 1 ∧ decode [0x41] = .more ∧
    byteOk spin.cfg 0x1003 1 = true ∧ inRegions spin.cfg.mapped 0x1004 = false ∧
    byteOk base.cfg 0x7FFFFFFFFFFF 1 = false ∧
    ({ codeAt spin 0x1001 [0x41] with written := [⟨0x1002, 1⟩] } : State).wrote 0x1002 = true ∧
    Fetchable { codeAt spin 0x1001 [0x41] with written := [⟨0x1002, 1⟩] } 0x1001 1 := by decide
theorem witness_RefusedBytes : Fetchable (codeAt spin 0x1003 [0x90]) 0x1003 1 ∧
    decode ((codeAt spin 0x1003 [0x90]).mem.readBytes 0x1003 1) = .refuse .unknownOpcode := by decide
theorem witness_NoStep : { spin with mode := .real }.submode ≠ some .bits64 ∧ { spin with rip := 0 }.rip = spin.cfg.stop := by
  decide
theorem witness_Placed : CanonicalRef base base.rip 14 ∧ decodeTableWord 16 0xFEEB = some (.jmpRel8 0xFE) := by decide
theorem witness_Invariant : MachineInv spin ∧ ∃ t, step spin = .next t := by
  refine ⟨⟨by decide, by decide, by decide, by decide, ?_, ?_, ?_, by decide, ?_⟩,
    next_of_after (f := fun t => t.rip) (a := 0x1000) (by decide)⟩
  · intro a h
    have h' : 0x1000 ≤ a ∧ a < 0x1004 := by simpa [spin, codeAt, base, inRegions] using h
    obtain ⟨h1, h2⟩ := h'
    interval_cases a <;> decide
  · intro a h
    have h' : 0x1000 ≤ a ∧ a < 0x1002 := by simpa [spin, codeAt, base, inRegions] using h
    obtain ⟨h1, h2⟩ := h'
    interval_cases a <;> decide
  · intro a h
    cases h
  · intro k a h
    cases h
theorem witness_Run : ∃ t, Sys2Proof.core.run 1 spin = .next t ∧ inRegions spin.cfg.codeRange 0x1001 = true ∧
    inRegions spin.cfg.mapped 0x1004 = false ∧ fetchByte spin 1 = .ok 0xFE := by
  obtain ⟨t, h⟩ := next_of_after (s := spin) (f := fun t => t.rip) (a := 0x1000) (by decide)
  refine ⟨t, ?_, by decide, by decide, by decide⟩
  simp only [Host.Core.run]
  rw [show Sys2Proof.core.step spin = .next t from h]

end Sys2Proof.Tests
end

section
/-! SUPPORT. Proofs of the statements on the state: the registers, the canonical memory, the mode, and what every step
keeps (10_state.md). -/

namespace Sys2Proof.Machine

/-! ## Every step keeps the machine invariant -/

theorem submode_eq_of_sameSystem {s t : State} (h : SameSystem s t) : t.submode = s.submode := by
  obtain ⟨-, -, -, hL, hD, -, hmode, -⟩ := h
  rw [State.submode, hmode, hL, hD, State.submode]

theorem sameSystem_raised (k : FaultKind) (s : State) : SameSystem s (Raised k s) := sameSystem_refl s

/-- With the system state as before, only memory, the record of stores and the recorded fault can break the
invariant. -/
theorem MachineInv.of_sameSystem {s t : State} (inv : MachineInv s) (sys : SameSystem s t)
    (memWf : Memory.wf t.mem = true)
    (storedData : ∀ a, t.wrote a = true → inRegions s.cfg.mapped a = true ∧ inRegions s.cfg.codeRange a = false)
    (faultAt : ∀ k a, t.status = .faulted k a → a = t.rip) : MachineInv t := by
  have mode64 : t.submode = some .bits64 := (submode_eq_of_sameSystem sys).trans inv.mode64
  obtain ⟨hfs, hgs, -, -, -, -, -, hcfg⟩ := sys
  refine ⟨memWf, mode64, ?_, ?_, ?_, ?_, ?_, ?_, faultAt⟩ <;> rw [hcfg]
  · exact hfs ▸ inv.fsCanonical
  · exact hgs ▸ inv.gsCanonical
  · exact inv.mappedCanonical
  · exact inv.codeMapped
  · exact storedData
  · exact inv.stopCanonical

/-- A fault changes the status only, and records it at `rip` (60_exceptions.md R303, R304). -/
theorem MachineInv.raised {s : State} (inv : MachineInv s) (k : FaultKind) : MachineInv (Raised k s) :=
  inv.of_sameSystem (sameSystem_raised k s) inv.memWf inv.storedData fun _ _ h => (Status.faulted.inj h).2.symm

/-- A byte of a writable reference is in `Mapped` and outside `CodeRange`. -/
theorem Writable.mem_data {s : State} {la : Word} {n a : Nat} (h : Writable s la n) (hlo : la.toNat ≤ a)
    (hhi : a < la.toNat + n) : inRegions s.cfg.mapped a = true ∧ inRegions s.cfg.codeRange a = false := by
  obtain ⟨k, rfl⟩ := Nat.exists_eq_add_of_le hlo
  obtain ⟨⟨-, hmapped⟩, hcode⟩ := h
  exact ⟨hmapped k (by omega), hcode k (by omega)⟩

/-- A store to writable bytes records bytes of `Mapped` outside `CodeRange` only. -/
theorem MachineInv.storedData_stored {s : State} {la : Word} {n : Nat} (inv : MachineInv s) (h : Writable s la n)
    (v : Word) (a : Nat) (ha : (stored s la n v).wrote a = true) :
    inRegions s.cfg.mapped a = true ∧ inRegions s.cfg.codeRange a = false := by
  obtain hold | ⟨hlo, hhi⟩ := (wrote_stored s la n v a).1 ha
  · exact inv.storedData a hold
  · exact Writable.mem_data h hlo hhi

/-- A step that answers a next state keeps everything of 10_state.md R46 but the registers, `rip`, memory and the
status. -/
theorem step_sameSystem {s t : State} (h : step s = .next t) : SameSystem s t := by
  obtain ⟨k, rfl⟩ | ⟨hsys, -, -⟩ := step_effect h
  · exact sameSystem_raised k s
  · exact hsys

/-- Settles O54: by `step_effect` a step raises a fault, or leaves the status running and memory as it was or with one
store to writable bytes; each keeps the invariant. -/
theorem stepKeepsTheInvariant : Obligations.StepKeepsTheInvariant := by
  intro s t inv hstep
  obtain ⟨hrunning, -, -, -⟩ := step_next hstep
  obtain ⟨k, rfl⟩ | ⟨hsys, hstatus, hmemory⟩ := step_effect hstep
  · exact inv.raised k
  · have faultAt : ∀ k a, t.status = .faulted k a → a = t.rip := by
      intro k a hk
      rw [hstatus, hrunning] at hk
      cases hk
    obtain ⟨hmem, hwritten⟩ | ⟨la, n, v, hw, hmem, hwritten⟩ := hmemory
    · refine inv.of_sameSystem hsys (hmem ▸ inv.memWf) (fun a ha => ?_) faultAt
      rw [State.wrote, hwritten] at ha
      exact inv.storedData a ha
    · refine inv.of_sameSystem hsys (hmem ▸ wf_stored v inv.memWf hw.1.1) (fun a ha => ?_) faultAt
      rw [State.wrote, hwritten] at ha
      exact inv.storedData_stored hw v a ha

/-! ## Memory's canonical form is unique (10_state.md R40) -/

theorem Memory.wfAbove_cons (lo a : Nat) (b : Byte) (m : Memory) :
    Memory.wfAbove lo ((a, b) :: m) = true ↔
      lo ≤ a ∧ a < 2 ^ 64 ∧ b ≠ unlistedByte ∧ Memory.wfAbove (a + 1) m = true := by
  simp [Memory.wfAbove, and_assoc]

@[simp] theorem Memory.read_cons_same (a : Nat) (b : Byte) (m : Memory) : Memory.read ((a, b) :: m) a = b :=
  if_pos rfl

theorem Memory.read_cons_other {a a' : Nat} (b : Byte) (m : Memory) (h : a ≠ a') :
    Memory.read ((a, b) :: m) a' = m.read a' := if_neg h

/-- The first address a canonical memory lists is the least one that does not read as the unlisted byte. -/
theorem Memory.head_le {lo a a' : Nat} {b : Byte} {m : Memory} (h : Memory.wfAbove lo ((a, b) :: m) = true)
    (hread : Memory.read ((a, b) :: m) a' ≠ unlistedByte) : a ≤ a' := by
  obtain ⟨-, hlt, hb, hm⟩ := (Memory.wfAbove_cons ..).1 h
  have habove : Memory.wfAbove a ((a, b) :: m) = true := (Memory.wfAbove_cons ..).2 ⟨le_rfl, hlt, hb, hm⟩
  by_contra hn
  exact hread (Memory.read_below habove (by omega))

/-- Induction on the first list: the heads are both the least address that reads differently from the unlisted byte,
and above it the tails still read the same. -/
theorem Memory.eq_of_read_eq {m m' : Memory} {lo lo' : Nat} (hm : Memory.wfAbove lo m = true)
    (hm' : Memory.wfAbove lo' m' = true) (hread : ∀ a, m.read a = m'.read a) : m = m' := by
  induction m generalizing m' lo lo' with
  | nil =>
    cases m' with
    | nil => rfl
    | cons c' m' =>
      obtain ⟨-, -, hb, -⟩ := (Memory.wfAbove_cons ..).1 hm'
      exact absurd ((hread c'.1).trans (Memory.read_cons_same ..)).symm hb
  | cons c m ih =>
    obtain ⟨a, b⟩ := c
    obtain ⟨-, -, hb, htail⟩ := (Memory.wfAbove_cons ..).1 hm
    cases m' with
    | nil => exact absurd ((Memory.read_cons_same a b m).symm.trans (hread a)) hb
    | cons c' m' =>
      obtain ⟨a', b'⟩ := c'
      obtain ⟨-, -, hb', htail'⟩ := (Memory.wfAbove_cons ..).1 hm'
      have hle : a ≤ a' := Memory.head_le hm (by rw [hread]; simpa using hb')
      have hge : a' ≤ a := Memory.head_le hm' (by rw [← hread]; simpa using hb)
      obtain rfl : a = a' := Nat.le_antisymm hle hge
      obtain rfl : b = b' := by simpa using hread a
      have htails : ∀ x, Memory.read m x = Memory.read m' x := by
        intro x
        by_cases hx : a = x
        · rw [Memory.read_below htail (by omega), Memory.read_below htail' (by omega)]
        · rw [← Memory.read_cons_other b m hx, ← Memory.read_cons_other b m' hx, hread]
      rw [ih htail htail' htails]

/-- Settles O5. -/
theorem memoryIsDeterminedByItsReads : Obligations.MemoryIsDeterminedByItsReads :=
  fun _ _ hm hm' hread => Memory.eq_of_read_eq hm hm' hread

/-! ## The system state -/

/-- Settles O56. -/
theorem systemStateNeverChanges : Obligations.SystemStateNeverChanges := fun _ _ hstep => step_sameSystem hstep

/-! ## Reset -/

@[simp] theorem Regs.get_reset (r : Reg) : Regs.reset.get r = 0 := by cases r <;> rfl

/-- Settles O1: each value is the field's of `State.reset`. -/
theorem resetValues : Obligations.ResetValues :=
  ⟨rfl, rfl, rfl, rfl, Regs.get_reset, rfl, rfl, rfl, fun _ => rfl, fun _ => rfl, rfl⟩

/-! ## General registers -/

/-- Settles O3: the register file's two laws, and the numbering is a bijection. -/
theorem registersAreSixteenIndependentWords : Obligations.RegistersAreSixteenIndependentWords :=
  ⟨State.reg_setReg, Reg.ofNum_num, Reg.num_ofNum, rfl⟩

/-- The low 32 bits, zero-extended, are the value modulo 2^32 (10_state.md R26). -/
theorem toNat_opLow_d32 (v : Word) : (opLow .d32 v).toNat = v.toNat % 2 ^ 32 := by
  simp only [opLow, zext32, trunc32, BitVec.toNat_setWidth]
  omega

/-- Settles O4: a sized write is a whole write of `opLow` of the value. -/
theorem write32ZeroExtends : Obligations.Write32ZeroExtends := by
  intro s r r' v
  refine ⟨?_, ?_, ?_, toNat_opLow_d32 _⟩
  · rw [State.reg_setRegSized, if_pos rfl, toNat_opLow_d32]
  · intro hne
    rw [State.reg_setRegSized, if_neg hne]
  · rw [State.reg_setRegSized, if_pos rfl, opLow]

/-! ## The submode (10_state.md R22) -/

/-- Settles O57: the table of `submodeOf`, mode by mode; in long mode by the L and D bits. -/
theorem submodeSelection : Obligations.SubmodeSelection := by
  intro m l d
  cases m with
  | long => cases l <;> cases d <;> decide
  | legacyProtected => simp [submodeOf]
  | virtual8086 => simp [submodeOf]
  | real => simp [submodeOf]

end Sys2Proof.Machine
end

section
/-! SUPPORT. Proofs of the statements on memory: reads and writes, the canonical form and the checks of a reference, the
address sums of the modes, where a data reference stops, and what no run changes (20_memory.md). -/

namespace Sys2Proof.Machine

/-! ## What no run changes (20_memory.md R75, R88, R94) -/

/-- A run of one step more is a step and then the run. -/
theorem run_succ_next {M : Host.Core} {n : Nat} {s t : M.State} (h : M.run (n + 1) s = .next t) :
    ∃ u, M.step s = .next u ∧ M.run n u = .next t := by
  rw [Host.Core.run] at h
  split at h
  · exact ⟨_, ‹_›, h⟩
  · cases h
  · cases h

/-- A reflexive and transitive relation that every step keeps is kept by every run. -/
theorem run_keeps {M : Host.Core} (R : M.State → M.State → Prop) (hrefl : ∀ s, R s s)
    (htrans : ∀ {s u t}, R s u → R u t → R s t) (hstep : ∀ {s t}, M.step s = .next t → R s t) {n : Nat}
    {s t : M.State} (h : M.run n s = .next t) : R s t := by
  induction n generalizing s with
  | zero => cases h; exact hrefl _
  | succ n ih =>
    obtain ⟨u, hu, hrun⟩ := run_succ_next h
    exact htrans (hstep hu) (ih hrun)

/-- The launch parameters are the same, and so is every byte in `CodeRange` or outside `Mapped`. -/
def KeepsUnwritable (s t : State) : Prop :=
  t.cfg = s.cfg ∧
    ∀ a, inRegions s.cfg.codeRange a = true ∨ inRegions s.cfg.mapped a = false → t.mem.read a = s.mem.read a

/-- Every byte that `t` does not record as stored is not recorded in `s` either, and is the same in both. -/
def KeepsNotStored (s t : State) : Prop :=
  ∀ a, t.wrote a = false → s.wrote a = false ∧ t.mem.read a = s.mem.read a

/-- A step's one store is to writable bytes, so it leaves the others as they were. -/
theorem step_keepsUnwritable {s t : State} (h : step s = .next t) : KeepsUnwritable s t := by
  obtain ⟨-, -, -, -, -, -, -, hcfg⟩ := step_sameSystem h
  refine ⟨hcfg, fun a ha => ?_⟩
  obtain ⟨k, rfl⟩ | ⟨-, -, ⟨hmem, -⟩ | ⟨la, n, v, hw, hmem, -⟩⟩ := step_effect h
  · rfl
  · rw [hmem]
  · have houtside : ¬ (la.toNat ≤ a ∧ a < la.toNat + n) := by
      rintro ⟨hlo, hhi⟩
      obtain ⟨hmapped, hcode⟩ := Writable.mem_data hw hlo hhi
      simp [hmapped, hcode] at ha
    rw [hmem]
    exact (stored_outside s la n v a houtside).1

theorem KeepsUnwritable.trans {s u t : State} (h : KeepsUnwritable s u) (h' : KeepsUnwritable u t) :
    KeepsUnwritable s t := by
  obtain ⟨hcfg, hread⟩ := h
  obtain ⟨hcfg', hread'⟩ := h'
  rw [hcfg] at hcfg' hread'
  exact ⟨hcfg', fun a ha => (hread' a ha).trans (hread a ha)⟩

theorem KeepsNotStored.trans {s u t : State} (h : KeepsNotStored s u) (h' : KeepsNotStored u t) :
    KeepsNotStored s t := fun a ha => by
  obtain ⟨hu, hread'⟩ := h' a ha
  obtain ⟨hs, hread⟩ := h a hu
  exact ⟨hs, hread'.trans hread⟩

theorem run_keepsUnwritable {n : Nat} {s t : State} (h : Sys2Proof.core.run n s = .next t) : KeepsUnwritable s t :=
  run_keeps KeepsUnwritable (fun _ => ⟨rfl, fun _ _ => rfl⟩) KeepsUnwritable.trans step_keepsUnwritable h

theorem run_keepsNotStored {n : Nat} {s t : State} (h : Sys2Proof.core.run n s = .next t) : KeepsNotStored s t :=
  run_keeps KeepsNotStored (fun _ _ ha => ⟨ha, rfl⟩) KeepsNotStored.trans
    (fun hstep _ ha => step_not_stored hstep ha) h

/-- Settles O55: by induction over the run; a fetched byte is one the run has not stored to. -/
theorem codeAndUnmappedBytesNeverChange : Obligations.CodeAndUnmappedBytesNeverChange := by
  intro n s t hrun
  refine ⟨(run_keepsUnwritable hrun).2, fun k b hfetch => ?_⟩
  obtain ⟨hnotStored, hb⟩ := fetchByte_eq_ok hfetch
  exact hb.trans (run_keepsNotStored hrun _ hnotStored).2

/-! ## Where a data reference stops (60_exceptions.md R305, 20_memory.md R82, R86, R87) -/

/-- `o` is the exception of the first check that the reference `d` of an instruction at `s` fails: canonical form, then
`Mapped`, then, for a store, `CodeRange`. -/
def StopsAtFirstFailedCheck (s : State) (d : DataRef) (o : Host.Outcome State Fault Refusal) : Prop :=
  (¬ CanonicalRef s d.la d.size → o = .next (Raised (if d.seg = .ss then .ss else .gp) s)) ∧
  (CanonicalRef s d.la d.size → ¬ MappedRef s d.la d.size → o = .next (Raised .unmapped s)) ∧
  (d.isStore = true → Readable s d.la d.size → ¬ OutsideCode s d.la d.size → o = .next (Raised .codeWrite s))

/-- What `store_cases` and its like say of an outcome, but for what a completed store does. -/
theorem stops_of_store_cases {s : State} {d : DataRef} {o : Host.Outcome State Fault Refusal}
    (h : Writable s d.la d.size ∨
      (¬ CanonicalRef s d.la d.size ∧ o = .next (Raised (canonicalFault d.seg) s)) ∨
      (CanonicalRef s d.la d.size ∧ ¬ MappedRef s d.la d.size ∧ o = .next (Raised .unmapped s)) ∨
      (Readable s d.la d.size ∧ ¬ OutsideCode s d.la d.size ∧ o = .next (Raised .codeWrite s))) :
    StopsAtFirstFailedCheck s d o := by
  rw [canonicalFault_eq] at h
  obtain ⟨⟨hc, hm⟩, ho⟩ | ⟨hc, hout⟩ | ⟨hc, hm, hout⟩ | ⟨⟨hc, hm⟩, ho, hout⟩ := h
  · exact ⟨fun hn => absurd hc hn, fun _ hn => absurd hm hn, fun _ _ hn => absurd ho hn⟩
  · exact ⟨fun _ => hout, fun h => absurd h hc, fun _ h => absurd h.1 hc⟩
  · exact ⟨fun hn => absurd hc hn, fun _ _ => hout, fun _ h => absurd h.2 hm⟩
  · exact ⟨fun hn => absurd hc hn, fun _ hn => absurd hm hn, fun _ _ _ => hout⟩

/-- The same for `load_cases` and its like; a load has no `CodeRange` check. -/
theorem stops_of_load_cases {s : State} {d : DataRef} {o : Host.Outcome State Fault Refusal}
    (hload : d.isStore = false)
    (h : Readable s d.la d.size ∨
      (¬ CanonicalRef s d.la d.size ∧ o = .next (Raised (canonicalFault d.seg) s)) ∨
      (CanonicalRef s d.la d.size ∧ ¬ MappedRef s d.la d.size ∧ o = .next (Raised .unmapped s))) :
    StopsAtFirstFailedCheck s d o := by
  have hcode (h : d.isStore = true) : False := by simp [hload] at h
  rw [canonicalFault_eq] at h
  obtain ⟨hc, hm⟩ | ⟨hc, hout⟩ | ⟨hc, hm, hout⟩ := h
  · exact ⟨fun hn => absurd hc hn, fun _ hn => absurd hm hn, fun h => (hcode h).elim⟩
  · exact ⟨fun _ => hout, fun h => absurd h hc, fun h => (hcode h).elim⟩
  · exact ⟨fun hn => absurd hc hn, fun _ _ => hout, fun h => (hcode h).elim⟩

theorem movToRm_stops {s : State} {nx : Word} {n : OpSize} {o : RegMem} {d : DataRef} (v : Word)
    (hd : rmRef s nx (opBytes n) true o = some d) : StopsAtFirstFailedCheck s d (movToRm s nx n o v) := by
  cases o with
  | reg r => cases hd
  | mem p m => cases hd; exact stops_of_store_cases ((movToRm_mem_cases s nx n p m v).imp_left And.left)

theorem movFromRm_stops {s : State} {nx : Word} {n : OpSize} {o : RegMem} {d : DataRef} (r : Reg)
    (hd : rmRef s nx (opBytes n) false o = some d) : StopsAtFirstFailedCheck s d (movFromRm s nx n r o) := by
  cases o with
  | reg r' => cases hd
  | mem p m => cases hd; exact stops_of_load_cases rfl ((movFromRm_mem_cases s nx n r p m).imp_left And.left)

theorem movFromMoffs_stops (s : State) (nx : Word) (n : OpSize) (o : Moffs) :
    StopsAtFirstFailedCheck s ⟨moffsSeg o, moffsLinear s o, opBytes n, false⟩ (movFromMoffs s nx n o) :=
  stops_of_load_cases rfl ((movFromMoffs_cases s nx n o).imp_left And.left)

theorem movToMoffs_stops (s : State) (nx : Word) (n : OpSize) (o : Moffs) :
    StopsAtFirstFailedCheck s ⟨moffsSeg o, moffsLinear s o, opBytes n, true⟩ (movToMoffs s nx n o) :=
  stops_of_store_cases ((movToMoffs_cases s nx n o).imp_left And.left)

/-- CALL checks its target first (43_stack_and_control.md R264). -/
theorem execCallRel32_stops {s : State} {rel : BitVec 32} (htarget : canonical s.cfg (callTarget rel s) = true) :
    StopsAtFirstFailedCheck s ⟨.ss, pushSlot s, 8, true⟩ (execCallRel32 rel s) := by
  obtain ⟨hbad, -⟩ | ⟨-, h⟩ | ⟨-, h⟩ | ⟨-, h⟩ | ⟨-, h⟩ := execCallRel32_cases rel s
  · simp [htarget] at hbad
  · exact stops_of_store_cases (.inl h.1)
  · exact stops_of_store_cases (.inr (.inl h))
  · exact stops_of_store_cases (.inr (.inr (.inl h)))
  · exact stops_of_store_cases (.inr (.inr (.inr h)))

/-- RET checks the loaded target after its reference (R265). -/
theorem execRet_stops (s : State) : StopsAtFirstFailedCheck s ⟨.ss, s.reg .rsp, 8, false⟩ (execRet s) := by
  obtain h | h | ⟨h, -⟩ | ⟨h, -⟩ := execRet_cases s
  · exact stops_of_load_cases rfl (.inr (.inl h))
  · exact stops_of_load_cases rfl (.inr (.inr h))
  · exact stops_of_load_cases rfl (.inl h)
  · exact stops_of_load_cases rfl (.inl h)

/-- Settles O42: instruction by instruction, from what its shared meaning can answer. -/
theorem dataReferenceFaults : Obligations.DataReferenceFaults := by
  intro s i d hd htarget
  change StopsAtFirstFailedCheck s d (exec i s)
  cases i with
  | movRm32R32 rex o r => exact movToRm_stops _ hd
  | movRm64R64 o r => exact movToRm_stops _ hd
  | movRm32Imm32 rex o v => exact movToRm_stops _ hd
  | movRm64Imm32 o v => exact movToRm_stops _ hd
  | movR32Rm32 rex r o => exact movFromRm_stops r hd
  | movR64Rm64 r o => exact movFromRm_stops r hd
  | movEaxMoffs rex o => cases hd; exact movFromMoffs_stops s _ .d32 o
  | movRaxMoffs o => cases hd; exact movFromMoffs_stops s _ .q64 o
  | movMoffsEax rex o => cases hd; exact movToMoffs_stops s _ .d32 o
  | movMoffsRax o => cases hd; exact movToMoffs_stops s _ .q64 o
  | pushR64 rex r => cases hd; exact stops_of_store_cases ((execPushR64_cases rex r s).imp_left And.left)
  | popR64 rex r => cases hd; exact stops_of_load_cases rfl ((execPopR64_cases rex r s).imp_left And.left)
  | callRel32 rel => cases hd; exact execCallRel32_stops (htarget _ rfl)
  | ret => cases hd; exact execRet_stops s
  | leaR32M rex a r m => cases hd
  | leaR64M a r m => cases hd
  | movR64Imm64 r v => cases hd
  | movR32Imm32 rex r v => cases hd
  | intImm8 => cases hd
  | iret => cases hd
  | jmpRel32 rel => cases hd
  | jmpRel8 rel => cases hd

/-! ## Reads (20_memory.md R74) -/

theorem memRead_ok {s : State} {la : Word} {n : Nat} (h : MappedRef s la n) :
    memRead s la n = .ok (loaded s la n) := if_pos ((allMapped_iff s la n).2 h)

theorem memRead_unmapped {s : State} {la : Word} {n : Nat} (h : ¬ MappedRef s la n) :
    memRead s la n = .error .unmapped := if_neg fun hm => h ((allMapped_iff s la n).1 hm)

/-- Settles O6. -/
theorem memReadIsLittleEndian : Obligations.MemReadIsLittleEndian := by
  intro s la n hn
  refine ⟨fun hm => ⟨loaded s la n, memRead_ok hm, fun k hk => ?_, loaded_lt s la n⟩, memRead_unmapped⟩
  exact byteOf_loaded s la hk (by omega)

/-! ## Writes (20_memory.md R75) -/

theorem memWrite_ok {s : State} {la : Word} {n : Nat} (v : Word) (hm : MappedRef s la n) (hc : OutsideCode s la n) :
    memWrite s la n v = .ok (stored s la n v) := by
  simp [memWrite, (allMapped_iff s la n).2 hm, (touchesCode_eq_false_iff s la n).2 hc]

theorem memWrite_unmapped {s : State} {la : Word} {n : Nat} (v : Word) (hm : ¬ MappedRef s la n) :
    memWrite s la n v = .error .unmapped := by
  rw [← allMapped_iff] at hm
  simp [memWrite, hm]

theorem memWrite_codeWrite {s : State} {la : Word} {n : Nat} (v : Word) (hm : MappedRef s la n)
    (hc : ¬ OutsideCode s la n) : memWrite s la n v = .error .codeWrite := by
  rw [← touchesCode_eq_false_iff] at hc
  simp [memWrite, (allMapped_iff s la n).2 hm, hc]

/-- A write that completes was of mapped bytes, and its state is the one with the bytes stored. -/
theorem memWrite_eq_ok {s t : State} {la : Word} {n : Nat} {v : Word} (h : memWrite s la n v = .ok t) :
    MappedRef s la n ∧ t = stored s la n v := by
  by_cases hm : MappedRef s la n
  · by_cases hc : OutsideCode s la n
    · rw [memWrite_ok v hm hc] at h
      exact ⟨hm, by simpa using h.symm⟩
    · rw [memWrite_codeWrite v hm hc] at h
      cases h
  · rw [memWrite_unmapped v hm] at h
    cases h

/-- Settles O7. -/
theorem memWriteChangesItsBytesOnly : Obligations.MemWriteChangesItsBytesOnly := by
  intro s la n v hwf hn hcanonical
  refine ⟨fun hm hc => ⟨stored s la n v, memWrite_ok v hm hc, storesBytes_stored v hwf hcanonical, rfl⟩, ?_, ?_⟩
  · exact memWrite_unmapped v
  · exact memWrite_codeWrite v

/-! ## A read inside a write (20_memory.md R78) -/

/-- A value of `m` bytes that are bytes `j`, …, `j + m - 1` of `v` is those bits of `v`. -/
theorem toNat_eq_slice {v x : Word} {j m : Nat} (hx : x.toNat < 2 ^ (8 * m))
    (h : ∀ k, k < m → byteOf x k = byteOf v (j + k)) : x.toNat = v.toNat / 2 ^ (8 * j) % 2 ^ (8 * m) := by
  apply Nat.eq_of_testBit_eq
  intro i
  rw [Nat.testBit_mod_two_pow, Nat.testBit_div_two_pow]
  by_cases hi : i < 8 * m
  · have hbit := congrArg (fun b : Byte => b.getLsbD (i % 8)) (h (i / 8) (by omega))
    have hlt : i % 8 < 8 := by omega
    simp only [byteOf, BitVec.getLsbD_extractLsb', hlt, decide_true, Bool.true_and] at hbit
    rw [show 8 * (i / 8) + i % 8 = i by omega, show 8 * (j + i / 8) + i % 8 = 8 * j + i by omega] at hbit
    simpa [hi, BitVec.testBit_toNat, Nat.add_comm] using hbit
  · simpa [hi] using Nat.testBit_lt_two_pow (hx.trans_le (Nat.pow_le_pow_right (by omega) (by omega)))

/-- An offset that stays below 2^64 is added without wrapping. -/
theorem toNat_add_offset {la : Word} {j : Nat} (h : la.toNat + j < 2 ^ 64) :
    (la + BitVec.ofNat 64 j).toNat = la.toNat + j := by
  rw [BitVec.toNat_add, BitVec.toNat_ofNat]
  omega

/-- The bytes stored below 2^64 stand there. -/
theorem stored_holds_of_le {s : State} {la : Word} {n : Nat} (v : Word) (hwf : Memory.wf s.mem = true)
    (hla : la.toNat + n ≤ 2 ^ 64) : HoldsBytes (stored s la n v) la n v := fun k hk => by
  have hlen : k < (leBytes n v).length := by simpa using hk
  exact (Memory.read_writeBytes_inside hwf (by simpa using hla) hlen).trans (getElem_leBytes n v k hlen)

/-- Settles O8: byte `k` of the value read is byte `j + k` of the value written. A read of no byte is 0. -/
theorem mixedWidthReadSeesTheBytesWritten : Obligations.MixedWidthReadSeesTheBytesWritten := by
  intro s t la v j m hwf hla hjm hwrite
  obtain ⟨hmapped, rfl⟩ := memWrite_eq_ok hwrite
  have haddr (hm : 0 < m) : (la + BitVec.ofNat 64 j).toNat = la.toNat + j := toNat_add_offset (by omega)
  have hread : MappedRef (stored s la 8 v) (la + BitVec.ofNat 64 j) m := fun k hk => by
    rw [haddr (by omega), Nat.add_assoc]
    exact hmapped (j + k) (by omega)
  refine ⟨_, memRead_ok hread, toNat_eq_slice (loaded_lt ..) fun k hk => ?_⟩
  rw [byteOf_loaded _ _ hk (by omega), haddr (by omega), Nat.add_assoc]
  exact stored_holds_of_le v hwf hla (j + k) (by omega)

/-! ## The canonical form (20_memory.md R80) -/

theorem ushiftRight_eq_iff (a b : Word) (n : Nat) :
    a >>> n = b >>> n ↔ ∀ i, n ≤ i → i < 64 → a.getLsbD i = b.getLsbD i := by
  constructor
  · intro h i hn _
    simpa [Nat.add_sub_cancel' hn] using congrArg (fun w : Word => w.getLsbD (i - n)) h
  · intro h
    apply BitVec.eq_of_getLsbD_eq
    intro i _
    rw [BitVec.getLsbD_ushiftRight, BitVec.getLsbD_ushiftRight]
    by_cases hi : n + i < 64
    · exact h (n + i) (by omega) hi
    · rw [BitVec.getLsbD_of_ge a _ (by omega), BitVec.getLsbD_of_ge b _ (by omega)]

theorem canonical_iff_bits (c : Config) (a : Word) :
    canonical c a = true ↔
      (∀ i, c.vaTop.val ≤ i → i < 64 → a.getLsbD i = false) ∨
        (∀ i, c.vaTop.val ≤ i → i < 64 → a.getLsbD i = true) := by
  simp only [canonical, Bool.or_eq_true, beq_iff_eq]
  refine or_congr ?_ ?_
  · simpa using ushiftRight_eq_iff a 0#64 c.vaTop.val
  · rw [ushiftRight_eq_iff]
    exact forall₃_congr fun i _ hi => by rw [BitVec.getLsbD_allOnes, decide_eq_true hi]

/-- The high bits are 0 exactly when the value is below their weight. -/
theorem high_bits_false_iff (a : Word) (n : Nat) :
    (∀ i, n ≤ i → i < 64 → a.getLsbD i = false) ↔ a.toNat < 2 ^ n := by
  constructor
  · intro h
    refine Nat.lt_pow_two_of_testBit _ fun i hi => ?_
    rw [BitVec.testBit_toNat]
    by_cases h64 : i < 64
    · exact h i hi h64
    · exact BitVec.getLsbD_of_ge a i (by omega)
  · intro h i hi _
    rw [← BitVec.testBit_toNat]
    exact Nat.testBit_lt_two_pow (h.trans_le (Nat.pow_le_pow_right (by omega) hi))

/-- The two arms as numbers: the low 2^(VA_BITS-1) addresses, and as many at the top of the space. -/
theorem canonical_iff_toNat (c : Config) (a : Word) :
    canonical c a = true ↔ a.toNat < 2 ^ c.vaTop.val ∨ 2 ^ 64 ≤ a.toNat + 2 ^ c.vaTop.val := by
  rw [canonical_iff_bits]
  refine or_congr (high_bits_false_iff a _) ?_
  have hones : (∀ i, c.vaTop.val ≤ i → i < 64 → a.getLsbD i = true) ↔ (~~~a).toNat < 2 ^ c.vaTop.val := by
    rw [← high_bits_false_iff]
    exact forall₃_congr fun i _ hi => by simp [hi]
  rw [hones, BitVec.toNat_not]
  have hlt := a.isLt
  omega

/-- The sign extension of the low `n + 1` bits repeats bit `n`. -/
theorem eq_signExtend_iff (a : Word) (n : Nat) :
    a = (a.setWidth (n + 1)).signExtend 64 ↔ ∀ i, n ≤ i → i < 64 → a.getLsbD i = a.getLsbD n := by
  have hbit (i : Nat) (hi : i < 64) :
      ((a.setWidth (n + 1)).signExtend 64).getLsbD i = if i < n + 1 then a.getLsbD i else a.getLsbD n := by
    rw [BitVec.getLsbD_signExtend, BitVec.msb_eq_getLsbD_last]
    by_cases h : i < n + 1 <;> simp [h, hi]
  constructor
  · intro h i hni hi
    have hi' := congrArg (fun w : Word => w.getLsbD i) h
    rw [hbit i hi] at hi'
    split at hi'
    · rw [show i = n by omega]
    · exact hi'
  · intro h
    apply BitVec.eq_of_getLsbD_eq
    intro i hi
    rw [hbit i hi]
    split
    · rfl
    · exact h i (by omega) hi

/-- Settles O9. -/
theorem canonicalForm : Obligations.CanonicalForm := by
  intro c a
  refine ⟨canonical_iff_bits c a, ?_, fun h48 => ?_, fun h64 => ?_⟩
  · rw [canonical_iff_bits, Config.vaBits, eq_signExtend_iff]
    constructor
    · rintro (h | h) i hi hi64 <;> rw [h i hi hi64, h _ le_rfl c.vaTop.isLt]
    · intro h
      cases hb : a.getLsbD c.vaTop.val with
      | false => exact .inl fun i hi hi64 => (h i hi hi64).trans hb
      | true => exact .inr fun i hi hi64 => (h i hi hi64).trans hb
  · have htop : c.vaTop.val = 47 := by rw [Config.vaBits] at h48; omega
    rw [canonical_iff_toNat, htop]
    omega
  · have htop : c.vaTop.val = 63 := by rw [Config.vaBits] at h64; omega
    rw [canonical_iff_toNat, htop]
    omega

/-! ## The linear address of 64-bit mode and its check (20_memory.md R82, R84 to R86) -/

/-- Settles O10. -/
theorem linearAddress : Obligations.LinearAddress := by
  intro s ea
  refine ⟨?_, rfl, rfl, fun seg => BitVec.toNat_add ..⟩
  have hzero : (0 : Word) + ea = ea := BitVec.zero_add ea
  rintro seg (rfl | rfl | rfl | rfl) <;> exact ⟨rfl, hzero⟩

/-- Settles O11. -/
theorem checkedAddressOrException : Obligations.CheckedAddressOrException := by
  intro s seg ea n
  refine ⟨checkedAddr_ok, fun h => ?_⟩
  rw [checkedAddr_error h, canonicalFault_eq]

/-! ## The other modes (20_memory.md R62, R68, R69, R71, R83) -/

theorem toNat_protectedLinear (base ea : BitVec 32) :
    (protectedLinear base ea).toNat = (base.toNat + ea.toNat) % 2 ^ 32 := BitVec.toNat_add ..

theorem toNat_compatLinear (base ea : BitVec 32) :
    (compatLinear base ea).toNat = (base.toNat + ea.toNat) % 2 ^ 32 := by
  rw [compatLinear, BitVec.toNat_setWidth, toNat_protectedLinear]
  omega

/-- A compatibility-mode address has bits 63:32 zero (R83). -/
theorem canonical_compatLinear {c : Config} (h : 33 ≤ c.vaBits) (base ea : BitVec 32) :
    canonical c (compatLinear base ea) = true := by
  rw [canonical_iff_toNat, toNat_compatLinear]
  have hpow : 2 ^ 32 ≤ 2 ^ c.vaTop.val := Nat.pow_le_pow_right (by omega) (by rw [Config.vaBits] at h; omega)
  exact .inl ((Nat.mod_lt _ (by omega)).trans_le hpow)

/-- Compatibility and protected mode name the same address: segment base plus effective address modulo 2^32. -/
theorem FarPointer.toNat_linear_compatibility (c : Config) (p : FarPointer) :
    (p.linear c .compatibility).toNat = ((segmentNamed p.selector).base.toNat + p.ea.toNat) % 2 ^ 32 := by
  rw [FarPointer.linear, toNat_compatLinear, BitVec.toNat_setWidth, Nat.add_mod_mod]

theorem FarPointer.linear_legacyProtected (c : Config) (p : FarPointer) :
    p.linear c .legacyProtected = p.linear c .compatibility := rfl

/-- The segments that selectors name are those of the table (R69). -/
theorem segmentNamed_mem (sel : BitVec 16) : segmentNamed sel ∈ List.ofFn Config.segmentTable :=
  List.mem_ofFn.2 ⟨_, rfl⟩

/-- Settles O12. -/
theorem compatibilityAddressesAreCanonical : Obligations.CompatibilityAddressesAreCanonical := by
  refine ⟨toNat_compatLinear, fun c base ea h => canonical_compatLinear h base ea, fun c p => ?_, ?_, ?_⟩
  · rw [FarPointer.linear_legacyProtected]
    exact ⟨FarPointer.toNat_linear_compatibility c p, FarPointer.toNat_linear_compatibility c p⟩
  · exact ⟨List.ofFn Config.segmentTable, (List.length_ofFn ..).le, segmentNamed_mem⟩
  · intro s seg ea h
    rw [State.linearIn, h]
    rfl

/-- The sum of R71 at its largest, FFFFh shifted and FFFFh, is 10FFEFh. -/
theorem realLinear_le (c : Config) (seg ea : BitVec 16) : realLinear c seg ea ≤ 0x10FFEF := by
  have hseg := seg.isLt
  have hea := ea.isLt
  simp only [realLinear]
  split <;> omega

/-- Settles O59. -/
theorem realModeLinearAddress : Obligations.RealModeLinearAddress := by
  intro c seg ea
  have hle := realLinear_le c seg ea
  refine ⟨fun h => ?_, fun h => ?_, hle, ?_⟩
  · simp [realLinear, h]
  · simp [realLinear, h]
  · rw [realPhysical, BitVec.toNat_ofNat]
    omega

end Sys2Proof.Machine
end

section
/-! SUPPORT. The layout of an encoding (30_encoding.md R119, R126, R130): legacy bytes, REX byte, opcode byte and the
bytes after it. `encode` lays out these four parts and `decode` finds them again, so the round trips, the length and the
refusals are each a statement about one part. -/

namespace Sys2Proof

open Machine

/-! ## The parts of an instruction -/

/-- The REX byte of a form that may carry one. -/
def rexIf (rex : Bool) (x : Rex) : Option Rex := if rex then some x else none

/-- 67h, or no legacy byte. -/
def addrPrefix (addr32 : Bool) : Prefixes := if addr32 then .addr32 else .empty

/-- The legacy bytes of an instruction. -/
@[simp] def Instr.legacy : Instr → Prefixes
  | .movRm32R32 _ o _ | .movR32Rm32 _ _ o | .movRm32Imm32 _ o _ => o.pre
  | .movRm64R64 o _ | .movR64Rm64 _ o | .movRm64Imm32 o _ => o.pre
  | .leaR32M _ a _ _ | .leaR64M a _ _ => addrPrefix a
  | .movEaxMoffs _ o | .movMoffsEax _ o | .movRaxMoffs o | .movMoffsRax o => o.pre
  | .pushR64 _ _ | .popR64 _ _ | .movR64Imm64 _ _ | .movR32Imm32 _ _ _ | .ret | .intImm8 | .iret | .callRel32 _
  | .jmpRel32 _ | .jmpRel8 _ => .empty

/-- The REX byte of an instruction, if it carries one. -/
@[simp] def Instr.rexByte : Instr → Option Rex
  | .pushR64 rex r | .popR64 rex r | .movR32Imm32 rex r _ => rexIf rex ⟨false, false, false, r.extended⟩
  | .movRm32R32 rex o r | .movR32Rm32 rex r o => rexIf rex (o.rex false r.extended)
  | .movRm64R64 o r | .movR64Rm64 r o => some (o.rex true r.extended)
  | .leaR32M rex _ r m => rexIf rex (m.rex false r.extended)
  | .leaR64M _ r m => some (m.rex true r.extended)
  | .movEaxMoffs rex _ | .movMoffsEax rex _ => rexIf rex Rex.absent
  | .movRaxMoffs _ | .movMoffsRax _ => some ⟨true, false, false, false⟩
  | .movR64Imm64 r _ => some ⟨true, false, false, r.extended⟩
  | .movRm32Imm32 rex o _ => rexIf rex (o.rex false false)
  | .movRm64Imm32 o _ => some (o.rex true false)
  | .ret | .intImm8 | .iret | .callRel32 _ | .jmpRel32 _ | .jmpRel8 _ => none

/-- The opcode byte of an instruction. -/
@[simp] def Instr.opcode : Instr → Byte
  | .pushR64 _ r => opcodeReg 0b01010 r
  | .popR64 _ r => opcodeReg 0b01011 r
  | .movRm32R32 _ _ _ | .movRm64R64 _ _ => 0x89
  | .movR32Rm32 _ _ _ | .movR64Rm64 _ _ => 0x8B
  | .leaR32M _ _ _ _ | .leaR64M _ _ _ => 0x8D
  | .movEaxMoffs _ _ | .movRaxMoffs _ => 0xA1
  | .movMoffsEax _ _ | .movMoffsRax _ => 0xA3
  | .movR64Imm64 r _ | .movR32Imm32 _ r _ => opcodeReg 0b10111 r
  | .ret => 0xC3
  | .movRm32Imm32 _ _ _ | .movRm64Imm32 _ _ => 0xC7
  | .intImm8 => 0xCD
  | .iret => 0xCF
  | .callRel32 _ => 0xE8
  | .jmpRel32 _ => 0xE9
  | .jmpRel8 _ => 0xEB

/-- The bytes after the opcode byte. -/
@[simp] def Instr.operandBytes : Instr → List Byte
  | .movRm32R32 _ o r | .movRm64R64 o r | .movR32Rm32 _ r o | .movR64Rm64 r o => o.bytes r.low3
  | .leaR32M _ _ r m | .leaR64M _ r m => m.bytes r.low3
  | .movEaxMoffs _ o | .movRaxMoffs o | .movMoffsEax _ o | .movMoffsRax o => o.offsetBytes
  | .movR64Imm64 _ v => leBytes 8 v
  | .movR32Imm32 _ _ v | .callRel32 v | .jmpRel32 v => bytes32 v
  | .movRm32Imm32 _ o v | .movRm64Imm32 o v => o.bytes Reg.rax.low3 ++ bytes32 v
  | .jmpRel8 v => [v]
  | .pushR64 _ _ | .popR64 _ _ | .ret | .intImm8 | .iret => []

/-- The row of the opcode map an instruction belongs to (R130). -/
@[simp] def Instr.op : Instr → Op
  | .pushR64 _ _ => .push
  | .popR64 _ _ => .pop
  | .movRm32R32 _ _ _ | .movRm64R64 _ _ => .movStore
  | .movR32Rm32 _ _ _ | .movR64Rm64 _ _ => .movLoad
  | .leaR32M _ _ _ _ | .leaR64M _ _ _ => .lea
  | .movEaxMoffs _ _ | .movRaxMoffs _ => .moffsLoad
  | .movMoffsEax _ _ | .movMoffsRax _ => .moffsStore
  | .movR64Imm64 _ _ | .movR32Imm32 _ _ _ => .movImm
  | .ret => .ret
  | .movRm32Imm32 _ _ _ | .movRm64Imm32 _ _ => .movRmImm
  | .intImm8 => .int
  | .iret => .iret
  | .callRel32 _ => .call
  | .jmpRel32 _ => .jmp32
  | .jmpRel8 _ => .jmp8

theorem bytes_empty : Prefixes.empty.bytes = [] := rfl

@[simp] theorem bytes_addrPrefix (a : Bool) : (addrPrefix a).bytes = addrBytes a := by cases a <;> rfl
@[simp] theorem hasAddr32_addrPrefix (a : Bool) : (addrPrefix a).hasAddr32 = a := by cases a <;> rfl
@[simp] theorem segOverride_addrPrefix (a : Bool) : (addrPrefix a).segOverride = none := by cases a <;> rfl

theorem rexBytes_rexIf (rex : Bool) (x : Rex) : rexBytes rex x = ((rexIf rex x).map Rex.toByte).toList :=
  rexBytes_eq rex x

/-- The encoder lays out the four parts in order. -/
theorem encode_eq_parts (i : Instr) :
    encode i = i.legacy.bytes ++ ((i.rexByte.map Rex.toByte).toList ++ i.opcode :: i.operandBytes) := by
  cases i <;> simp [encode, rexBytes_rexIf, rexIf, RegMem.prefixBytes_eq, bytes_empty, Reg.low3, Reg.num]

/-! ## The opcode map (R130) -/

/-- An opcode of the map is no legacy byte and no REX byte. -/
theorem not_prefix_of_findRow {op : Byte} {row : OpcodeRow} (h : findRow op = some row) :
    isLegacy op = false ∧ isRex op = false := by
  have hall : ∀ b : Byte, (findRow b).isSome = true → isLegacy b = false ∧ isRex b = false := by decide
  exact hall op (by rw [h]; rfl)

@[simp] theorem lowField_opcodeReg (o : BitVec 5) (r : Reg) : lowField (opcodeReg o r) = r.low3 := by
  cases r <;> revert o <;> decide

/-- The row of the opcode map that an operation has: the operations stand in the order of the rows. -/
def Op.row (o : Op) : OpcodeRow := opcodeRows.getD o.ctorIdx ⟨0, 0, o, false, false, false, Rex.absent⟩

@[simp] theorem op_row (o : Op) : o.row.op = o := by cases o <;> rfl

theorem findRow_pattern (o : Op) : findRow o.row.pattern = some o.row := by cases o <;> rfl

theorem findRow_push (r : Reg) : findRow (opcodeReg 0b01010 r) = some Op.push.row := by cases r <;> rfl
theorem findRow_pop (r : Reg) : findRow (opcodeReg 0b01011 r) = some Op.pop.row := by cases r <;> rfl
theorem findRow_movImm (r : Reg) : findRow (opcodeReg 0b10111 r) = some Op.movImm.row := by cases r <;> rfl

/-- The opcode byte of an instruction selects its own row. -/
theorem findRow_opcode (i : Instr) : findRow i.opcode = some i.op.row := by
  cases i with
  | pushR64 rex r => exact findRow_push r
  | popR64 rex r => exact findRow_pop r
  | movR64Imm64 r v => exact findRow_movImm r
  | movR32Imm32 rex r v => exact findRow_movImm r
  | movRm32R32 | movRm64R64 => exact findRow_pattern .movStore
  | movR32Rm32 | movR64Rm64 => exact findRow_pattern .movLoad
  | leaR32M | leaR64M => exact findRow_pattern .lea
  | movEaxMoffs | movRaxMoffs => exact findRow_pattern .moffsLoad
  | movMoffsEax | movMoffsRax => exact findRow_pattern .moffsStore
  | ret => exact findRow_pattern .ret
  | movRm32Imm32 | movRm64Imm32 => exact findRow_pattern .movRmImm
  | intImm8 => exact findRow_pattern .int
  | iret => exact findRow_pattern .iret
  | callRel32 => exact findRow_pattern .call
  | jmpRel32 => exact findRow_pattern .jmp32
  | jmpRel8 => exact findRow_pattern .jmp8

/-- An opcode of the map selects the row of its operation. -/
theorem eq_row_of_findRow {op : Byte} {row : OpcodeRow} (h : findRow op = some row) : row = row.op.row := by
  have hall : ∀ r ∈ opcodeRows, r = r.op.row := by decide
  exact hall row (List.mem_of_find?_eq_some h)

/-- A row lists the legacy bytes `p` and every bit of the REX byte `x` (R132, reason 3). -/
structure OpcodeRow.Admits (row : OpcodeRow) (p : Prefixes) (x : Option Rex) : Prop where
  addr : p.hasAddr32 = true → row.addr = true
  seg : p.segOverride.isSome = true → row.seg = true
  rexAny : x.isSome = true → row.rexAny = true
  bitW : (x.getD Rex.absent).w = true → row.rex.w = true
  bitR : (x.getD Rex.absent).r = true → row.rex.r = true
  bitX : (x.getD Rex.absent).x = true → row.rex.x = true
  bitB : (x.getD Rex.absent).b = true → row.rex.b = true

theorem OpcodeRow.Admits.check {row : OpcodeRow} {p : Prefixes} {x : Option Rex} (h : row.Admits p x) :
    row.check p x = none := by
  obtain ⟨haddr, hseg, hany, hw, hr, hx, hb⟩ := h
  have hlegacy : ¬ (p.hasAddr32 && !row.addr || p.segOverride.isSome && !row.seg) = true := by
    simpa using ⟨haddr, hseg⟩
  unfold OpcodeRow.check
  rw [if_neg hlegacy]
  cases x with
  | none => rfl
  | some y => exact if_neg (by simp_all)

theorem OpcodeRow.admits_of_check {row : OpcodeRow} {p : Prefixes} {x : Option Rex} (h : row.check p x = none) :
    row.Admits p x := by
  obtain ⟨haddr, hseg, hrex⟩ := OpcodeRow.check_eq_none h
  cases x with
  | none => exact ⟨haddr, hseg, nofun, nofun, nofun, nofun, nofun⟩
  | some y =>
    obtain ⟨hany, hw, hr, hx, hb⟩ := hrex y rfl
    exact ⟨haddr, hseg, fun _ => hany, hw, hr, hx, hb⟩

/-- Where a row admits a REX byte it admits the same legacy bytes without it. -/
theorem OpcodeRow.Admits.rexIf {row : OpcodeRow} {p : Prefixes} {y : Rex} (h : row.Admits p (some y)) (rex : Bool) :
    row.Admits p (rexIf rex y) := by
  cases rex with
  | true => exact h
  | false => exact ⟨h.addr, h.seg, nofun, nofun, nofun, nofun, nofun⟩

/-- A row that lists everything admits everything. -/
theorem OpcodeRow.admits_of_all {row : OpcodeRow} (p : Prefixes) (x : Option Rex) (haddr : row.addr = true)
    (hseg : row.seg = true) (hany : row.rexAny = true) (hrex : row.rex = ⟨true, true, true, true⟩) :
    row.Admits p x := by
  constructor <;> simp [haddr, hseg, hany, hrex]

theorem admits_lea {p : Prefixes} (x : Option Rex) (h : p.segOverride = none) : Op.lea.row.Admits p x :=
  ⟨fun _ => rfl, by simp [h], fun _ => rfl, fun _ => rfl, fun _ => rfl, fun _ => rfl, fun _ => rfl⟩

theorem admits_movRmImm (p : Prefixes) {x : Option Rex} (h : (x.getD Rex.absent).r = false) :
    Op.movRmImm.row.Admits p x :=
  ⟨fun _ => rfl, fun _ => rfl, fun _ => rfl, fun _ => rfl, by simp [h], fun _ => rfl, fun _ => rfl⟩

theorem admits_push (x : Bool) : Op.push.row.Admits .empty (some ⟨false, false, false, x⟩) :=
  ⟨id, id, fun _ => rfl, id, id, id, fun _ => rfl⟩

theorem admits_pop (x : Bool) : Op.pop.row.Admits .empty (some ⟨false, false, false, x⟩) :=
  ⟨id, id, fun _ => rfl, id, id, id, fun _ => rfl⟩

theorem admits_movImm (w b : Bool) : Op.movImm.row.Admits .empty (some ⟨w, false, false, b⟩) :=
  ⟨id, id, fun _ => rfl, fun _ => rfl, id, id, fun _ => rfl⟩

theorem admits_moffsLoad (p : Prefixes) (w : Bool) : Op.moffsLoad.row.Admits p (some ⟨w, false, false, false⟩) :=
  ⟨fun _ => rfl, fun _ => rfl, fun _ => rfl, fun _ => rfl, id, id, id⟩

theorem admits_moffsStore (p : Prefixes) (w : Bool) : Op.moffsStore.row.Admits p (some ⟨w, false, false, false⟩) :=
  ⟨fun _ => rfl, fun _ => rfl, fun _ => rfl, fun _ => rfl, id, id, id⟩

/-- The row of an instruction admits its legacy bytes and its REX byte. -/
theorem admits_parts (i : Instr) : i.op.row.Admits i.legacy i.rexByte := by
  cases i with
  | pushR64 rex r => exact (admits_push _).rexIf rex
  | popR64 rex r => exact (admits_pop _).rexIf rex
  | movR32Imm32 rex r v => exact (admits_movImm _ _).rexIf rex
  | movR64Imm64 r v => exact admits_movImm _ _
  | movRm32R32 | movRm64R64 => exact OpcodeRow.admits_of_all _ _ rfl rfl rfl rfl
  | movR32Rm32 | movR64Rm64 => exact OpcodeRow.admits_of_all _ _ rfl rfl rfl rfl
  | leaR32M | leaR64M => exact admits_lea _ (segOverride_addrPrefix _)
  | movEaxMoffs rex o => exact (admits_moffsLoad _ _).rexIf rex
  | movMoffsEax rex o => exact (admits_moffsStore _ _).rexIf rex
  | movRaxMoffs => exact admits_moffsLoad _ _
  | movMoffsRax => exact admits_moffsStore _ _
  | movRm32Imm32 rex o v => exact (admits_movRmImm _ (x := some (o.rex false false)) rfl).rexIf rex
  | movRm64Imm32 o v => exact admits_movRmImm _ rfl
  | ret | intImm8 | iret | callRel32 | jmpRel32 | jmpRel8 => exact ⟨id, id, id, id, id, id, id⟩

/-! ## Encoded, then decoded -/

/-- A REX byte that is left out has no bit set. -/
theorem getD_rexIf {rex : Bool} {y : Rex} (h : rex = false → y = Rex.absent) : (rexIf rex y).getD Rex.absent = y := by
  cases rex with
  | true => rfl
  | false => exact (h rfl).symm

theorem w_absent : Rex.absent.w = false := rfl

@[simp] theorem isSome_rexIf (rex : Bool) (y : Rex) : (rexIf rex y).isSome = rex := by cases rex <;> rfl

theorem rexOk_iff {rex ext : Bool} : rexOk rex ext = true ↔ (rex = false → ext = false) := by
  cases rex <;> cases ext <;> decide

/-- The REX bits of a form with a register in the opcode byte. -/
theorem getD_rexIf_reg {rex : Bool} {r : Reg} (h : rexOk rex r.extended = true) :
    (rexIf rex ⟨false, false, false, r.extended⟩).getD Rex.absent = ⟨false, false, false, r.extended⟩ :=
  getD_rexIf fun hrex => by rw [rexOk_iff.1 h hrex]; rfl

/-- The REX bits of a form with a ModRM byte. -/
theorem getD_rexIf_rm {rex ext : Bool} {o : RegMem} (h : rexOk rex (ext || o.extended) = true) :
    (rexIf rex (o.rex false ext)).getD Rex.absent = o.rex false ext := by
  refine getD_rexIf fun hrex => ?_
  have hnone := rexOk_iff.1 h hrex
  simp only [RegMem.extended, Bool.or_eq_false_iff] at hnone
  obtain ⟨hext, hb, hx⟩ := hnone
  simp [RegMem.rex, Rex.absent, hext, hb, hx]

theorem getD_rexIf_mem {rex ext : Bool} {m : MemOperand}
    (h : rexOk rex (ext || m.baseExtended || m.indexExt) = true) :
    (rexIf rex (m.rex false ext)).getD Rex.absent = m.rex false ext :=
  getD_rexIf_rm (o := .mem .empty m) (by rw [← h, Bool.or_assoc]; rfl)

/-- The ModRM group of an operand is read back, behind the REX byte that its registers need. -/
theorem decodeModRM_encoded (bad : BitVec 2 → BitVec 3 → Bool) (w : Bool) (r : Reg) (o : RegMem) (rest : List Byte)
    (h : o.wf = true) (hbad : ∀ md, (md = 3#2 → ∃ q, o = .reg q) → bad md r.low3 = false) :
    decodeModRM bad o.pre (o.rex w r.extended) (o.bytes r.low3 ++ rest) = .ok (r, o) rest :=
  decodeModRM_bytes bad r o _ rest h rfl rfl rfl hbad

/-- LEA's operand is memory, so `mod` is not 11. -/
theorem decodeModRM_lea (w a : Bool) (r : Reg) (m : MemOperand) (rest : List Byte) (h : m.wf = true) :
    decodeModRM leaBad (addrPrefix a) (m.rex w r.extended) (m.bytes r.low3 ++ rest) =
      .ok (r, .mem (addrPrefix a) m) rest := by
  refine decodeModRM_encoded leaBad w r (.mem (addrPrefix a) m) rest h fun md hmd => ?_
  have hne : md ≠ 3#2 := fun h3 => by obtain ⟨q, hq⟩ := hmd h3; cases hq
  simpa [leaBad] using hne

/-- C7 has the row /0 only, so its reg field is that of no register beyond RAX. -/
theorem decodeModRM_c7 (w : Bool) (o : RegMem) (rest : List Byte) (h : o.wf = true) :
    decodeModRM c7Bad o.pre (o.rex w false) (o.bytes Reg.rax.low3 ++ rest) = .ok (.rax, o) rest :=
  decodeModRM_encoded c7Bad w .rax o rest h fun _ _ => rfl

/-- The offset field has 4 bytes with 67h, and then the offset fits them (40_addressing.md R176). -/
theorem decodeMoffs_encoded (o : Moffs) (rest : List Byte) (h : o.wf = true) :
    decodeMoffs o.pre (o.offsetBytes ++ rest) = .ok o rest := by
  have hlt : o.offset.toNat < 2 ^ (8 * if o.pre.hasAddr32 then 4 else 8) := by
    simp only [Moffs.wf, Bool.or_eq_true, Bool.not_eq_true', decide_eq_true_eq] at h
    split
    · rename_i h67
      simpa [h67] using h
    · exact o.offset.isLt
  rw [decodeMoffs, Moffs.offsetBytes, takeLe_append _ _ _ (length_leBytes _ _), leWord_leBytes_lt hlt]
  rfl

theorem takeLe_leBytes (v : Word) (rest : List Byte) : takeLe 8 (leBytes 8 v ++ rest) = .ok v rest := by
  rw [takeLe_append _ _ _ (length_leBytes _ _), leWord_leBytes]

@[simp] theorem RegMem.w_rex (w r : Bool) (o : RegMem) : (o.rex w r).w = w := rfl
@[simp] theorem MemOperand.w_rex (w r : Bool) (m : MemOperand) : (m.rex w r).w = w := rfl

/-- What follows the opcode byte is read back. -/
theorem decodeOperands_encoded (i : Instr) (rest : List Byte) (h : i.wf = true) :
    decodeOperands i.op i.opcode i.legacy i.rexByte (i.operandBytes ++ rest) = .ok i rest := by
  cases i with
  | pushR64 rex r | popR64 rex r | movR32Imm32 rex r => simp [decodeOperands, getD_rexIf_reg h]
  | movR64Imm64 r v => simp [decodeOperands, takeLe_leBytes]
  | movRm32R32 rex o r | movR32Rm32 rex r o =>
    obtain ⟨ho, hrex⟩ := (Bool.and_eq_true _ _).mp h
    simp [decodeOperands, getD_rexIf_rm hrex, decodeModRM_encoded anyModReg false r o rest ho fun _ _ => rfl]
  | movRm64R64 o r | movR64Rm64 r o =>
    simp [decodeOperands, decodeModRM_encoded anyModReg true r o rest h fun _ _ => rfl]
  | leaR32M rex a r m =>
    obtain ⟨hm, hrex⟩ := (Bool.and_eq_true _ _).mp h
    simp [decodeOperands, getD_rexIf_mem hrex, decodeModRM_lea false a r m rest hm]
  | leaR64M a r m => simp [decodeOperands, decodeModRM_lea true a r m rest h]
  | movEaxMoffs rex o | movMoffsEax rex o =>
    simp [decodeOperands, getD_rexIf (rex := rex) fun _ => rfl, decodeMoffs_encoded o rest h, w_absent]
  | movRaxMoffs o | movMoffsRax o => simp [decodeOperands, decodeMoffs_encoded o rest h]
  | movRm32Imm32 rex o v =>
    obtain ⟨ho, hrex⟩ := (Bool.and_eq_true _ _).mp h
    simp [decodeOperands, getD_rexIf_rm (ext := false) hrex, decodeModRM_c7 false o _ ho]
  | movRm64Imm32 o v => simp [decodeOperands, decodeModRM_c7 true o _ h]
  | callRel32 | jmpRel32 => simp [decodeOperands]
  | jmpRel8 | ret | intImm8 | iret => rfl

/-- Settles O14: the encoder's four parts are read back one after another, the opcode's row admitting the prefixes. -/
theorem decodeOfEncode : Obligations.DecodeOfEncode := by
  intro i rest hwf
  obtain ⟨hlegacy, hrex⟩ := not_prefix_of_findRow (findRow_opcode i)
  calc decode (encode i ++ rest)
      = decode (i.legacy.bytes ++ ((i.rexByte.map Rex.toByte).toList ++ i.opcode :: (i.operandBytes ++ rest))) := by
        simp [encode_eq_parts]
    _ = decodeOperands i.op.row.op i.opcode i.legacy i.rexByte (i.operandBytes ++ rest) :=
        decode_bytes _ _ _ _ hlegacy hrex _ (findRow_opcode i) (admits_parts i).check
    _ = .ok i rest := by rw [op_row, decodeOperands_encoded i rest hwf]

end Sys2Proof
end

section
/-! SUPPORT. What the decoder reads, encoded again, and the length of what it reads (30_encoding.md R129). -/

namespace Sys2Proof

open Machine

/-! ## Decoded, then encoded -/

/-- The instruction `i` with the bytes `rest` after it stands behind the legacy bytes `p`, the REX byte `x` and the
opcode byte `op` in the bytes `bs`. -/
structure Instr.ReadFrom (i : Instr) (p : Prefixes) (x : Option Rex) (op : Byte) (bs rest : List Byte) : Prop where
  wf : i.wf = true
  legacy : i.legacy = p
  rexByte : i.rexByte = x
  opcode : i.opcode = op
  operandBytes : i.operandBytes ++ rest = bs

/-- A row of one opcode byte is selected by that byte only. -/
theorem eq_pattern_of_findRow {o : Op} {op : Byte} (h : findRow op = some o.row) (hmask : o.row.mask = 0xFF#8) :
    o.row.pattern = op := by
  have hsel : op &&& o.row.mask = o.row.pattern := by simpa [OpcodeRow.selects] using List.find?_some h
  rw [hmask, show (0xFF#8 : Byte) = BitVec.allOnes 8 from rfl, BitVec.and_allOnes] at hsel
  exact hsel.symm

/-- A row with a register field is selected by the upper five bits of the opcode byte; the lower three are the field. -/
theorem opcodeReg_of_findRow {o : Op} {op : Byte} (h : findRow op = some o.row) (hmask : o.row.mask = 0xF8#8)
    (e : Bool) : opcodeReg (o.row.pattern.extractLsb' 3 5) (Reg.ofBits e (lowField op)) = op := by
  have hsel : op &&& o.row.mask = o.row.pattern := by simpa [OpcodeRow.selects] using List.find?_some h
  have hfields : ∀ b : Byte, (b &&& 0xF8#8).extractLsb' 3 5 ++ lowField b = b := by decide
  rw [opcodeReg, Reg.low3_ofBits, ← hsel, hmask, hfields]

/-- A row that lists no legacy byte admits none. -/
theorem OpcodeRow.Admits.eq_empty {row : OpcodeRow} {p : Prefixes} {x : Option Rex} (h : row.Admits p x)
    (haddr : row.addr = false) (hseg : row.seg = false) : p = .empty := by
  have h1 := h.addr
  have h2 := h.seg
  rw [haddr] at h1
  rw [hseg] at h2
  cases p with
  | empty => rfl
  | addr32 | addr32Seg | segAddr32 => exact absurd (h1 rfl) Bool.false_ne_true
  | seg => exact absurd (h2 rfl) Bool.false_ne_true

/-- LEA's row lists 67h only. -/
theorem OpcodeRow.Admits.addrPrefix_eq {row : OpcodeRow} {p : Prefixes} {x : Option Rex} (h : row.Admits p x)
    (hseg : row.seg = false) : addrPrefix p.hasAddr32 = p := by
  have h2 := h.seg
  rw [hseg] at h2
  cases p with
  | empty | addr32 => rfl
  | seg | addr32Seg | segAddr32 => exact absurd (h2 rfl) Bool.false_ne_true

/-- A row that lists no REX byte admits none. -/
theorem OpcodeRow.Admits.eq_none {row : OpcodeRow} {p : Prefixes} {x : Option Rex} (h : row.Admits p x)
    (hany : row.rexAny = false) : x = none := by
  have h1 := h.rexAny
  rw [hany] at h1
  cases x with
  | none => rfl
  | some y => exact absurd (h1 rfl) Bool.false_ne_true

/-- A REX bit that the row does not list is 0. -/
theorem eq_false_of_unlisted {bit listed : Bool} (h : bit = true → listed = true) (hl : listed = false) :
    bit = false := by
  cases bit with
  | false => rfl
  | true => exact absurd ((h rfl).symm.trans hl) Bool.noConfusion

theorem rexIf_isSome {x : Option Rex} {y : Rex} (h : x.getD Rex.absent = y) : rexIf x.isSome y = x := by
  subst h; cases x <;> rfl

/-- A REX bit that is set stands in a REX byte. -/
theorem some_eq_of_w {x : Option Rex} {y : Rex} (h : x.getD Rex.absent = y) (hw : y.w = true) : some y = x := by
  subst h
  cases x with
  | none => cases hw
  | some y => rfl

theorem rexOk_isSome {x : Option Rex} {e : Bool} (h : x = none → e = false) : rexOk x.isSome e = true :=
  rexOk_iff.2 fun hx => h (by simpa using hx)

theorem rexOk_reg {x : Option Rex} {e : Bool} (h : (x.getD Rex.absent).b = e) : rexOk x.isSome e = true :=
  rexOk_isSome fun hx => by subst hx; exact h.symm

theorem rexOk_rm {x : Option Rex} {o : RegMem} {w ext : Bool} (h : x.getD Rex.absent = o.rex w ext) :
    rexOk x.isSome (ext || o.extended) = true := by
  refine rexOk_isSome fun hx => ?_
  subst hx
  obtain ⟨-, hext, hx, hb⟩ := Rex.mk.inj h
  simp [RegMem.extended, ← hext, ← hx, ← hb]

theorem Rex.eq_mk {y : Rex} {w r x b : Bool} (hw : y.w = w) (hr : y.r = r) (hx : y.x = x) (hb : y.b = b) :
    y = ⟨w, r, x, b⟩ := by
  subst hw hr hx hb
  rfl

/-- REX.W stands in a REX byte; without it the byte may be there or not. -/
theorem rm_rex_cases {x : Option Rex} {o : RegMem} {ext : Bool}
    (h : x.getD Rex.absent = o.rex (x.getD Rex.absent).w ext) :
    ((x.getD Rex.absent).w = true ∧ some (o.rex true ext) = x) ∨
    ((x.getD Rex.absent).w = false ∧ rexIf x.isSome (o.rex false ext) = x ∧
      rexOk x.isSome (ext || o.extended) = true) := by
  cases hw : (x.getD Rex.absent).w with
  | true => exact .inl ⟨rfl, some_eq_of_w (hw ▸ h) rfl⟩
  | false => exact .inr ⟨rfl, rexIf_isSome (hw ▸ h), rexOk_rm h⟩

/-- The same for the memory-offset forms, which use no other REX bit. -/
theorem moffs_rex_cases {x : Option Rex} (hr : (x.getD Rex.absent).r = true → false = true)
    (hx : (x.getD Rex.absent).x = true → false = true) (hb : (x.getD Rex.absent).b = true → false = true) :
    ((x.getD Rex.absent).w = true ∧ some ⟨true, false, false, false⟩ = x) ∨
    ((x.getD Rex.absent).w = false ∧ rexIf x.isSome Rex.absent = x) := by
  have hrex {w : Bool} (hw : (x.getD Rex.absent).w = w) := Rex.eq_mk hw (eq_false_of_unlisted hr rfl)
    (eq_false_of_unlisted hx rfl) (eq_false_of_unlisted hb rfl)
  cases hw : (x.getD Rex.absent).w with
  | true => exact .inl ⟨rfl, some_eq_of_w (hrex hw) rfl⟩
  | false => exact .inr ⟨rfl, rexIf_isSome (hrex hw)⟩

/-- The ModRM group, the legacy bytes and the REX bits that an operand read stands for. -/
theorem decodeModRM_read {bad : BitVec 2 → BitVec 3 → Bool} {p : Prefixes} {y : Rex} {bs rest : List Byte} {r : Reg}
    {o : RegMem} (h : decodeModRM bad p y bs = .ok (r, o) rest) :
    o.bytes r.low3 ++ rest = bs ∧ o.wf = true ∧ o.pre = p ∧ y = o.rex y.w r.extended ∧ ∃ md, bad md r.low3 = false := by
  obtain ⟨reg, md, hbs, hwf, hx, hb, hp, hreg, hr, hbad, -⟩ := decodeModRM_ok h
  subst hreg
  refine ⟨hbs.symm, hwf, hp, ?_, md, hbad⟩
  rw [RegMem.rex, hr, hx, hb]

theorem takeLe8_read {bs rest : List Byte} {v : Word} (h : takeLe 8 bs = .ok v rest) : leBytes 8 v ++ rest = bs := by
  obtain ⟨fs, hlen, rfl, rfl⟩ := takeLe_eq_ok h
  rw [← hlen, leBytes_leWord fs (by omega)]

theorem decodeMoffs_read {p : Prefixes} {bs rest : List Byte} {o : Moffs} (h : decodeMoffs p bs = .ok o rest) :
    o.offsetBytes ++ rest = bs ∧ o.wf = true ∧ o.pre = p := by
  simp only [decodeMoffs, Decoded.andThen_eq_ok, Decoded.ok.injEq] at h
  obtain ⟨v, r, hv, rfl, rfl⟩ := h
  obtain ⟨fs, hlen, rfl, rfl⟩ := takeLe_eq_ok hv
  refine ⟨?_, ?_, rfl⟩
  · simp only [Moffs.offsetBytes]
    rw [← hlen, leBytes_leWord fs (by rw [hlen]; split <;> omega)]
  · simp only [Moffs.wf, Bool.or_eq_true, Bool.not_eq_true', decide_eq_true_eq]
    cases h67 : p.hasAddr32 with
    | false => exact .inl rfl
    | true =>
      rw [h67] at hlen
      exact .inr (by simpa [hlen] using leWord_lt fs)

/-! ### Each row of the opcode map -/

section

variable {op : Byte} {p : Prefixes} {x : Option Rex} {bs rest : List Byte} {i : Instr}

theorem readFrom_movImm (hrow : findRow op = some Op.movImm.row) (hadm : Op.movImm.row.Admits p x)
    (h : decodeOperands .movImm op p x bs = .ok i rest) : i.ReadFrom p x op bs rest := by
  have hop := opcodeReg_of_findRow hrow rfl (x.getD Rex.absent).b
  have hp := (hadm.eq_empty rfl rfl).symm
  have hx {w : Bool} (hw : (x.getD Rex.absent).w = w) := Rex.eq_mk hw (eq_false_of_unlisted hadm.bitR rfl)
    (eq_false_of_unlisted hadm.bitX rfl) (Reg.extended_ofBits _ (lowField op)).symm
  cases hw : (x.getD Rex.absent).w with
  | true =>
    simp only [decodeOperands, hw, if_true, Decoded.andThen_eq_ok, Decoded.ok.injEq] at h
    obtain ⟨v, rest', hv, rfl, rfl⟩ := h
    exact ⟨rfl, hp, some_eq_of_w (hx hw) rfl, hop, takeLe8_read hv⟩
  | false =>
    simp only [decodeOperands, hw, Bool.false_eq_true, if_false, Decoded.andThen_eq_ok, Decoded.ok.injEq] at h
    obtain ⟨v, rest', hv, rfl, rfl⟩ := h
    exact ⟨rexOk_reg (congrArg Rex.b (hx hw)), hp, rexIf_isSome (hx hw), hop, (take32_eq_ok hv).symm⟩

theorem readFrom_lea (hrow : findRow op = some Op.lea.row) (hadm : Op.lea.row.Admits p x)
    (h : decodeOperands .lea op p x bs = .ok i rest) : i.ReadFrom p x op bs rest := by
  simp only [decodeOperands, Decoded.andThen_eq_ok] at h
  obtain ⟨⟨r, o⟩, rest', ho, h⟩ := h
  obtain ⟨hbs, hwf, hp, hx, -⟩ := decodeModRM_read ho
  have hop := eq_pattern_of_findRow hrow rfl
  cases o with
  | reg q => cases h
  | mem q m =>
    obtain rfl : q = p := hp
    obtain ⟨rfl, rfl⟩ := Decoded.ok.inj h
    have hp := hadm.addrPrefix_eq rfl
    obtain ⟨hw, hrex⟩ | ⟨hw, hrex, hok⟩ := rm_rex_cases hx
    · rw [hw]
      exact ⟨hwf, hp, hrex, hop, hbs⟩
    · rw [hw]
      refine ⟨(Bool.and_eq_true _ _).mpr ⟨hwf, ?_⟩, hp, hrex, hop, hbs⟩
      rw [Bool.or_assoc]
      exact hok

theorem readFrom_movRmImm (hrow : findRow op = some Op.movRmImm.row) (hadm : Op.movRmImm.row.Admits p x)
    (h : decodeOperands .movRmImm op p x bs = .ok i rest) : i.ReadFrom p x op bs rest := by
  simp only [decodeOperands, Decoded.andThen_eq_ok, Decoded.ok.injEq] at h
  obtain ⟨⟨r, o⟩, rest', ho, v, rest'', hv, rfl, rfl⟩ := h
  obtain ⟨hbs, hwf, hp, hx, md, hbad⟩ := decodeModRM_read ho
  have hop := eq_pattern_of_findRow hrow rfl
  have hext : r.extended = false := (congrArg Rex.r hx).symm.trans (eq_false_of_unlisted hadm.bitR rfl)
  have hreg : r.low3 = 0#3 := by simpa [c7Bad] using hbad
  have hbytes : o.bytes Reg.rax.low3 ++ bytes32 v ++ rest'' = bs := by
    rw [← hbs, hreg, take32_eq_ok hv, List.append_assoc]
    rfl
  rw [hext] at hx
  obtain ⟨hw, hrex⟩ | ⟨hw, hrex, hok⟩ := rm_rex_cases hx
  · rw [hw]
    exact ⟨hwf, hp, hrex, hop, hbytes⟩
  · rw [hw]
    exact ⟨(Bool.and_eq_true _ _).mpr ⟨hwf, hok⟩, hp, hrex, hop, hbytes⟩

/-- What the operands of a row are read from. -/
theorem readFrom_operands {o : Op} (hrow : findRow op = some o.row) (hadm : o.row.Admits p x)
    (h : decodeOperands o op p x bs = .ok i rest) : i.ReadFrom p x op bs rest := by
  cases o with
  | push | pop =>
    obtain ⟨rfl, rfl⟩ := Decoded.ok.inj h
    have hx := Rex.eq_mk (eq_false_of_unlisted hadm.bitW rfl) (eq_false_of_unlisted hadm.bitR rfl)
      (eq_false_of_unlisted hadm.bitX rfl) (Reg.extended_ofBits _ (lowField op)).symm
    exact ⟨rexOk_reg (congrArg Rex.b hx), (hadm.eq_empty rfl rfl).symm, rexIf_isSome hx,
      opcodeReg_of_findRow hrow rfl _, rfl⟩
  | movStore | movLoad =>
    simp only [decodeOperands, Decoded.andThen_eq_ok, Decoded.ok.injEq] at h
    obtain ⟨⟨r, o⟩, rest', ho, rfl, rfl⟩ := h
    obtain ⟨hbs, hwf, hp, hx, -⟩ := decodeModRM_read ho
    have hop := eq_pattern_of_findRow hrow rfl
    obtain ⟨hw, hrex⟩ | ⟨hw, hrex, hok⟩ := rm_rex_cases hx
    · rw [hw]
      exact ⟨hwf, hp, hrex, hop, hbs⟩
    · rw [hw]
      exact ⟨(Bool.and_eq_true _ _).mpr ⟨hwf, hok⟩, hp, hrex, hop, hbs⟩
  | lea => exact readFrom_lea hrow hadm h
  | moffsLoad | moffsStore =>
    simp only [decodeOperands, Decoded.andThen_eq_ok, Decoded.ok.injEq] at h
    obtain ⟨o, rest', ho, rfl, rfl⟩ := h
    obtain ⟨hbs, hwf, hp⟩ := decodeMoffs_read ho
    have hop := eq_pattern_of_findRow hrow rfl
    obtain ⟨hw, hrex⟩ | ⟨hw, hrex⟩ := moffs_rex_cases hadm.bitR hadm.bitX hadm.bitB
    all_goals
      rw [hw]
      exact ⟨hwf, hp, hrex, hop, hbs⟩
  | movImm => exact readFrom_movImm hrow hadm h
  | movRmImm => exact readFrom_movRmImm hrow hadm h
  | ret | int | iret =>
    obtain ⟨rfl, rfl⟩ := Decoded.ok.inj h
    exact ⟨rfl, (hadm.eq_empty rfl rfl).symm, (hadm.eq_none rfl).symm, eq_pattern_of_findRow hrow rfl, rfl⟩
  | call | jmp32 =>
    simp only [decodeOperands, Decoded.andThen_eq_ok, Decoded.ok.injEq] at h
    obtain ⟨v, rest', hv, rfl, rfl⟩ := h
    exact ⟨rfl, (hadm.eq_empty rfl rfl).symm, (hadm.eq_none rfl).symm, eq_pattern_of_findRow hrow rfl,
      (take32_eq_ok hv).symm⟩
  | jmp8 =>
    simp only [decodeOperands, Decoded.andThen_eq_ok, Decoded.ok.injEq, takeByte_eq_ok] at h
    obtain ⟨v, rest', rfl, rfl, rfl⟩ := h
    exact ⟨rfl, (hadm.eq_empty rfl rfl).symm, (hadm.eq_none rfl).symm, eq_pattern_of_findRow hrow rfl, rfl⟩

end

/-- An instruction that decodes was read from its legacy bytes, its REX byte, its opcode byte and its operand bytes. -/
theorem readFrom_decode {bs rest : List Byte} {i : Instr} (h : decode bs = .ok i rest) :
    i.wf = true ∧ bs = i.legacy.bytes ++ ((i.rexByte.map Rex.toByte).toList ++ i.opcode :: (i.operandBytes ++ rest)) := by
  simp only [decode, Decoded.andThen_eq_ok] at h
  obtain ⟨p, bs1, hp, ⟨x, op⟩, bs2, hx, h⟩ := h
  obtain ⟨legacy, rfl, hlegacy, -⟩ := decodePrefixes_ok hp
  obtain ⟨rfl, -⟩ := decodeRexOpcode_ok hx
  split at h
  · cases h
  · rename_i row hrow
    split at h
    · cases h
    · rename_i hcheck
      have hself := eq_row_of_findRow hrow
      have hadm := OpcodeRow.admits_of_check hcheck
      rw [hself] at hrow hadm
      obtain ⟨hwf, rfl, rfl, rfl, rfl⟩ := readFrom_operands hrow hadm h
      exact ⟨hwf, by rw [← hlegacy]; rfl⟩

/-- Settles O15: each part that the decoder reads is a part that the encoder lays out. -/
theorem encodeOfDecode : Obligations.EncodeOfDecode := by
  intro bs rest i h
  obtain ⟨hwf, hbs⟩ := readFrom_decode h
  exact ⟨hwf, by rw [hbs, encode_eq_parts]; simp⟩

/-! ## Length (30_encoding.md R129) -/

@[simp] theorem Prefixes.length_bytes (p : Prefixes) : p.bytes.length = p.count := by cases p <;> rfl

@[simp] theorem RegMem.length_prefixBytes (o : RegMem) : o.prefixBytes.length = o.prefixCount := by
  cases o with
  | reg r => rfl
  | mem p m => exact p.length_bytes

@[simp] theorem length_rexBytes (rex : Bool) (x : Rex) : (rexBytes rex x).length = rex.toNat := by cases rex <;> rfl

@[simp] theorem length_addrBytes (a : Bool) : (addrBytes a).length = a.toNat := by cases a <;> rfl

@[simp] theorem Disp.length_bytes (d : Disp) : d.bytes.length = d.size := by
  cases d <;> simp [Disp.bytes, Disp.size]

@[simp] theorem MemOperand.length_bytes (m : MemOperand) (reg : BitVec 3) : (m.bytes reg).length = m.size := by
  cases m <;> simp [MemOperand.bytes, MemOperand.size] <;> omega

@[simp] theorem RegMem.length_bytes (o : RegMem) (reg : BitVec 3) : (o.bytes reg).length = o.size := by
  cases o with
  | reg r => rfl
  | mem p m => exact m.length_bytes reg

@[simp] theorem Moffs.length_offsetBytes (o : Moffs) :
    o.offsetBytes.length = if o.pre.hasAddr32 then 4 else 8 := length_leBytes _ _

/-- `L` is the number of bytes of the encoding. -/
theorem length_encode (i : Instr) : (encode i).length = i.length := by
  cases i <;> simp [encode, Instr.length, Moffs.size] <;> omega

theorem Prefixes.count_le (p : Prefixes) : p.count ≤ 2 := by cases p <;> simp [Prefixes.count]

theorem RegMem.prefixCount_le (o : RegMem) : o.prefixCount ≤ 2 := by
  cases o with
  | reg r => exact Nat.zero_le 2
  | mem p m => exact p.count_le

theorem Disp.size_le (d : Disp) : d.size ≤ 4 := by cases d <;> simp [Disp.size]

theorem MemOperand.size_le (m : MemOperand) : m.size ≤ 6 := by
  cases m with
  | ripRel d => simp [MemOperand.size]
  | base b d => have := d.size_le; simp only [MemOperand.size]; omega
  | sib b i sc d => have := d.size_le; simp only [MemOperand.size]; omega
  | sibNoBase i sc d => simp [MemOperand.size]

theorem RegMem.size_le (o : RegMem) : o.size ≤ 6 := by
  cases o with
  | reg r => simp [RegMem.size]
  | mem p m => exact m.size_le

theorem Moffs.size_le (o : Moffs) : o.size ≤ 10 := by
  have := o.pre.count_le
  simp only [Moffs.size]
  split <;> omega

/-- The longest form is C7 with two legacy bytes, REX, SIB, disp32 and an immediate: 14 bytes. -/
theorem Instr.length_bounds (i : Instr) : 1 ≤ i.length ∧ i.length ≤ 14 := by
  cases i with
  | pushR64 rex | popR64 rex | movR32Imm32 rex =>
    have := rex.toNat_le
    simp only [Instr.length]; omega
  | movRm32R32 rex o | movR32Rm32 rex _ o | movRm32Imm32 rex o =>
    have := rex.toNat_le
    have := o.prefixCount_le
    have := o.size_le
    simp only [Instr.length]; omega
  | movRm64R64 o | movR64Rm64 _ o | movRm64Imm32 o =>
    have := o.prefixCount_le
    have := o.size_le
    simp only [Instr.length]; omega
  | leaR32M rex a _ m =>
    have := rex.toNat_le
    have := a.toNat_le
    have := m.size_le
    simp only [Instr.length]; omega
  | leaR64M a _ m =>
    have := a.toNat_le
    have := m.size_le
    simp only [Instr.length]; omega
  | movEaxMoffs rex o | movMoffsEax rex o =>
    have := rex.toNat_le
    have := o.size_le
    simp only [Instr.length]; omega
  | movRaxMoffs o | movMoffsRax o =>
    have := o.size_le
    simp only [Instr.length]; omega
  | movR64Imm64 | ret | intImm8 | iret | callRel32 | jmpRel32 | jmpRel8 => simp [Instr.length]

/-- Settles O16: the bytes taken are the encoding, whose length is `L`. -/
theorem decodeTakesLengthBytes : Obligations.DecodeTakesLengthBytes := by
  intro bs rest i h
  obtain ⟨-, rfl⟩ := encodeOfDecode bs rest i h
  exact ⟨by rw [List.length_append, length_encode], i.length_bounds⟩

/-! ## With 14 bytes the decoder decides; later bytes change no answer (60_exceptions.md R305) -/

theorem stable_decode : Stable decode := by
  refine .andThen (stable_decodePrefixes .empty) fun p => .andThen stable_rex fun ⟨x, op⟩ => ?_
  cases hrow : findRow op with
  | none => simpa [hrow] using Stable.refuse .unknownOpcode
  | some row =>
    cases hcheck : row.check p x with
    | some why => simpa [hrow, hcheck] using Stable.refuse _
    | none => simpa [hrow, hcheck] using stable_operands row.op op p x

/-- The decoder asks for more only when it has fewer than 14 bytes. -/
theorem decode_more {bs : List Byte} (h : decode bs = .more) : bs.length < 14 := by
  simp only [decode, Decoded.andThen_eq_more] at h
  obtain h | ⟨p, bs1, hp, h⟩ := h
  · have := decodePrefixes_more h
    omega
  obtain ⟨legacy, rfl, hlegacy, -⟩ := decodePrefixes_ok hp
  have hlen : legacy.length ≤ 2 := by
    have : legacy = p.bytes := hlegacy
    rw [this, Prefixes.length_bytes]
    exact p.count_le
  rw [List.length_append]
  obtain h | ⟨⟨x, op⟩, bs2, hx, h⟩ := h
  · have := rex_more h
    omega
  obtain ⟨rfl, -⟩ := decodeRexOpcode_ok hx
  have hrex : (x.map Rex.toByte).toList.length ≤ 1 := by cases x <;> simp
  rw [List.length_append, List.length_cons]
  split at h
  · cases h
  · split at h
    · cases h
    · have := operands_more h
      omega

/-- Settles O17. -/
theorem decoderDecidesWithinFourteenBytes : Obligations.DecoderDecidesWithinFourteenBytes :=
  ⟨fun _ hlen hmore => absurd (decode_more hmore) (by omega),
    fun bs later r h => (stable_decode bs later).2 r h⟩

end Sys2Proof
end

section
/-! SUPPORT. Refusals (30_encoding.md R132), in the order in which the decoder meets the bytes: legacy bytes, REX byte,
opcode byte, ModRM and SIB bytes; and the step on refused bytes (60_exceptions.md R305). -/

namespace Sys2Proof

/-! ## At the legacy bytes and the REX byte (reason 1) -/

/-- The legacy bytes of an encoding are read one by one. -/
theorem decodePrefixes_append (p : Prefixes) (bs : List Byte) :
    decodePrefixes .empty (p.bytes ++ bs) = decodePrefixes p bs := by
  cases p with
  | empty | addr32 => rfl
  | seg s | addr32Seg s | segAddr32 s => cases s <;> rfl

/-- A byte that may not stand after the legacy bytes `p`. -/
theorem decode_refuse_of_add {p : Prefixes} {b : Byte} (rest : List Byte) (h : p.add b = none) :
    decode (p.bytes ++ b :: rest) = .refuse .prefixNotAdmitted := by
  simp [decode, decodePrefixes_append, decodePrefixes, h]

theorem add_of_isOtherLegacy (p : Prefixes) {b : Byte} (h : isOtherLegacy b = true) : p.add b = none := by
  have hne : b ≠ 0x67#8 ∧ b ≠ 0x64#8 ∧ b ≠ 0x65#8 := by revert b; decide
  obtain ⟨h67, h64, h65⟩ := hne
  simp [Prefixes.add, h67, h64, h65, h]

theorem add67_of_hasAddr32 {p : Prefixes} (h : p.hasAddr32 = true) : p.add67 = none := by
  cases p with
  | empty | seg => cases h
  | addr32 | addr32Seg | segAddr32 => rfl

theorem addSeg_of_segOverride {p : Prefixes} (s : SegOverride) (h : p.segOverride.isSome = true) :
    p.addSeg s = none := by
  cases p with
  | empty | addr32 => cases h
  | seg | addr32Seg | segAddr32 => rfl

/-- After a REX byte neither a legacy byte nor another REX byte may stand. -/
theorem decode_refuse_after_rex (p : Prefixes) (x : Rex) {b : Byte} (rest : List Byte)
    (h : (isLegacy b || isRex b) = true) : decode (p.bytes ++ x.toByte :: b :: rest) = .refuse .prefixNotAdmitted := by
  rw [decode, decodePrefixes_bytes p _ _ (isLegacy_toByte x)]
  simp only [Decoded.andThen_ok, decodeRexOpcode, takeByte_cons, isRex_toByte, if_true, h, Decoded.andThen_refuse]

theorem isRex_iff (b : Byte) : isRex b = true ↔ 0x40 ≤ b.toNat ∧ b.toNat ≤ 0x4F := by revert b; decide

/-- Settles O18. -/
theorem refusedPrefixes : Obligations.RefusedPrefixes := by
  intro p b rest
  refine ⟨fun hb => ?_, fun h67 => ?_, fun hseg hb => ?_, fun x hb => ?_⟩
  · exact decode_refuse_of_add rest (add_of_isOtherLegacy p (by revert b; decide))
  · exact decode_refuse_of_add rest (by rw [Prefixes.add_67, add67_of_hasAddr32 h67]; rfl)
  · have hadd : p.add b = none := by
      obtain rfl | rfl : b = 0x64#8 ∨ b = 0x65#8 := by simpa using hb
      · rw [Prefixes.add_64, addSeg_of_segOverride _ hseg]; rfl
      · rw [Prefixes.add_65, addSeg_of_segOverride _ hseg]; rfl
    exact decode_refuse_of_add rest hadd
  · refine decode_refuse_after_rex p x rest ?_
    obtain hb | hb := hb
    · revert b; decide
    · rw [(isRex_iff b).2 hb, Bool.or_true]

/-! ## At the opcode byte (reasons 2 and 3) -/

/-- The bytes of an instruction up to its opcode byte and what follows it. -/
def behind (p : Prefixes) (x : Option Rex) (op : Byte) (rest : List Byte) : List Byte :=
  p.bytes ++ (x.map Rex.toByte).toList ++ op :: rest

section

variable {p : Prefixes} {x : Option Rex} {y : Rex} {op : Byte} {o : Op} {row : OpcodeRow}

theorem decodePrefixes_behind (hl : isLegacy op = false) (rest : List Byte) :
    decodePrefixes .empty (behind p x op rest) = .ok p ((x.map Rex.toByte).toList ++ op :: rest) := by
  rw [behind, List.append_assoc]
  cases x with
  | none => exact decodePrefixes_bytes p op rest hl
  | some y => exact decodePrefixes_bytes p y.toByte (op :: rest) (isLegacy_toByte y)

/-- Reason 2: the opcode byte is in no row. -/
theorem decode_noRow (rest : List Byte) (hrow : findRow op = none) (hl : isLegacy op = false) (hr : isRex op = false) :
    decode (behind p x op rest) = .refuse .unknownOpcode := by
  simp [decode, decodePrefixes_behind hl, decodeRexOpcode_bytes x op rest hl hr, hrow]

/-- What the row does not list is refused; for CD and CF by their own reason. -/
theorem decode_of_check {why : RefuseReason} (rest : List Byte) (hrow : findRow op = some o.row)
    (hcheck : o.row.check p x = some why) :
    decode (behind p x op rest) = .refuse (if o.isNamed then .namedNotModelled else why) := by
  obtain ⟨hl, hr⟩ := not_prefix_of_findRow hrow
  simp [decode, decodePrefixes_behind hl, decodeRexOpcode_bytes x op rest hl hr, hrow, hcheck]

/-- Legacy bytes that the row does not list. -/
theorem OpcodeRow.check_of_legacy
    (h : p.hasAddr32 = true ∧ row.addr = false ∨ p.segOverride.isSome = true ∧ row.seg = false) :
    row.check p x = some .prefixNotAdmitted := by
  unfold OpcodeRow.check
  exact if_pos (by simpa using h)

/-- A REX byte, or a bit of it, that the row does not list. -/
theorem OpcodeRow.check_of_rex (haddr : p.hasAddr32 = true → row.addr = true)
    (hseg : p.segOverride.isSome = true → row.seg = true)
    (h : row.rexAny = false ∨ y.w = true ∧ row.rex.w = false ∨ y.r = true ∧ row.rex.r = false ∨
      y.x = true ∧ row.rex.x = false ∨ y.b = true ∧ row.rex.b = false) :
    row.check p (some y) = some .rexBitUnused := by
  have hlegacy : ¬ (p.hasAddr32 && !row.addr || p.segOverride.isSome && !row.seg) = true := by
    simpa using ⟨haddr, hseg⟩
  unfold OpcodeRow.check
  rw [if_neg hlegacy]
  exact if_pos (by simpa [or_assoc] using h)

/-- Reason 3 for the legacy bytes. -/
theorem decode_refuse_legacy (rest : List Byte) (hrow : findRow op = some o.row) (hnamed : o.isNamed = false)
    (h : p.hasAddr32 = true ∧ o.row.addr = false ∨ p.segOverride.isSome = true ∧ o.row.seg = false) :
    decode (behind p x op rest) = .refuse .prefixNotAdmitted := by
  rw [decode_of_check rest hrow (OpcodeRow.check_of_legacy h), hnamed]
  rfl

/-- Reason 3 for the REX byte. -/
theorem decode_refuse_rex (rest : List Byte) (hrow : findRow op = some o.row) (hnamed : o.isNamed = false)
    (haddr : p.hasAddr32 = true → o.row.addr = true) (hseg : p.segOverride.isSome = true → o.row.seg = true)
    (h : o.row.rexAny = false ∨ y.w = true ∧ o.row.rex.w = false ∨ y.r = true ∧ o.row.rex.r = false ∨
      y.x = true ∧ o.row.rex.x = false ∨ y.b = true ∧ o.row.rex.b = false) :
    decode (behind p (some y) op rest) = .refuse .rexBitUnused := by
  rw [decode_of_check rest hrow (OpcodeRow.check_of_rex haddr hseg h), hnamed]
  rfl

theorem Prefixes.hasAddr32_or_seg (h : p ≠ .empty) : p.hasAddr32 = true ∨ p.segOverride.isSome = true := by
  cases p with
  | empty => exact absurd rfl h
  | addr32 | addr32Seg | segAddr32 => exact .inl rfl
  | seg => exact .inr rfl

/-- A row that lists no legacy byte refuses every one. -/
theorem decode_refuse_any_legacy (rest : List Byte) (hrow : findRow op = some o.row) (hnamed : o.isNamed = false)
    (haddr : o.row.addr = false) (hseg : o.row.seg = false) (h : p ≠ .empty) :
    decode (behind p x op rest) = .refuse .prefixNotAdmitted :=
  decode_refuse_legacy rest hrow hnamed ((p.hasAddr32_or_seg h).imp (⟨·, haddr⟩) (⟨·, hseg⟩))

/-! The opcode bytes of the statement and their rows. -/

/-- PUSH and POP list no legacy byte, and REX.B only. -/
theorem findRow_50_to_5F (h : 0x50 ≤ op.toNat ∧ op.toNat ≤ 0x5F) :
    ∃ o : Op, findRow op = some o.row ∧ o.isNamed = false ∧ o.row.addr = false ∧ o.row.seg = false ∧
      o.row.rex = ⟨false, false, false, true⟩ := by
  have hrow : findRow op = some Op.push.row ∨ findRow op = some Op.pop.row := by revert op; decide
  obtain hrow | hrow := hrow
  · exact ⟨.push, hrow, rfl, rfl, rfl, rfl⟩
  · exact ⟨.pop, hrow, rfl, rfl, rfl, rfl⟩

theorem findRow_B8_to_BF (h : 0xB8 ≤ op.toNat ∧ op.toNat ≤ 0xBF) : findRow op = some Op.movImm.row := by
  revert op; decide

/-- RET, CALL and the two JMPs list no legacy byte and no REX byte. -/
theorem findRow_transfer (h : op ∈ [0xC3#8, 0xE8#8, 0xE9#8, 0xEB#8]) :
    ∃ o : Op, findRow op = some o.row ∧ o.isNamed = false ∧ o.row.addr = false ∧ o.row.seg = false ∧
      o.row.rexAny = false := by
  simp only [List.mem_cons, List.not_mem_nil, or_false] at h
  obtain rfl | rfl | rfl | rfl := h
  · exact ⟨.ret, rfl, rfl, rfl, rfl, rfl⟩
  · exact ⟨.call, rfl, rfl, rfl, rfl, rfl⟩
  · exact ⟨.jmp32, rfl, rfl, rfl, rfl, rfl⟩
  · exact ⟨.jmp8, rfl, rfl, rfl, rfl, rfl⟩

/-- The memory-offset MOVs list every legacy byte, and REX.W only. -/
theorem findRow_moffs (h : op ∈ [0xA1#8, 0xA3#8]) :
    ∃ o : Op, findRow op = some o.row ∧ o.isNamed = false ∧ o.row.addr = true ∧ o.row.seg = true ∧
      o.row.rex = ⟨true, false, false, false⟩ := by
  simp only [List.mem_cons, List.not_mem_nil, or_false] at h
  obtain rfl | rfl := h
  · exact ⟨.moffsLoad, rfl, rfl, rfl, rfl, rfl⟩
  · exact ⟨.moffsStore, rfl, rfl, rfl, rfl, rfl⟩

/-- CD and CF behind any legacy byte or REX byte. -/
theorem decode_named (rest : List Byte) (hop : op ∈ [0xCD#8, 0xCF#8]) (h : p ≠ .empty ∨ x ≠ none) :
    decode (behind p x op rest) = .refuse .namedNotModelled := by
  obtain ⟨o, hrow, hnamed, haddr, hseg, hany⟩ : ∃ o : Op, findRow op = some o.row ∧ o.isNamed = true ∧
      o.row.addr = false ∧ o.row.seg = false ∧ o.row.rexAny = false := by
    simp only [List.mem_cons, List.not_mem_nil, or_false] at hop
    obtain rfl | rfl := hop
    · exact ⟨.int, rfl, rfl, rfl, rfl, rfl⟩
    · exact ⟨.iret, rfl, rfl, rfl, rfl, rfl⟩
  cases hcheck : o.row.check p x with
  | some why => rw [decode_of_check rest hrow hcheck, hnamed]; rfl
  | none =>
    have hadm := OpcodeRow.admits_of_check hcheck
    obtain h | h := h
    · exact absurd (hadm.eq_empty haddr hseg) h
    · exact absurd (hadm.eq_none hany) h

end

/-- Settles O19. -/
theorem refusedOpcodesAndRexBits : Obligations.RefusedOpcodesAndRexBits := by
  intro p x op rest
  refine ⟨decode_noRow rest, decode_named rest, ?_, ?_, ?_, ?_, ?_, ?_, ?_⟩
  · intro hop hp
    obtain hop | hop | hop := hop
    · obtain ⟨o, hrow, hnamed, haddr, hseg, -⟩ := findRow_50_to_5F hop
      exact decode_refuse_any_legacy rest hrow hnamed haddr hseg hp
    · exact decode_refuse_any_legacy rest (findRow_B8_to_BF hop) rfl rfl rfl hp
    · obtain ⟨o, hrow, hnamed, haddr, hseg, -⟩ := findRow_transfer hop
      exact decode_refuse_any_legacy rest hrow hnamed haddr hseg hp
  · rintro rfl hseg
    exact decode_refuse_legacy rest (findRow_pattern .lea) rfl (.inr ⟨hseg, rfl⟩)
  · rintro hop rfl hx
    obtain ⟨o, hrow, hnamed, -, -, hany⟩ := findRow_transfer hop
    obtain ⟨y, rfl⟩ := Option.ne_none_iff_exists'.1 hx
    exact decode_refuse_rex rest hrow hnamed nofun nofun (.inl hany)
  · rintro hop rfl hx
    obtain ⟨y, rfl, hy⟩ := (Option.any_eq_true _ _).1 hx
    obtain ⟨o, hrow, hnamed, -, -, hrex⟩ := findRow_50_to_5F hop
    refine decode_refuse_rex rest hrow hnamed nofun nofun (.inr ?_)
    simpa [hrex, or_assoc] using hy
  · rintro hop rfl hx
    obtain ⟨y, rfl, hy⟩ := (Option.any_eq_true _ _).1 hx
    have hbits : y.r = true ∨ y.x = true := by simpa using hy
    exact decode_refuse_rex rest (findRow_B8_to_BF hop) rfl nofun nofun
      (.inr (.inr (hbits.imp (⟨·, rfl⟩) fun hx => .inl ⟨hx, rfl⟩)))
  · rintro rfl hx
    obtain ⟨y, rfl, hy⟩ := (Option.any_eq_true _ _).1 hx
    exact decode_refuse_rex rest (findRow_pattern .movRmImm) rfl (fun _ => rfl) (fun _ => rfl)
      (.inr (.inr (.inl ⟨hy, rfl⟩)))
  · rintro hop hx
    obtain ⟨y, rfl, hy⟩ := (Option.any_eq_true _ _).1 hx
    obtain ⟨o, hrow, hnamed, haddr, hseg, hrex⟩ := findRow_moffs hop
    refine decode_refuse_rex rest hrow hnamed (fun _ => haddr) (fun _ => hseg) (.inr ?_)
    simpa [hrex, or_assoc] using hy

/-! ## At the ModRM and SIB bytes (reason 4) -/

/-- Which opcode bytes a ModRM byte follows, behind legacy bytes and a REX byte that their rows list, and the values of
`mod` and `reg` they have no form for. -/
inductive ReadsModRM (p : Prefixes) (x : Option Rex) : Byte → (BitVec 2 → BitVec 3 → Bool) → Prop where
  | movStore : ReadsModRM p x 0x89 anyModReg
  | movLoad : ReadsModRM p x 0x8B anyModReg
  | lea (seg : p.segOverride = none) : ReadsModRM p x 0x8D leaBad
  | movRmImm (r : x.any (·.r) = false) : ReadsModRM p x 0xC7 c7Bad

section

variable {p : Prefixes} {x : Option Rex} {op : Byte} {bad : BitVec 2 → BitVec 3 → Bool}

theorem decode_behind {o : Op} (rest : List Byte) (hrow : findRow op = some o.row) (hadm : o.row.Admits p x) :
    decode (behind p x op rest) = decodeOperands o op p x rest := by
  obtain ⟨hl, hr⟩ := not_prefix_of_findRow hrow
  rw [behind, List.append_assoc, decode_bytes p x op rest hl hr o.row hrow hadm.check, op_row]

/-- What the ModRM group refuses, the instruction does. -/
theorem ReadsModRM.decode_refuse {why : RefuseReason} {tail : List Byte} (h : ReadsModRM p x op bad)
    (hrefuse : decodeModRM bad p (x.getD Rex.absent) tail = .refuse why) :
    decode (behind p x op tail) = .refuse why := by
  cases h with
  | movStore =>
    refine (decode_behind tail (findRow_pattern .movStore) (OpcodeRow.admits_of_all p x rfl rfl rfl rfl)).trans ?_
    rw [decodeOperands, hrefuse, Decoded.andThen_refuse]
  | movLoad =>
    refine (decode_behind tail (findRow_pattern .movLoad) (OpcodeRow.admits_of_all p x rfl rfl rfl rfl)).trans ?_
    rw [decodeOperands, hrefuse, Decoded.andThen_refuse]
  | lea hseg =>
    refine (decode_behind tail (findRow_pattern .lea) (admits_lea x hseg)).trans ?_
    rw [decodeOperands, hrefuse, Decoded.andThen_refuse]
  | movRmImm hr =>
    have hgetD : (x.getD Rex.absent).r = false := by cases x with
      | none => rfl
      | some y => exact hr
    refine (decode_behind tail (findRow_pattern .movRmImm) (admits_movRmImm p hgetD)).trans ?_
    rw [decodeOperands, hrefuse, Decoded.andThen_refuse]

variable {md : BitVec 2} {reg rm : BitVec 3} {y : Rex} {rest : List Byte}

theorem decodeModRM_bad (h : bad md reg = true) :
    decodeModRM bad p y (fieldByte md reg rm :: rest) = .refuse .unknownOpcode := by
  simp [decodeModRM, h]

theorem decodeModRM_reg_legacy (h : bad 3#2 reg = false) (hp : p ≠ .empty) :
    decodeModRM bad p y (fieldByte 3#2 reg rm :: rest) = .refuse .prefixNotAdmitted := by
  simp [decodeModRM, h, hp]

theorem decodeModRM_reg_rexX (h : bad 3#2 reg = false) (hx : y.x = true) :
    decodeModRM bad .empty y (fieldByte 3#2 reg rm :: rest) = .refuse .rexBitUnused := by
  simp [decodeModRM, h, hx]

/-- What the memory operand refuses, the ModRM group does. -/
theorem decodeModRM_mem {why : RefuseReason} (h : bad md reg = false) (hmd : md ≠ 3#2)
    (hrefuse : decodeMem md rm y rest = .refuse why) :
    decodeModRM bad p y (fieldByte md reg rm :: rest) = .refuse why := by
  simp [decodeModRM, h, hmd, hrefuse]

theorem decodeMem_rexX (hrm : rm ≠ 4#3) (hx : y.x = true) : decodeMem md rm y rest = .refuse .rexBitUnused := by
  simp [decodeMem, hrm, hx]

/-- RIP-relative has no base register. -/
theorem decodeMem_ripRel_rexB (hb : y.b = true) : decodeMem 0#2 5#3 y rest = .refuse .rexBitUnused := by
  simp [decodeMem, hb]

/-- Nor has a SIB byte with base 101 and mod 00. -/
theorem decodeMem_sibNoBase_rexB (sc : BitVec 2) (ix : BitVec 3) (hb : y.b = true) :
    decodeMem 0#2 4#3 y (fieldByte sc ix 5#3 :: rest) = .refuse .rexBitUnused := by
  simp [decodeMem, decodeSib, hb]

end

/-- A bit that an optional REX byte sets is set among the bits the decoder works with. -/
theorem getD_of_any {x : Option Rex} {bit : Rex → Bool} (h : x.any bit = true) : bit (x.getD Rex.absent) = true := by
  obtain ⟨y, rfl, hy⟩ := (Option.any_eq_true _ _).1 h
  exact hy

/-- Settles O20. -/
theorem refusedModRM : Obligations.RefusedModRM := by
  intro p x md reg rm rest decodeAt movRm
  have hmov {op : Byte} (h : movRm op) : ∃ bad, ReadsModRM p x op bad ∧ ∀ m, bad m reg = false := by
    obtain rfl | rfl | ⟨rfl, rfl, hr⟩ := h
    · exact ⟨_, .movStore, fun _ => rfl⟩
    · exact ⟨_, .movLoad, fun _ => rfl⟩
    · exact ⟨_, .movRmImm hr, fun _ => rfl⟩
  have hany {op : Byte} (h : movRm op ∨ (op = 0x8D#8 ∧ p.segOverride = none)) :
      ∃ bad, ReadsModRM p x op bad ∧ ∀ m, m ≠ 3#2 → bad m reg = false := by
    obtain h | ⟨rfl, hseg⟩ := h
    · obtain ⟨bad, hreads, hbad⟩ := hmov h
      exact ⟨bad, hreads, fun m _ => hbad m⟩
    · exact ⟨_, .lea hseg, fun m hm => by simpa [leaBad] using hm⟩
  refine ⟨fun hreg hr => ?_, fun hmd hseg => ?_, fun op hop hmd => ⟨fun hp => ?_, fun hp hx => ?_⟩, fun op hop => ?_⟩
  · exact (ReadsModRM.movRmImm hr).decode_refuse (decodeModRM_bad (by simpa [c7Bad] using hreg))
  · exact (ReadsModRM.lea hseg).decode_refuse (decodeModRM_bad (by simp [leaBad, hmd]))
  · obtain ⟨bad, hreads, hbad⟩ := hmov hop
    exact hreads.decode_refuse (hmd ▸ decodeModRM_reg_legacy (hbad _) hp)
  · obtain ⟨bad, hreads, hbad⟩ := hmov hop
    subst hp
    exact hreads.decode_refuse (hmd ▸ decodeModRM_reg_rexX (hbad _) (getD_of_any hx))
  · obtain ⟨bad, hreads, hbad⟩ := hany hop
    refine ⟨fun hmd hrm hx => ?_, fun hmd hrm hb => ?_, fun sc ix hmd hrm hb => ?_⟩
    · exact hreads.decode_refuse (decodeModRM_mem (hbad md hmd) hmd (decodeMem_rexX hrm (getD_of_any hx)))
    · subst hmd hrm
      exact hreads.decode_refuse
        (decodeModRM_mem (hbad _ (by decide)) (by decide) (decodeMem_ripRel_rexB (getD_of_any hb)))
    · subst hmd hrm
      exact hreads.decode_refuse
        (decodeModRM_mem (hbad _ (by decide)) (by decide) (decodeMem_sibNoBase_rexB sc ix (getD_of_any hb)))

/-! ## The step on refused bytes -/

end Sys2Proof

namespace Sys2Proof.Machine

/-- Bytes that are refused are refused whatever is fetched after them (60_exceptions.md R305). -/
theorem fetchDecode_refuse {s : State} {k : Nat} {r : RefuseReason} (hk : k ≤ maxLength) (h : Fetchable s s.rip k)
    (hdec : decode (s.mem.readBytes s.rip.toNat k) = .refuse r) : fetchDecode s = .refuse r := by
  have hall : decode (fetchable s) = .refuse r := by
    rw [fetchable_eq hk h]
    exact decoderDecidesWithinFourteenBytes.2 _ _ r hdec
  simp [fetchDecode, hall]

/-- Settles O51. -/
theorem refusedBytesEndTheStep : Obligations.RefusedBytesEndTheStep := by
  intro s k r hrun hstop h64 hfetch hk hdec
  have hstep : step s = .refused (.encoding r s.rip) := by
    rw [step_running hrun hstop h64, fetchDecode_refuse hk hfetch hdec]
    rfl
  exact ⟨hstep, by rw [State.after, hstep]⟩

end Sys2Proof.Machine
end

section
/-! SUPPORT. The fields of the REX, ModRM and SIB bytes (30_encoding.md R119, R120, R128), the spec's examples, and the
address sizes (R116). -/

namespace Sys2Proof

open Machine

/-! ## Fields as numbers -/

theorem Rex.toNat_toByte (x : Rex) :
    x.toByte.toNat = 0x40 + 8 * x.w.toNat + 4 * x.r.toNat + 2 * x.x.toNat + x.b.toNat := by
  obtain ⟨w, r, x, b⟩ := x
  revert w r x b
  decide

/-- A byte of fields is the number whose digits they are. -/
theorem toNat_fieldByte (h : BitVec 2) (m l : BitVec 3) :
    (fieldByte h m l).toNat = 64 * h.toNat + 8 * m.toNat + l.toNat := by
  revert h m l
  decide

theorem Reg.toNat_num_ofBits (e : Bool) (l : BitVec 3) : (Reg.ofBits e l).num.toNat = 8 * e.toNat + l.toNat := by
  revert e l
  decide

/-- Settles O13: a byte is the byte of its fields, and a register is the register of its bits. -/
theorem fieldsOfRexModRMAndSib : Obligations.FieldsOfRexModRMAndSib := by
  refine ⟨Rex.toNat_toByte, isRex_iff, fun b => ?_, toNat_fieldByte, Reg.toNat_num_ofBits, fun r => ?_, fun sc => ?_⟩
  · rw [← toNat_fieldByte, fieldByte_fields]
  · rw [← Reg.toNat_num_ofBits, Reg.ofBits_low3]
  · cases sc <;> rfl

/-- Settles O21: the decoder evaluated on the nine byte strings. -/
theorem specExamplesDecode : Obligations.SpecExamplesDecode := by
  refine ⟨?_, ?_, ?_, ?_, ?_, ?_, ?_, ?_, ?_⟩ <;> decide

/-! ## Address sizes -/

/-- In 64-bit mode the D bit selects nothing (R116). -/
theorem effAddrSizeIn_bits64 (d a : Bool) : effAddrSizeIn .bits64 d a = effAddrSize a := by
  cases d <;> cases a <;> rfl

theorem effAddrSize_ne_a16 (a : Bool) : effAddrSize a ≠ .a16 := by
  cases a <;> decide

/-- Settles O58: outside 64-bit mode the D bit selects 32 or 16 bits and 67h the other of the two. -/
theorem addressSizeTable : Obligations.AddressSizeTable := by
  refine ⟨fun d => ⟨effAddrSizeIn_bits64 d false, effAddrSizeIn_bits64 d true⟩, effAddrSizeIn_bits64 false,
    fun m hm => ?_, fun d a => effAddrSizeIn_bits64 d a ▸ effAddrSize_ne_a16 a⟩
  cases m with
  | bits64 => exact absurd rfl hm
  | compatibility | legacyProtected | virtual8086 | real => decide

end Sys2Proof
end

section
/-! SUPPORT. Proofs of the statements on effective addresses (40_addressing.md): the address sum as the image of the
unbounded sum, its truncation, RIP-relative and memory-offset addresses, and the segment of an operand. -/

namespace Sys2Proof.Machine

/-! ## The address sum as the image of the unbounded sum (40_addressing.md R160, R173) -/

theorem toNat_ofInt_eq_emod (w : Nat) (x : Int) : ((BitVec.ofInt w x).toNat : Int) = x % 2 ^ w := by
  have hne : (2 : Int) ^ w ≠ 0 := by positivity
  rw [BitVec.toNat_ofInt, Nat.cast_pow, Nat.cast_ofNat, Int.toNat_of_nonneg (Int.emod_nonneg x hne)]

/-- A word is the image of its own value. -/
theorem ofInt_toNat (v : Word) : BitVec.ofInt 64 v.toNat = v := by
  rw [BitVec.ofInt_natCast, BitVec.ofNat_toNat, BitVec.setWidth_eq]

theorem dispValue_eq_ofInt (d : Disp) : dispValue d = BitVec.ofInt 64 (dispInt d) := by
  cases d <;> rfl

theorem scaleFactor_eq_two_pow (sc : Scale) : scaleFactor sc = 2 ^ scaleLog2 sc := by
  cases sc <;> rfl

theorem indexTerm_eq_ofInt (s : State) (i : Option Reg) (sc : Scale) :
    indexTerm s i sc = BitVec.ofInt 64 (indexNat s i sc) := by
  cases i with
  | none => rfl
  | some r =>
    apply BitVec.eq_of_toNat_eq
    rw [indexTerm, indexNat, scaleFactor_eq_two_pow, BitVec.toNat_shiftLeft, Nat.shiftLeft_eq, BitVec.ofInt_natCast,
      BitVec.toNat_ofNat]

/-- The sum of R173 modulo 2^64 is the image of the unbounded sum, term by term. -/
theorem addrSum_eq_ofInt (s : State) (nx : Word) (m : MemOperand) :
    addrSum s nx m = BitVec.ofInt 64 (unboundedSum s nx m) := by
  cases m with
  | ripRel d => rw [unboundedSum, BitVec.ofInt_add, ofInt_toNat]; rfl
  | base b d => rw [unboundedSum, BitVec.ofInt_add, ofInt_toNat, ← dispValue_eq_ofInt]; rfl
  | sib b i sc d =>
    rw [unboundedSum, BitVec.ofInt_add, BitVec.ofInt_add, ofInt_toNat, ← indexTerm_eq_ofInt, ← dispValue_eq_ofInt]
    rfl
  | sibNoBase i sc d => rw [unboundedSum, BitVec.ofInt_add, ← indexTerm_eq_ofInt]; rfl

theorem effAddr_a64 (s : State) (nx : Word) (m : MemOperand) : effAddr s nx false m = addrSum s nx m := rfl

/-- With 67h the low 32 bits of the same sum are kept (R161, R169). -/
theorem effAddr_a32 (s : State) (nx : Word) (m : MemOperand) :
    effAddr s nx true m = zext32 (trunc32 (effAddr s nx false m)) := rfl

theorem toNat_zext32_trunc32 (v : Word) : (zext32 (trunc32 v)).toNat = v.toNat % 2 ^ 32 := by
  rw [zext32, trunc32, BitVec.toNat_setWidth, BitVec.toNat_setWidth]
  omega

theorem toNat_effAddr_a64 (s : State) (nx : Word) (m : MemOperand) :
    ((effAddr s nx false m).toNat : Int) = unboundedSum s nx m % 2 ^ 64 := by
  rw [effAddr_a64, addrSum_eq_ofInt, toNat_ofInt_eq_emod]

theorem toNat_effAddr_a32 (s : State) (nx : Word) (m : MemOperand) :
    ((effAddr s nx true m).toNat : Int) = unboundedSum s nx m % 2 ^ 32 := by
  rw [effAddr_a32, toNat_zext32_trunc32]
  have h := toNat_effAddr_a64 s nx m
  omega

theorem effAddr_a32_lt (s : State) (nx : Word) (m : MemOperand) : (effAddr s nx true m).toNat < 2 ^ 32 := by
  rw [effAddr_a32, toNat_zext32_trunc32]
  exact Nat.mod_lt _ (by decide)

/-- Through a segment with base 0 the virtual address is the effective address (R85). -/
theorem linear_of_segBase_zero {s : State} {seg : Seg} (ea : Word) (h : segBase s seg = 0) : linear s seg ea = ea := by
  rw [linear, h, zero_add]

/-- Settles O22. -/
theorem effectiveAddressIsTheTruncatedSum : Obligations.EffectiveAddressIsTheTruncatedSum := by
  intro s nx m
  refine ⟨toNat_effAddr_a64 s nx m, toNat_effAddr_a32 s nx m, fun seg hbase => ?_⟩
  rw [linear_of_segBase_zero _ hbase]
  exact effAddr_a32_lt s nx m

/-! ## RIP-relative addresses (40_addressing.md R166, R167, R169) -/

/-- Settles O23: the displacement that reaches `next + k` is the 32-bit image of `k`. -/
theorem ripRelativeAddressing : Obligations.RipRelativeAddressing := by
  intro s nx
  refine ⟨fun d => ⟨toNat_effAddr_a64 s nx (.ripRel d), effAddr_a32 s nx (.ripRel d)⟩, fun k hlo hhi => ?_⟩
  have hk : (BitVec.ofInt 32 k).toInt = k := BitVec.toInt_ofInt_eq_self (by decide) hlo (by omega)
  refine ⟨BitVec.ofInt 32 k, ?_⟩
  rw [toNat_effAddr_a64, unboundedSum, hk]

/-! ## The segment of an operand (40_addressing.md R174, R175) -/

theorem effSeg_of_none {p : Prefixes} (dflt : Seg) (h : p.segOverride = none) : effSeg p dflt = dflt := by
  rw [effSeg, h]

theorem effSeg_of_fs {p : Prefixes} (dflt : Seg) (h : p.segOverride = some .fs) : effSeg p dflt = .fs := by
  rw [effSeg, h]

theorem effSeg_of_gs {p : Prefixes} (dflt : Seg) (h : p.segOverride = some .gs) : effSeg p dflt = .gs := by
  rw [effSeg, h]

theorem defaultSeg_of_baseReg {m : MemOperand} {b : Reg} (h : baseReg m = some b) :
    defaultSeg m = if b = .rsp ∨ b = .rbp then .ss else .ds := by
  simp only [defaultSeg, h, Option.some.injEq]

theorem defaultSeg_of_baseReg_none {m : MemOperand} (h : baseReg m = none) : defaultSeg m = .ds := by
  simp [defaultSeg, h]

/-- The eight sets of legacy bytes: two leave the default, and FS or GS replaces it on either side of 67h. -/
theorem effSeg_of_legacy_bytes (dflt : Seg) :
    effSeg .empty dflt = dflt ∧ effSeg .addr32 dflt = dflt ∧
    effSeg (.seg .fs) dflt = .fs ∧ effSeg (.addr32Seg .fs) dflt = .fs ∧ effSeg (.segAddr32 .fs) dflt = .fs ∧
    effSeg (.seg .gs) dflt = .gs ∧ effSeg (.addr32Seg .gs) dflt = .gs ∧ effSeg (.segAddr32 .gs) dflt = .gs :=
  ⟨effSeg_of_none _ rfl, effSeg_of_none _ rfl, effSeg_of_fs _ rfl, effSeg_of_fs _ rfl, effSeg_of_fs _ rfl,
    effSeg_of_gs _ rfl, effSeg_of_gs _ rfl, effSeg_of_gs _ rfl⟩

/-- Settles O24. -/
theorem segmentOfAMemoryOperand : Obligations.SegmentOfAMemoryOperand :=
  ⟨fun _ _ => defaultSeg_of_baseReg rfl, fun _ _ _ _ => defaultSeg_of_baseReg rfl,
    fun _ => defaultSeg_of_baseReg_none rfl, fun _ _ _ => defaultSeg_of_baseReg_none rfl,
    fun m => effSeg_of_legacy_bytes (defaultSeg m), fun _ => effSeg_of_legacy_bytes .ds⟩

/-! ## Moving the code (40_addressing.md R166, 70_reset_and_hazards.md R336) -/

/-- `next` moves with `rip`: the length is the instruction's own. -/
theorem nextRip_setRip_add (i : Instr) (s : State) (d : Word) : nextRip i (s.setRip (s.rip + d)) = nextRip i s + d :=
  add_right_comm ..

/-- With neither 67h nor an override, a RIP-relative operand is at `next` plus its displacement in every state. -/
theorem memAddr_ripRel {p : Prefixes} (s : State) (nx : Word) (o : BitVec 32) (haddr : p.hasAddr32 = false)
    (hseg : p.segOverride = none) : memAddr s nx p (.ripRel o) = nx + sext32 o := by
  have hds : memSeg p (.ripRel o) = .ds := (effSeg_of_none _ hseg).trans (defaultSeg_of_baseReg_none rfl)
  rw [memAddr, hds, linear_of_segBase_zero _ rfl, haddr, effAddr_a64, addrSum]

/-- Settles O25. -/
theorem ripRelativeCodeIsPositionIndependent : Obligations.RipRelativeCodeIsPositionIndependent := by
  intro s d p o i haddr hseg
  rw [memAddr_ripRel _ _ _ haddr hseg, memAddr_ripRel _ _ _ haddr hseg, nextRip_setRip_add]
  exact add_right_comm ..

/-! ## Memory offsets (40_addressing.md R175, R176) -/

theorem offset_lt_of_wf {o : Moffs} (hwf : o.wf = true) (haddr : o.pre.hasAddr32 = true) :
    o.offset.toNat < 2 ^ 32 := by
  simpa [Moffs.wf, haddr] using hwf

/-- The truncation to the address size drops nothing from an offset field of that size. -/
theorem moffsAddr_eq_offset {o : Moffs} (hwf : o.wf = true) : moffsAddr o = o.offset := by
  cases haddr : o.pre.hasAddr32 with
  | false => rw [moffsAddr, haddr]; rfl
  | true =>
    apply BitVec.eq_of_toNat_eq
    have htrunc : moffsAddr o = zext32 (trunc32 o.offset) := by rw [moffsAddr, haddr]; rfl
    rw [htrunc, toNat_zext32_trunc32, Nat.mod_eq_of_lt (offset_lt_of_wf hwf haddr)]

theorem moffsLinear_eq {s : State} {o : Moffs} {seg : Seg} (hwf : o.wf = true) (hseg : moffsSeg o = seg) :
    moffsLinear s o = linear s seg o.offset := by
  rw [moffsLinear, hseg, moffsAddr_eq_offset hwf]

/-- Settles O32. -/
theorem memoryOffsetAddress : Obligations.MemoryOffsetAddress := by
  intro s o hwf
  refine ⟨moffsAddr_eq_offset hwf, fun hnone => ?_, fun hfs => ?_, fun hgs => ?_⟩
  · exact (moffsLinear_eq hwf (effSeg_of_none _ hnone)).trans (linear_of_segBase_zero _ rfl)
  · exact moffsLinear_eq hwf (effSeg_of_fs _ hfs)
  · exact moffsLinear_eq hwf (effSeg_of_gs _ hgs)

end Sys2Proof.Machine
end

section
/-! SUPPORT. Proofs of the statements on far pointers, the stack and instruction pointers, and the fetch
(41_pointers_stack_ip.md). -/

namespace Sys2Proof.Machine

/-! ## Fetch and decode (R216, 60_exceptions.md R305) -/

/-- Memory that holds each byte of a list at its place reads as the list. -/
theorem Memory.readBytes_eq {m : Memory} {a : Nat} {bs : List Byte}
    (h : ∀ k b, bs[k]? = some b → m.read (a + k) = b) : m.readBytes a bs.length = bs := by
  refine List.ext_getElem (m.length_readBytes a _) fun k h1 h2 => ?_
  rw [Memory.getElem_readBytes]
  exact h k _ (List.getElem?_eq_getElem h2)

theorem fetchDecode_ok {s : State} {i : Instr} {rest : List Byte} (h : decode (fetchable s) = .ok i rest) :
    fetchDecode s = .ok i := by
  simp [fetchDecode, h]

/-- A run of fetches ends at the first byte that cannot be fetched. -/
theorem fetchRun_stopped {s : State} {k n : Nat} {e : FetchStop} (h : Fetchable s s.rip k) (hk : k < n)
    (he : fetchByte s k = .error e) : fetchRun s 0 n = (s.mem.readBytes s.rip.toNat k, some e) := by
  obtain ⟨m, rfl⟩ : ∃ m, n = k + (m + 1) := ⟨n - k - 1, by omega⟩
  have hlast : fetchRun s k (m + 1) = ([], some e) := by rw [fetchRun, he]
  have hall := fetchRun_fetchable (k := 0) (m := k) (m + 1) (by rwa [Nat.zero_add])
  rwa [Nat.zero_add, Nat.add_zero, hlast, List.append_nil] at hall

/-- A byte that the decoder needs and that cannot be fetched stops the fetch. -/
theorem fetchDecode_stopped {s : State} {k : Nat} {e : FetchStop} (h : Fetchable s s.rip k)
    (hmore : decode (s.mem.readBytes s.rip.toNat k) = .more) (he : fetchByte s k = .error e) :
    fetchDecode s = .stopped e := by
  have hk : k < maxLength := (s.mem.length_readBytes s.rip.toNat k) ▸ decode_more hmore
  simp [fetchDecode, fetchable, fetchRun_stopped h hk he, hmore]

/-! ## The step (R218) -/

/-- Settles O48. -/
theorem stepRunsTheDecodedInstruction : Obligations.StepRunsTheDecodedInstruction := by
  intro s i rest hrun hstop h64 hdec
  rw [step_running hrun hstop h64, fetchDecode_ok hdec]

/-- Settles O49: the fetched bytes begin with the encoding, which decodes to the instruction whatever follows it. -/
theorem stepRunsTheBytesAtRip : Obligations.StepRunsTheBytesAtRip := by
  intro s i hwf hrun hstop h64 hfetch hbytes
  have hread : s.mem.readBytes s.rip.toNat i.length = encode i := by
    rw [← length_encode]
    exact Memory.readBytes_eq hbytes
  have hdec : decode (fetchable s) = .ok i (fetchRun s i.length (maxLength - i.length)).1 := by
    rw [fetchable_eq i.length_bounds.2 hfetch, hread]
    exact decodeOfEncode i _ hwf
  exact stepRunsTheDecodedInstruction s i _ hrun hstop h64 hdec

/-- Settles O50: the next byte is the one the decoder needs, and its fetch stops at the first check it fails. -/
theorem fetchFaults : Obligations.FetchFaults := by
  intro s k hrun hstop h64 hfetch hmore
  have hstopped {e : FetchStop} (he : fetchByte s k = .error e) : fetchDecode s = .stopped e :=
    fetchDecode_stopped hfetch hmore he
  rw [step_running hrun hstop h64]
  refine ⟨fun hbad => ?_, fun hok hunmapped => ?_, fun hok hmapped hstored => ?_⟩
  · rw [hstopped (fetchByte_gp hbad)]
    exact raise_eq _ _
  · rw [hstopped (fetchByte_unmapped hok hunmapped)]
    exact raise_eq _ _
  · rw [hstopped (fetchByte_stored hok hmapped hstored)]

/-- Settles O52: the checks of `step` before the fetch, one by one. -/
theorem whereThereIsNoStep : Obligations.WhereThereIsNoStep := by
  intro s
  refine ⟨fun k a h => ?_, fun r a h => ?_, fun h hstop => ?_, fun h hstop hmode => ?_⟩
  · simp [step, h]
  · simp [step, h]
  · simp [step, h, hstop]
  · simp [step, h, hstop, hmode]

/-! ## Far pointers (R202) -/

theorem FarPointer.length_bytes (asz : AddrSize) (p : FarPointer) : (p.bytes asz).length = addrSizeBytes asz + 2 := by
  simp [FarPointer.bytes]

theorem FarPointer.take_bytes (asz : AddrSize) (p : FarPointer) :
    (p.bytes asz).take (addrSizeBytes asz) = leBytes (addrSizeBytes asz) p.ea :=
  List.take_left' (length_leBytes _ _)

theorem FarPointer.drop_bytes (asz : AddrSize) (p : FarPointer) :
    (p.bytes asz).drop (addrSizeBytes asz) = leBytes 2 (p.selector.setWidth 64) :=
  List.drop_left' (length_leBytes _ _)

/-! ## The sizes and the views of the two pointers (R210, 10_state.md R28) -/

theorem stackPointerSize_of_ne {m : Submode} (h : m ≠ .bits64) (b : Bool) :
    stackPointerSize m b = if b then .a32 else .a16 := by
  cases m with
  | bits64 => exact absurd rfl h
  | compatibility | legacyProtected | virtual8086 | real => rfl

theorem instructionPointerSize_of_ne {m : Submode} (h : m ≠ .bits64) (d : Bool) :
    instructionPointerSize m d = if d then .a32 else .a16 := by
  cases m with
  | bits64 => exact absurd rfl h
  | compatibility | legacyProtected | virtual8086 | real => rfl

/-- A pointer is as many low bits of its register as its size has. -/
theorem toNat_pointerView (asz : AddrSize) (v : Word) :
    (pointerView asz v).toNat = v.toNat % 2 ^ (8 * addrSizeBytes asz) := by
  have hv := v.isLt
  cases asz with
  | a64 => exact (Nat.mod_eq_of_lt hv).symm
  | a32 | a16 =>
    simp only [pointerView, addrSizeBytes, BitVec.toNat_setWidth]
    omega

/-- Settles O60: the bytes of a far pointer are cut after the effective address, and each pointer is a view of its
register. -/
theorem farPointersAndStackPointerSize : Obligations.FarPointersAndStackPointerSize := by
  refine ⟨fun p => ?_, fun asz p => ?_, fun p => ?_, fun b => ⟨rfl, rfl⟩, fun m hm => ?_, fun s m hm => ?_⟩
  · exact ⟨p.length_bytes .a16, p.length_bytes .a32, p.length_bytes .a64⟩
  · rw [FarPointer.drop_bytes]
    refine leWord_leBytes_lt ?_
    have := p.selector.isLt
    rw [BitVec.toNat_setWidth]
    omega
  · exact (congrArg leWord (p.take_bytes .a64)).trans (leWord_leBytes p.ea)
  · simp [stackPointerSize_of_ne hm, instructionPointerSize_of_ne hm]
  · rw [State.instructionPointer, State.stackPointer, hm]
    exact ⟨⟨_, rfl, toNat_pointerView _ _⟩, ⟨_, rfl, toNat_pointerView _ _⟩⟩

end Sys2Proof.Machine
end

section
/-! SUPPORT. Proofs of the statements on MOV and LEA (42_data_movement.md): each form ends in one register write, in one
store, or in the exception of its memory operand; what each of the three ends leaves is said once. -/

namespace Sys2Proof.Machine

/-! ## A register write -/

theorem sameRegsBut_setReg (s : State) (d : Reg) (v : Word) : SameRegsBut [d] s (s.setReg d v) := fun r hr => by
  rw [State.reg_setReg, if_neg (by simpa using hr)]

/-- An instruction that ends in one register write completes; `f` is how a statement reads the destination. -/
theorem completes_setReg {α : Type} (f : Word → α) {i : Instr} {s : State} {d : Reg} {v nx : Word} {a : α}
    (hv : f v = a) (hexec : exec i s = .next ((s.setReg d v).setRip (nextRip i s))) (hnx : nextRip i s = nx) :
    ∃ t, exec i s = .next t ∧ f (t.reg d) = a ∧ Completed [d] nx s t ∧ SameBytes s t := by
  refine ⟨_, hexec, ?_, ⟨hnx, rfl, sameSystem_refl s, sameRegsBut_setReg s d v⟩, sameBytes_of_eq rfl rfl⟩
  rw [State.setRip_reg, State.reg_setReg, if_pos rfl, hv]

/-! ### Immediates (R231, R232, R236) -/

theorem toNat_zext32 (v : BitVec 32) : (zext32 v).toNat = v.toNat :=
  BitVec.toNat_setWidth_of_le (by decide)

theorem opLow_zext32 (v : BitVec 32) : opLow .d32 (zext32 v) = zext32 v := by
  apply BitVec.eq_of_toNat_eq
  rw [toNat_opLow_d32, toNat_zext32, Nat.mod_eq_of_lt v.isLt]

theorem toInt_sext32 (v : BitVec 32) : (sext32 v).toInt = v.toInt := BitVec.toInt_signExtend_of_le (by decide)

/-- Settles O26: one write of the immediate, whole or zero-extended. -/
theorem movImmediateToRegister : Obligations.MovImmediateToRegister :=
  ⟨fun _ _ _ => completes_setReg id rfl rfl rfl,
   fun _ rex _ imm => completes_setReg BitVec.toNat (toNat_zext32 imm) rfl (by cases rex <;> rfl)⟩

/-! ### Register operands (R233 to R236) -/

theorem opLow_opLow (n : OpSize) (v : Word) : opLow n (opLow n v) = opLow n v := by
  cases n with
  | q64 => rfl
  | d32 => exact opLow_zext32 (trunc32 v)

/-- Settles O27: the destination holds `opLow` of the source, whose value each form reads. -/
theorem movRegisterForms : Obligations.MovRegisterForms := by
  refine ⟨fun s rex d r => ?_, fun s d r => ?_, fun s rex d r => ?_, fun s d r => ?_, fun s rex d imm => ?_,
    fun s d imm => ?_⟩
  · exact completes_setReg BitVec.toNat (toNat_opLow_d32 _) rfl (by cases rex <;> rfl)
  · exact completes_setReg id rfl rfl rfl
  · have hvalue : (opLow .d32 (opLow .d32 (s.reg r))).toNat = (s.reg r).toNat % 2 ^ 32 := by
      rw [opLow_opLow, toNat_opLow_d32]
    exact completes_setReg BitVec.toNat hvalue rfl (by cases rex <;> rfl)
  · exact completes_setReg id rfl rfl rfl
  · have hvalue : (opLow .d32 (zext32 imm)).toNat = imm.toNat := by rw [opLow_zext32, toNat_zext32]
    exact completes_setReg BitVec.toNat hvalue rfl (by cases rex <;> rfl)
  · exact completes_setReg BitVec.toInt (toInt_sext32 imm) rfl rfl

/-! ### LEA (R240) -/

/-- The effective address of either size against the unbounded sum. -/
theorem toNat_effAddr (s : State) (nx : Word) (a : Bool) (m : MemOperand) :
    ((effAddr s nx a m).toNat : Int) = unboundedSum s nx m % (if a then 2 ^ 32 else 2 ^ 64) := by
  cases a with
  | false => exact toNat_effAddr_a64 s nx m
  | true => exact toNat_effAddr_a32 s nx m

/-- Operand size 32 keeps the low 32 bits of the sum, whatever the address size. -/
theorem toNat_opLow_effAddr (s : State) (nx : Word) (a : Bool) (m : MemOperand) :
    ((opLow .d32 (effAddr s nx a m)).toNat : Int) = unboundedSum s nx m % 2 ^ 32 := by
  have h := toNat_effAddr s nx a m
  rw [toNat_opLow_d32]
  cases a with
  | false => rw [if_neg (by decide)] at h; omega
  | true => rw [if_pos rfl] at h; omega

/-- Settles O33: one write of the effective address, whole or cut to its low 32 bits. -/
theorem leaWritesTheEffectiveAddress : Obligations.LeaWritesTheEffectiveAddress :=
  ⟨fun s a _ m => completes_setReg (fun w => (w.toNat : Int)) (toNat_effAddr s _ a m) rfl rfl,
   fun s _ a _ m => completes_setReg (fun w => (w.toNat : Int)) (toNat_opLow_effAddr s _ a m) rfl rfl⟩

/-! ## A load (R234, R238) -/

theorem movFromMoffs_readable {s : State} {nx : Word} {n : OpSize} {o : Moffs}
    (h : Readable s (moffsLinear s o) (opBytes n)) :
    movFromMoffs s nx n o = .next ((s.setRegSized n .rax (loaded s (moffsLinear s o) (opBytes n))).setRip nx) := by
  rw [movFromMoffs, readMoffs, load_ok h]; rfl

/-- A loaded value has no bit above its operand size. -/
theorem opLow_loaded (n : OpSize) (s : State) (la : Word) :
    opLow n (loaded s la (opBytes n)) = loaded s la (opBytes n) := by
  cases n with
  | q64 => rfl
  | d32 =>
    apply BitVec.eq_of_toNat_eq
    rw [toNat_opLow_d32]
    exact Nat.mod_eq_of_lt (loaded_lt s la 4)

theorem opBytes_le (n : OpSize) : opBytes n ≤ 8 := by cases n <;> decide

/-- An instruction that ends in one load completes, with the bytes at `la` in its destination. -/
theorem completes_load {n : OpSize} {i : Instr} {s : State} {d : Reg} {la : Word}
    (hexec : exec i s = .next ((s.setRegSized n d (loaded s la (opBytes n))).setRip (nextRip i s))) :
    ∃ t, exec i s = .next t ∧ (t.reg d).toNat < 2 ^ (8 * opBytes n) ∧
      (∀ k, k < opBytes n → byteOf (t.reg d) k = s.mem.read (la.toNat + k)) ∧
      Completed [d] (nextRip i s) s t ∧ SameBytes s t := by
  obtain ⟨t, ht, hreg, hframe⟩ := completes_setReg id (opLow_loaded n s la) hexec rfl
  rw [id] at hreg
  refine ⟨t, ht, ?_, fun k hk => ?_, hframe⟩
  · rw [hreg]
    exact loaded_lt s la _
  · rw [hreg]
    exact byteOf_loaded s la hk (hk.trans_le (opBytes_le n))

/-- Settles O29: `movFromRm` on a readable operand ends in one load. -/
theorem movLoadsFromMemory : Obligations.MovLoadsFromMemory := by
  refine ⟨fun s rex d p m h => ?_, fun s d p m h => ?_⟩
  · exact completes_load (n := .d32) (movFromRm_mem d h)
  · obtain ⟨t, ht, -, hrest⟩ := completes_load (n := .q64) (i := .movR64Rm64 d (.mem p m)) (movFromRm_mem d h)
    exact ⟨t, ht, hrest⟩

/-- Settles O30: `movFromMoffs` on a readable offset ends in one load. -/
theorem movFromMemoryOffset : Obligations.MovFromMemoryOffset := by
  refine ⟨fun s rex o h => ?_, fun s o h => ?_⟩
  · exact completes_load (n := .d32) (movFromMoffs_readable h)
  · obtain ⟨t, ht, -, hrest⟩ := completes_load (n := .q64) (i := .movRaxMoffs o) (movFromMoffs_readable h)
    exact ⟨t, ht, hrest⟩

/-! ## A store (R233, R236, R239) -/

theorem movToMoffs_writable {s : State} {nx : Word} {n : OpSize} {o : Moffs}
    (h : Writable s (moffsLinear s o) (opBytes n)) :
    movToMoffs s nx n o = .next ((stored s (moffsLinear s o) (opBytes n) (s.reg .rax)).setRip nx) := by
  rw [movToMoffs, writeMoffs, store_ok _ h]; rfl

/-- An instruction that ends in one store to writable bytes completes, and stores what the statements say. -/
theorem completes_store {i : Instr} {s : State} {la v : Word} {n : Nat} (hwf : Memory.wf s.mem = true)
    (hw : Writable s la n) (hexec : exec i s = .next ((stored s la n v).setRip (nextRip i s))) :
    ∃ t, exec i s = .next t ∧ StoresBytes s t la n v ∧ Completed [] (nextRip i s) s t :=
  ⟨_, hexec, storesBytes_stored v hwf hw.1.1, rfl, rfl, sameSystem_refl s, fun _ _ => rfl⟩

/-- Settles O28: `movToRm` on a writable operand ends in one store. -/
theorem movStoresToMemory : Obligations.MovStoresToMemory := by
  refine ⟨fun s rex p m r hwf hw => ?_, fun s p m r hwf hw => ?_, fun s rex p m imm hwf hw => ?_,
    fun s p m imm hwf hw => ?_⟩
  · exact completes_store hwf hw (movToRm_mem (n := .d32) _ hw)
  · exact completes_store hwf hw (movToRm_mem (n := .q64) _ hw)
  · exact completes_store hwf hw (movToRm_mem (n := .d32) _ hw)
  · exact completes_store hwf hw (movToRm_mem (n := .q64) _ hw)

/-- Settles O31: `movToMoffs` on a writable offset ends in one store. -/
theorem movToMemoryOffset : Obligations.MovToMemoryOffset :=
  ⟨fun _ _ _ hwf hw => completes_store hwf hw (movToMoffs_writable (n := .d32) hw),
   fun _ _ hwf hw => completes_store hwf hw (movToMoffs_writable (n := .q64) hw)⟩

/-! ## Frames (R304): completed or raised -/

/-- `o` is the write of `d` and of `rip`, or an exception of the instruction at `s`. -/
def WritesRegOrRaises (d : Reg) (s : State) (o : Host.Outcome State Fault Refusal) : Prop :=
  (∃ v nx, o = .next ((s.setReg d v).setRip nx)) ∨ ∃ k, o = .next (Raised k s)

theorem WritesRegOrRaises.frame {d : Reg} {s t : State} {o : Host.Outcome State Fault Refusal}
    (h : WritesRegOrRaises d s o) (ho : o = .next t) :
    SameRegsBut [d] s t ∧ SameBytes s t ∧ SameSystem s t ∧
      (t.status = s.status ∨ ∃ k, t.status = .faulted k s.rip) := by
  subst ho
  obtain ⟨v, nx, ho⟩ | ⟨k, ho⟩ := h <;> cases ho
  · exact ⟨sameRegsBut_setReg s d v, sameBytes_of_eq rfl rfl, sameSystem_refl s, .inl rfl⟩
  · exact ⟨fun _ _ => rfl, sameBytes_of_eq rfl rfl, sameSystem_raised k s, .inr ⟨k, rfl⟩⟩

theorem movFromRm_writesRegOrRaises (s : State) (nx : Word) (n : OpSize) (d : Reg) (o : RegMem) :
    WritesRegOrRaises d s (movFromRm s nx n d o) := by
  cases o with
  | reg r => exact .inl ⟨_, _, movFromRm_reg s nx n d r⟩
  | mem p m =>
    obtain ⟨-, h⟩ | ⟨-, h⟩ | ⟨-, -, h⟩ := movFromRm_mem_cases s nx n d p m
    · exact .inl ⟨_, _, h⟩
    · exact .inr ⟨_, h⟩
    · exact .inr ⟨_, h⟩

theorem movFromMoffs_writesRegOrRaises (s : State) (nx : Word) (n : OpSize) (o : Moffs) :
    WritesRegOrRaises .rax s (movFromMoffs s nx n o) := by
  obtain ⟨-, h⟩ | ⟨-, h⟩ | ⟨-, -, h⟩ := movFromMoffs_cases s nx n o
  · exact .inl ⟨_, _, h⟩
  · exact .inr ⟨_, h⟩
  · exact .inr ⟨_, h⟩

/-- Settles O45: the forms without a memory operand write their destination; the loads write it or raise. -/
theorem frameOfRegisterForms : Obligations.FrameOfRegisterForms := by
  intro s t i d hi hexec
  refine WritesRegOrRaises.frame ?_ hexec
  obtain ⟨imm, rfl⟩ | ⟨rex, imm, rfl⟩ | ⟨rex, r, rfl⟩ | ⟨r, rfl⟩ | ⟨rex, imm, rfl⟩ | ⟨imm, rfl⟩ | ⟨rex, a, m, rfl⟩ |
    ⟨a, m, rfl⟩ | ⟨rex, o, rfl⟩ | ⟨o, rfl⟩ | ⟨rfl, rex, o, rfl⟩ | ⟨rfl, o, rfl⟩ := hi
  · exact .inl ⟨_, _, rfl⟩
  · exact .inl ⟨_, _, rfl⟩
  · exact .inl ⟨_, _, movToRm_reg s _ .d32 d _⟩
  · exact .inl ⟨_, _, movToRm_reg s _ .q64 d _⟩
  · exact .inl ⟨_, _, movToRm_reg s _ .d32 d _⟩
  · exact .inl ⟨_, _, movToRm_reg s _ .q64 d _⟩
  · exact .inl ⟨_, _, rfl⟩
  · exact .inl ⟨_, _, rfl⟩
  · exact movFromRm_writesRegOrRaises s _ .d32 d o
  · exact movFromRm_writesRegOrRaises s _ .q64 d o
  · exact movFromMoffs_writesRegOrRaises s _ .d32 o
  · exact movFromMoffs_writesRegOrRaises s _ .q64 o

/-- `o` is a store of `n` bytes at `la` and the write of `rip`, or an exception of the instruction at `s`. -/
def StoresOrRaises (la : Word) (n : Nat) (s : State) (o : Host.Outcome State Fault Refusal) : Prop :=
  (∃ v nx, o = .next ((stored s la n v).setRip nx)) ∨ ∃ k, o = .next (Raised k s)

theorem StoresOrRaises.frame {la : Word} {n : Nat} {s t : State} {o : Host.Outcome State Fault Refusal}
    (h : StoresOrRaises la n s o) (ho : o = .next t) :
    SameRegsBut [] s t ∧ SameBytesOutside la n s t ∧ SameSystem s t ∧
      (t.status = s.status ∨ ∃ k, t.status = .faulted k s.rip) := by
  subst ho
  obtain ⟨v, nx, ho⟩ | ⟨k, ho⟩ := h <;> cases ho
  · exact ⟨fun _ _ => rfl, stored_outside s la n v, sameSystem_refl s, .inl rfl⟩
  · exact ⟨fun _ _ => rfl, fun _ _ => ⟨rfl, rfl⟩, sameSystem_raised k s, .inr ⟨k, rfl⟩⟩

theorem movToRm_storesOrRaises (s : State) (nx : Word) (n : OpSize) (p : Prefixes) (m : MemOperand) (v : Word) :
    StoresOrRaises (memAddr s nx p m) (opBytes n) s (movToRm s nx n (.mem p m) v) := by
  obtain ⟨-, h⟩ | ⟨-, h⟩ | ⟨-, -, h⟩ | ⟨-, -, h⟩ := movToRm_mem_cases s nx n p m v
  · exact .inl ⟨_, _, h⟩
  · exact .inr ⟨_, h⟩
  · exact .inr ⟨_, h⟩
  · exact .inr ⟨_, h⟩

theorem movToMoffs_storesOrRaises (s : State) (nx : Word) (n : OpSize) (o : Moffs) :
    StoresOrRaises (moffsLinear s o) (opBytes n) s (movToMoffs s nx n o) := by
  obtain ⟨-, h⟩ | ⟨-, h⟩ | ⟨-, -, h⟩ | ⟨-, -, h⟩ := movToMoffs_cases s nx n o
  · exact .inl ⟨_, _, h⟩
  · exact .inr ⟨_, h⟩
  · exact .inr ⟨_, h⟩
  · exact .inr ⟨_, h⟩

/-- Settles O46: each form stores at the address its meaning computes, or raises. -/
theorem frameOfStoringMoves : Obligations.FrameOfStoringMoves := by
  intro s t i la n hi hexec
  refine StoresOrRaises.frame ?_ hexec
  obtain ⟨rex, p, m, r, rfl, rfl, rfl⟩ | ⟨p, m, r, rfl, rfl, rfl⟩ | ⟨rex, p, m, imm, rfl, rfl, rfl⟩ |
    ⟨p, m, imm, rfl, rfl, rfl⟩ | ⟨rex, o, rfl, rfl, rfl⟩ | ⟨o, rfl, rfl, rfl⟩ := hi
  · exact movToRm_storesOrRaises s _ .d32 p m _
  · exact movToRm_storesOrRaises s _ .q64 p m _
  · exact movToRm_storesOrRaises s _ .d32 p m _
  · exact movToRm_storesOrRaises s _ .q64 p m _
  · exact movToMoffs_storesOrRaises s _ .d32 o
  · exact movToMoffs_storesOrRaises s _ .q64 o

end Sys2Proof.Machine
end

section
/-! SUPPORT. Proofs of the statements on PUSH, POP, the control transfers, INT and IRET (43_stack_and_control.md): PUSH
and CALL end in one push, POP and RET read the top of the stack, and a transfer checks its target; what each of these
gives on references and targets that pass their checks is said once. -/

namespace Sys2Proof.Machine

/-! ## Relations between states -/

theorem SameSystem.trans {s t u : State} (h : SameSystem s t) (h' : SameSystem t u) : SameSystem s u := by
  obtain ⟨hfs, hgs, hsel, hL, hD, hB, hmode, hcfg⟩ := h
  obtain ⟨hfs', hgs', hsel', hL', hD', hB', hmode', hcfg'⟩ := h'
  exact ⟨hfs'.trans hfs, hgs'.trans hgs, hsel'.trans hsel, hL'.trans hL, hD'.trans hD, hB'.trans hB,
    hmode'.trans hmode, hcfg'.trans hcfg⟩

theorem SameSystem.cfg_eq {s t : State} (h : SameSystem s t) : t.cfg = s.cfg := by
  obtain ⟨-, -, -, -, -, -, -, hcfg⟩ := h
  exact hcfg

/-- The checks of a load look at the launch parameters only. -/
theorem SameSystem.readable {s t : State} (h : SameSystem s t) {la : Word} {n : Nat} (hr : Readable s la n) :
    Readable t la n := by
  rw [Readable, CanonicalRef, MappedRef, h.cfg_eq]
  exact hr

theorem SameRegsBut.trans {ds ds' : List Reg} {s t u : State} (h : SameRegsBut ds s t) (h' : SameRegsBut ds' t u)
    (hsub : ds ⊆ ds') : SameRegsBut ds' s u :=
  fun r hr => (h' r hr).trans (h r fun hmem => hr (hsub hmem))

/-- A register of the list that is as before may leave the list. -/
theorem SameRegsBut.of_cons {d : Reg} {ds : List Reg} {s t : State} (h : SameRegsBut (d :: ds) s t)
    (hd : t.reg d = s.reg d) : SameRegsBut ds s t := fun r hr => by
  by_cases hrd : r = d
  · rw [hrd, hd]
  · exact h r (List.not_mem_cons_of_ne_of_not_mem hrd hr)

theorem SameBytesOutside.trans_sameBytes {la : Word} {n : Nat} {s t u : State} (h : SameBytesOutside la n s t)
    (h' : SameBytes t u) : SameBytesOutside la n s u := fun a ha => by
  obtain ⟨hread, hwrote⟩ := h a ha
  obtain ⟨hread', hwrote'⟩ := h' a
  exact ⟨hread'.trans hread, hwrote'.trans hwrote⟩

/-! ## The next instruction (41_pointers_stack_ip.md R217) -/

theorem nextRip_pushR64 (rex : Bool) (r : Reg) (s : State) :
    nextRip (.pushR64 rex r) s = s.rip + (if rex then 2 else 1) := by cases rex <;> rfl

theorem nextRip_popR64 (rex : Bool) (d : Reg) (s : State) :
    nextRip (.popR64 rex d) s = s.rip + (if rex then 2 else 1) := by cases rex <;> rfl

/-! ## A push (R261, R264) -/

/-- The state after `v` is pushed. -/
def pushed (s : State) (v : Word) : State := (stored s (pushSlot s) 8 v).setReg .rsp (pushSlot s)

theorem push_ok {s : State} (v : Word) (hw : Writable s (pushSlot s) 8) : push s v = .ok (pushed s v) := by
  rw [← linear_ss s (pushSlot s)] at hw
  rw [push, store_ok v hw, linear_ss]
  rfl

theorem sameRegsBut_pushed (s : State) (v : Word) : SameRegsBut [.rsp] s (pushed s v) :=
  sameRegsBut_setReg (stored s (pushSlot s) 8 v) .rsp (pushSlot s)

/-- An instruction that ends in a push to a writable slot completes, with the bytes stored and RSP at them. -/
theorem completes_push {i : Instr} {s : State} {v nx : Word} (hwf : Memory.wf s.mem = true)
    (hw : Writable s (pushSlot s) 8) (hexec : exec i s = .next ((pushed s v).setRip nx)) :
    ∃ t, exec i s = .next t ∧ StoresBytes s t (pushSlot s) 8 v ∧ t.reg .rsp = pushSlot s ∧ Completed [.rsp] nx s t := by
  have hrsp : (pushed s v).reg .rsp = pushSlot s := by rw [pushed, State.reg_setReg, if_pos rfl]
  exact ⟨_, hexec, storesBytes_stored v hwf hw.1.1, hrsp, rfl, rfl, sameSystem_refl s, sameRegsBut_pushed s v⟩

/-- Settles O34: PUSH ends in the push of the old register value. -/
theorem pushStoresBelowTheStackPointer : Obligations.PushStoresBelowTheStackPointer := by
  intro s rex r hwf hw
  have hexec : exec (.pushR64 rex r) s = .next ((pushed s (s.reg r)).setRip (nextRip (.pushR64 rex r) s)) := by
    rw [exec, execPushR64, push_ok _ hw]
    rfl
  rw [nextRip_pushR64] at hexec
  exact completes_push hwf hw hexec

/-! ## The target of a transfer (R263 to R266, R270) -/

theorem checkTarget_ok {s : State} {target : Word} (h : canonical s.cfg target = true) :
    checkTarget s target = .ok () := if_pos h

theorem checkTarget_gp {s : State} {target : Word} (h : canonical s.cfg target = false) :
    checkTarget s target = .error .gp := by
  rw [checkTarget, h]
  rfl

theorem jumpTo_gp {s : State} {target : Word} (h : canonical s.cfg target = false) :
    jumpTo s target = .next (Raised .gp s) := by
  rw [jumpTo, checkTarget_gp h]
  rfl

/-- A jump to a canonical target completes there. -/
theorem completes_jump {i : Instr} {s : State} {target : Word} (hexec : exec i s = jumpTo s target)
    (h : canonical s.cfg target = true) :
    ∃ t, exec i s = .next t ∧ Completed [] target s t ∧ SameBytes s t := by
  have hjump : jumpTo s target = .next (s.setRip target) := by
    rw [jumpTo, checkTarget_ok h]
    rfl
  exact ⟨_, hexec.trans hjump, ⟨rfl, rfl, sameSystem_refl s, fun _ _ => rfl⟩, sameBytes_of_eq rfl rfl⟩

/-- Settles O36: both forms are a jump to `next` plus the displacement, with `next` 2 or 5 bytes on. -/
theorem jmpGoesToTheRelativeTarget : Obligations.JmpGoesToTheRelativeTarget :=
  ⟨fun _ _ h => completes_jump rfl h, fun _ _ h => completes_jump rfl h⟩

/-- CALL checks its target before it pushes (R264). -/
theorem execCallRel32_gp {s : State} {rel : BitVec 32} (h : canonical s.cfg (callTarget rel s) = false) :
    execCallRel32 rel s = .next (Raised .gp s) := by
  simp only [execCallRel32, checkTarget_gp h]
  rfl

theorem execCallRel32_ok {s : State} {rel : BitVec 32} (h : canonical s.cfg (callTarget rel s) = true)
    (hw : Writable s (pushSlot s) 8) :
    execCallRel32 rel s = .next ((pushed s (nextRip (.callRel32 rel) s)).setRip (callTarget rel s)) := by
  simp only [execCallRel32, checkTarget_ok h, push_ok _ hw]
  rfl

/-- Settles O37: CALL ends in the push of `next`, which is 5 bytes on, and goes to its target. -/
theorem callPushesTheReturnAddress : Obligations.CallPushesTheReturnAddress :=
  fun _ _ hwf hcanonical hw => completes_push hwf hw (execCallRel32_ok hcanonical hw)

/-! ## The top of the stack (R262, R265) -/

theorem top_ok {s : State} (h : Readable s (s.reg .rsp) 8) : top s = .ok (loaded s (s.reg .rsp) 8) := by
  rw [← linear_ss s (s.reg .rsp)] at h
  rw [top, load_ok h, linear_ss]

theorem dropTop_rsp (s : State) : (dropTop s).reg .rsp = s.reg .rsp + 8 := by
  rw [dropTop, State.reg_setReg, if_pos rfl]

theorem sameRegsBut_dropTop (s : State) : SameRegsBut [.rsp] s (dropTop s) := sameRegsBut_setReg s .rsp _

/-- What POP leaves of the registers: `d` is written after RSP has moved. -/
theorem sameRegsBut_pop (s : State) (d : Reg) (v : Word) : SameRegsBut [d, .rsp] s ((dropTop s).setReg d v) :=
  fun r hr => by
    obtain ⟨hd, hrsp⟩ := List.ne_and_not_mem_of_not_mem_cons hr
    rw [State.reg_setReg, if_neg hd]
    exact sameRegsBut_dropTop s r hrsp

/-- Settles O35: POP writes the loaded value after it has moved RSP. -/
theorem popLoadsTheTopOfTheStack : Obligations.PopLoadsTheTopOfTheStack := by
  intro s rex d hr
  have hexec : exec (.popR64 rex d) s =
      .next (((dropTop s).setReg d (loaded s (s.reg .rsp) 8)).setRip (nextRip (.popR64 rex d) s)) := by
    rw [exec, execPopR64, top_ok hr]
    rfl
  refine ⟨_, hexec, fun k hk => ?_, fun hd => ?_,
    ⟨nextRip_popR64 rex d s, rfl, sameSystem_refl s, sameRegsBut_pop s d _⟩, sameBytes_of_eq rfl rfl⟩
  · rw [State.setRip_reg, State.reg_setReg, if_pos rfl]
    exact byteOf_loaded s (s.reg .rsp) hk hk
  · rw [State.setRip_reg, State.reg_setReg, if_neg hd.symm, dropTop_rsp]

/-- RET on a readable slot goes on with the value the slot holds. -/
theorem execRet_holds {s : State} {v : Word} (hr : Readable s (s.reg .rsp) 8) (hv : HoldsBytes s (s.reg .rsp) 8 v) :
    execRet s = finish s (do checkTarget s v; pure ((dropTop s).setRip v)) := by
  rw [execRet, top_ok hr, loaded_of_holds hv]
  rfl

/-- Settles O38: RET goes to the value the slot holds and moves RSP. -/
theorem retGoesToTheTopOfTheStack : Obligations.RetGoesToTheTopOfTheStack := by
  intro s v hr hv hcanonical
  have hexec : exec .ret s = .next ((dropTop s).setRip v) := by
    rw [exec, execRet_holds hr hv, checkTarget_ok hcanonical]
    rfl
  exact ⟨_, hexec, dropTop_rsp s, ⟨rfl, rfl, sameSystem_refl s, sameRegsBut_dropTop s⟩, sameBytes_of_eq rfl rfl⟩

/-- Settles O41: the target check comes before the push of CALL, and before RSP moves in RET. -/
theorem nonCanonicalTargetRaisesGp : Obligations.NonCanonicalTargetRaisesGp := by
  refine ⟨fun s i target htarget hbad => ?_, fun s v hr hv hbad => ?_⟩
  · cases i with
    | jmpRel8 rel => cases htarget; exact jumpTo_gp hbad
    | jmpRel32 rel => cases htarget; exact jumpTo_gp hbad
    | callRel32 rel => cases htarget; exact execCallRel32_gp hbad
    | _ => cases htarget
  · rw [exec, execRet_holds hr hv, checkTarget_gp hbad]
    rfl

/-! ## POP after PUSH, RET after CALL -/

/-- The slot of a push is 8 bytes below the stack pointer, where a pop takes it back. -/
theorem rsp_restored {s t u : State} (hpush : t.reg .rsp = s.reg .rsp - 8) (hpop : u.reg .rsp = t.reg .rsp + 8) :
    u.reg .rsp = s.reg .rsp := by
  rw [hpop, hpush, BitVec.sub_add_cancel]

/-- What PUSH stored is what POP loads. -/
theorem pop_undoes_push {s t : State} {rex : Bool} (rex' : Bool) {r : Reg} (d : Reg) (hwf : Memory.wf s.mem = true)
    (hw : Writable s (s.reg .rsp - 8) 8) (hpush : exec (.pushR64 rex r) s = .next t) :
    ∃ u, exec (.popR64 rex' d) t = .next u ∧ u.reg d = s.reg r ∧ (d ≠ .rsp → u.reg .rsp = s.reg .rsp) ∧
      SameRegsBut [d, .rsp] s u := by
  obtain ⟨t', ht, ⟨hholds, -, -⟩, hrsp, -, -, hsys, hregs⟩ := pushStoresBelowTheStackPointer s rex r hwf hw
  cases hpush.symm.trans ht
  have hr : Readable t (t.reg .rsp) 8 := by
    rw [hrsp]
    exact hsys.readable hw.1
  obtain ⟨u, hu, hbytes, hrsp', ⟨-, -, -, hregs'⟩, -⟩ := popLoadsTheTopOfTheStack t rex' d hr
  have hvalue : u.reg d = s.reg r := eq_of_bytes _ _ fun k hk => by
    have hk' := hbytes k hk
    rw [hrsp, hholds k hk] at hk'
    exact hk'
  exact ⟨u, hu, hvalue, fun hd => rsp_restored hrsp (hrsp' hd), hregs.trans hregs' (List.subset_cons_self d _)⟩

/-- The address that CALL pushed is where RET goes. -/
theorem ret_undoes_call {s t : State} {rel : BitVec 32} (hwf : Memory.wf s.mem = true)
    (htarget : canonical s.cfg (s.rip + 5 + rel.signExtend 64) = true) (hw : Writable s (s.reg .rsp - 8) 8)
    (hreturn : canonical s.cfg (s.rip + 5) = true) (hcall : exec (.callRel32 rel) s = .next t) :
    ∃ u, exec .ret t = .next u ∧ u.rip = s.rip + 5 ∧ SameRegsBut [] s u ∧ SameSystem s u ∧ u.status = s.status ∧
      SameBytesOutside (s.reg .rsp - 8) 8 s u := by
  obtain ⟨t', ht, ⟨hholds, -, houtside⟩, hrsp, -, hstatus, hsys, hregs⟩ := callPushesTheReturnAddress s rel hwf htarget hw
  cases hcall.symm.trans ht
  rw [← hrsp] at hholds
  have hr : Readable t (t.reg .rsp) 8 := by
    rw [hrsp]
    exact hsys.readable hw.1
  rw [← hsys.cfg_eq] at hreturn
  obtain ⟨u, hu, hrsp', ⟨hrip, hstatus', hsys', hregs'⟩, hbytes⟩ := retGoesToTheTopOfTheStack t _ hr hholds hreturn
  exact ⟨u, hu, hrip, (hregs.trans hregs' (List.Subset.refl _)).of_cons (rsp_restored hrsp hrsp'), hsys.trans hsys',
    hstatus'.trans hstatus, houtside.trans_sameBytes hbytes⟩

/-- Settles O39: the state between the two instructions is the one O34 or O37 describes, and O35 or O38 goes on from
it. -/
theorem popUndoesPushAndRetUndoesCall : Obligations.PopUndoesPushAndRetUndoesCall :=
  ⟨fun _ _ _ rex' _ d => pop_undoes_push rex' d, fun _ _ _ => ret_undoes_call⟩

/-! ## Frames (60_exceptions.md R304): completed or raised -/

theorem exec_sameSystem_status {i : Instr} {s t : State} (h : exec i s = .next t) :
    SameSystem s t ∧ (t.status = s.status ∨ ∃ k, t.status = .faulted k s.rip) := by
  obtain ⟨hsys, hstatus, -⟩ | ⟨k, rfl, -⟩ := exec_next h
  · exact ⟨hsys, .inl hstatus⟩
  · exact ⟨sameSystem_raised k s, .inr ⟨k, rfl⟩⟩

/-- Memory changes at most in the one data reference. -/
theorem exec_sameBytesOutside {i : Instr} {s t : State} {d : DataRef} (hd : dataRef i s = some d)
    (h : exec i s = .next t) : SameBytesOutside d.la d.size s t := by
  intro a ha
  obtain ⟨-, -, ⟨hmem, hwritten⟩ | ⟨d', v, hd', -, -, hmem, hwritten⟩⟩ | ⟨k, rfl, -⟩ := exec_next h
  · exact sameBytes_of_eq hmem hwritten a
  · obtain rfl : d = d' := Option.some.inj (hd.symm.trans hd')
    rw [hmem, State.wrote, hwritten]
    exact stored_outside s d.la d.size v a ha
  · exact ⟨rfl, rfl⟩

/-- Without a storing reference memory does not change. -/
theorem exec_sameBytes {i : Instr} {s t : State} (hload : ∀ d, dataRef i s = some d → d.isStore = false)
    (h : exec i s = .next t) : SameBytes s t := by
  obtain ⟨-, -, ⟨hmem, hwritten⟩ | ⟨d, v, hd, hstore, -⟩⟩ | ⟨k, rfl, -⟩ := exec_next h
  · exact sameBytes_of_eq hmem hwritten
  · rw [hload d hd] at hstore
    cases hstore
  · exact sameBytes_of_eq rfl rfl

theorem sameRegsBut_raised (ds : List Reg) (k : FaultKind) (s : State) : SameRegsBut ds s (Raised k s) := fun _ _ => rfl

theorem execPushR64_regs {rex : Bool} {r : Reg} {s t : State} (h : execPushR64 rex r s = .next t) :
    SameRegsBut [.rsp] s t := by
  obtain ⟨-, h'⟩ | ⟨-, h'⟩ | ⟨-, -, h'⟩ | ⟨-, -, h'⟩ := execPushR64_cases rex r s <;> cases h.symm.trans h'
  · exact sameRegsBut_pushed s (s.reg r)
  · exact sameRegsBut_raised _ _ s
  · exact sameRegsBut_raised _ _ s
  · exact sameRegsBut_raised _ _ s

theorem execCallRel32_regs {rel : BitVec 32} {s t : State} (h : execCallRel32 rel s = .next t) :
    SameRegsBut [.rsp] s t := by
  obtain ⟨-, h'⟩ | ⟨-, -, h'⟩ | ⟨-, -, h'⟩ | ⟨-, -, -, h'⟩ | ⟨-, -, -, h'⟩ := execCallRel32_cases rel s <;>
    cases h.symm.trans h'
  · exact sameRegsBut_raised _ _ s
  · exact sameRegsBut_pushed s (nextRip (.callRel32 rel) s)
  · exact sameRegsBut_raised _ _ s
  · exact sameRegsBut_raised _ _ s
  · exact sameRegsBut_raised _ _ s

theorem execPopR64_regs {rex : Bool} {d : Reg} {s t : State} (h : execPopR64 rex d s = .next t) :
    SameRegsBut [d, .rsp] s t := by
  obtain ⟨-, h'⟩ | ⟨-, h'⟩ | ⟨-, -, h'⟩ := execPopR64_cases rex d s <;> cases h.symm.trans h'
  · exact sameRegsBut_pop s d _
  · exact sameRegsBut_raised _ _ s
  · exact sameRegsBut_raised _ _ s

theorem execRet_regs {s t : State} (h : execRet s = .next t) : SameRegsBut [.rsp] s t := by
  obtain ⟨-, h'⟩ | ⟨-, -, h'⟩ | ⟨-, -, h'⟩ | ⟨-, -, h'⟩ := execRet_cases s <;> cases h.symm.trans h'
  · exact sameRegsBut_raised _ _ s
  · exact sameRegsBut_raised _ _ s
  · exact sameRegsBut_dropTop s
  · exact sameRegsBut_raised _ _ s

theorem jumpTo_regs {s t : State} {target : Word} (h : jumpTo s target = .next t) : SameRegsBut [] s t := by
  obtain ⟨-, h'⟩ | ⟨-, h'⟩ := jumpTo_cases s target <;> cases h.symm.trans h'
  · exact fun _ _ => rfl
  · exact sameRegsBut_raised _ _ s

/-- Settles O47: memory and the system state by the inversion of `exec` at the instruction's data reference, the
registers by what each meaning can answer. -/
theorem frameOfStackAndTransfers : Obligations.FrameOfStackAndTransfers := by
  intro s t
  refine ⟨fun i hi h => ?_, fun rex d h => ?_, fun h => ?_, fun i hi h => ?_⟩
  · have hd : dataRef i s = some ⟨.ss, pushSlot s, 8, true⟩ := by obtain ⟨rex, r, rfl⟩ | ⟨rel, rfl⟩ := hi <;> rfl
    refine ⟨?_, exec_sameBytesOutside hd h, exec_sameSystem_status h⟩
    obtain ⟨rex, r, rfl⟩ | ⟨rel, rfl⟩ := hi
    · exact execPushR64_regs h
    · exact execCallRel32_regs h
  · exact ⟨execPopR64_regs h, exec_sameBytes (fun _ hd => by cases hd; rfl) h, exec_sameSystem_status h⟩
  · exact ⟨execRet_regs h, exec_sameBytes (fun _ hd => by cases hd; rfl) h, exec_sameSystem_status h⟩
  · have hd : dataRef i s = none := by obtain ⟨rel, rfl⟩ | ⟨rel, rfl⟩ := hi <;> rfl
    refine ⟨?_, exec_sameBytes (fun _ hd' => by cases hd.symm.trans hd') h, exec_sameSystem_status h⟩
    obtain ⟨rel, rfl⟩ | ⟨rel, rfl⟩ := hi
    · exact jumpTo_regs h
    · exact jumpTo_regs h

/-! ## INT and IRET (R267, R268) -/

/-- Settles O40: the decoder answers at the opcode byte, and both meanings are the refusal by name. -/
theorem intAndIretAreRefused : Obligations.IntAndIretAreRefused :=
  ⟨fun _ => ⟨rfl, rfl⟩, fun _ => ⟨rfl, rfl⟩⟩

end Sys2Proof.Machine
end

section
/-! SUPPORT. Proofs of the statements on exceptions and faults (60_exceptions.md): what a data reference lets an
instruction raise, and that a step that raises does nothing else. -/

namespace Sys2Proof.Machine

/-! ## What an instruction raises (R316) -/

/-- An instruction with a data reference may raise what the canonical check of that segment raises (R82). -/
theorem mayRaise_canonicalFault {i : Instr} {s : State} {d : DataRef} (hd : dataRef i s = some d) :
    mayRaise i s (canonicalFault d.seg) = true := by
  rw [canonicalFault_eq]
  by_cases hss : d.seg = .ss
  · simp [mayRaise_ss, hd, hss]
  · simp [mayRaise_gp, hd, hss]

theorem mayRaise_gp_of_isTransfer {i : Instr} {s : State} (h : isTransfer i = true) : mayRaise i s .gp = true := by
  rw [mayRaise_gp, h, Bool.true_or]

/-- What `exec` raises, its row lists. -/
theorem exec_mayRaise {i : Instr} {s t : State} (h : exec i s = .next t) :
    t.status = s.status ∨ ∃ k, t = Raised k s ∧ mayRaise i s k = true := by
  obtain ⟨-, hstatus, -⟩ | ⟨k, ht, ⟨d, hd, rfl | ⟨rfl, hstore⟩ | rfl⟩ | ⟨rfl, hi⟩⟩ := exec_next h
  · exact .inl hstatus
  · exact .inr ⟨_, ht, by rw [mayRaise_unmapped, hd, Option.isSome_some]⟩
  · exact .inr ⟨_, ht, by rw [mayRaise_codeWrite, hd, Option.any_some, hstore]⟩
  · exact .inr ⟨_, ht, mayRaise_canonicalFault hd⟩
  · refine .inr ⟨_, ht, mayRaise_gp_of_isTransfer ?_⟩
    obtain rfl | ⟨target, htarget, -⟩ := hi
    · rfl
    · exact isTransfer_of_target htarget

/-- Settles O43: from a running state a recorded fault is the one that `exec` raised. -/
theorem raisesOnlyWhatItsRowLists : Obligations.RaisesOnlyWhatItsRowLists := by
  intro s t i k a hrunning hexec hfault
  obtain hstatus | ⟨k', rfl, hmay⟩ := exec_mayRaise hexec
  · cases hfault.symm.trans (hstatus.trans hrunning)
  · cases hfault
    exact hmay

/-! ## Precision (R304) -/

/-- Settles O44: by `step_effect` a step raises and changes the status only, or leaves the status, which `step_next`
says was running. -/
theorem faultsArePrecise : Obligations.FaultsArePrecise := by
  intro s t hstep hended
  obtain ⟨hrunning, -, -, -⟩ := step_next hstep
  obtain ⟨k, rfl⟩ | ⟨-, hstatus, -⟩ := step_effect hstep
  · exact ⟨k, rfl⟩
  · exact absurd (hstatus.trans hrunning) hended

end Sys2Proof.Machine
end

section
/-! SUPPORT. Proofs of the statements on the launch (70_reset_and_hazards.md R331): the reset state meets its premises,
and an instruction placed at `rip` is the one the next step fetches. -/

namespace Sys2Proof.Machine

/-! ## Regions -/

@[simp] theorem inRegions_nil (a : Nat) : inRegions [] a = false := rfl

@[simp] theorem inRegions_cons (r : Region) (rs : List Region) (a : Nat) :
    inRegions (r :: rs) a = true ↔ (r.base ≤ a ∧ a < r.base + r.size) ∨ inRegions rs a = true := by
  simp [inRegions]

/-! ## The reset state as a launch -/

/-- `Mapped` at reset: the addresses below 2^47, and as many at the top of the space. -/
theorem inRegions_reset_mapped (a : Nat) :
    inRegions State.reset.cfg.mapped a = true ↔ a < 2 ^ 47 ∨ (2 ^ 64 - 2 ^ 47 ≤ a ∧ a < 2 ^ 64) := by
  simp [State.reset, Config.reset]

/-- `CodeRange` at reset: the 16 bytes at the entry. -/
theorem inRegions_reset_codeRange (a : Nat) :
    inRegions State.reset.cfg.codeRange a = true ↔ 0x1000 ≤ a ∧ a < 0x1010 := by
  simp [State.reset, Config.reset]

/-- `Mapped` at reset is a set of canonical 64-bit addresses (20_memory.md R88). -/
theorem canonical_of_reset_mapped {a : Nat} (h : inRegions State.reset.cfg.mapped a = true) :
    a < 2 ^ 64 ∧ canonical State.reset.cfg (BitVec.ofNat 64 a) = true := by
  rw [inRegions_reset_mapped] at h
  have hlt : a < 2 ^ 64 := by omega
  have htop : State.reset.cfg.vaTop.val = 47 := rfl
  rw [canonical_iff_toNat, htop, BitVec.toNat_ofNat, Nat.mod_eq_of_lt hlt]
  omega

theorem machineInv_reset : MachineInv State.reset where
  memWf := rfl
  mode64 := rfl
  fsCanonical := rfl
  gsCanonical := rfl
  mappedCanonical _ := canonical_of_reset_mapped
  codeMapped a h := by
    rw [inRegions_reset_codeRange] at h
    rw [inRegions_reset_mapped]
    omega
  storedData _ h := nomatch h
  stopCanonical := rfl
  faultAt _ _ h := nomatch h

/-- Settles O2. -/
theorem resetIsALaunch : Obligations.ResetIsALaunch where
  inv := machineInv_reset
  running := rfl
  nothingStored _ := rfl
  entryCanonical := rfl
  entryInCode := rfl

/-! ## The placed bytes -/

@[simp] theorem length_tableBytes (n w : Nat) : (tableBytes n w).length = n := by
  induction n generalizing w with
  | zero => rfl
  | succ n ih => rw [tableBytes, List.length_cons, ih]

@[simp] theorem length_tableWordBytes (nbits w : Nat) : (tableWordBytes nbits w).length = maxLength :=
  length_tableBytes ..

theorem decodeTableWord_eq_some {nbits w : Nat} {i : Instr} (h : decodeTableWord nbits w = some i) :
    ∃ rest, decode (tableWordBytes nbits w) = .ok i rest := by
  unfold decodeTableWord at h
  split at h
  · cases h
    exact ⟨_, ‹_›⟩
  · cases h
  · cases h

/-- The bytes written are the bytes read back. -/
theorem Memory.readBytes_writeBytes {m : Memory} {a : Nat} {bs : List Byte} (h : Memory.wf m = true)
    (ha : a + bs.length ≤ 2 ^ 64) : (m.writeBytes a bs).readBytes a bs.length = bs := by
  refine Memory.readBytes_eq fun k b hb => ?_
  obtain ⟨hk, rfl⟩ := List.getElem?_eq_some_iff.1 hb
  exact Memory.read_writeBytes_inside h ha hk

/-! ## What placing leaves and sets -/

@[simp] theorem placeInstruction_rip (s : State) (bs : List Byte) : (placeInstruction s bs).rip = s.rip := rfl
@[simp] theorem placeInstruction_status (s : State) (bs : List Byte) : (placeInstruction s bs).status = .running := rfl
@[simp] theorem placeInstruction_submode (s : State) (bs : List Byte) :
    (placeInstruction s bs).submode = some .bits64 := rfl
@[simp] theorem placeInstruction_mem (s : State) (bs : List Byte) :
    (placeInstruction s bs).mem = s.mem.writeBytes s.rip.toNat bs := rfl
@[simp] theorem placeInstruction_written (s : State) (bs : List Byte) :
    (placeInstruction s bs).written = if windowWritten s then [] else s.written := rfl
@[simp] theorem placeInstruction_mapped (s : State) (bs : List Byte) :
    (placeInstruction s bs).cfg.mapped =
      if windowMapped s then s.cfg.mapped else ⟨s.rip.toNat, maxLength⟩ :: s.cfg.mapped := rfl
@[simp] theorem placeInstruction_stop (s : State) (bs : List Byte) :
    (placeInstruction s bs).cfg.stop =
      if s.cfg.stop = s.rip then s.rip + BitVec.ofNat 64 maxLength else s.cfg.stop := rfl

/-- `STOP` is moved past the placed bytes when it stands at `rip`. -/
theorem placeInstruction_rip_ne_stop (s : State) (bs : List Byte) :
    (placeInstruction s bs).rip ≠ (placeInstruction s bs).cfg.stop := by
  rw [placeInstruction_rip, placeInstruction_stop]
  split
  · simp [maxLength]
  · exact Ne.symm ‹_›

/-- Placing does not change `VA_BITS`, so it does not change which references are canonical. -/
theorem canonicalRef_placeInstruction {s : State} {bs : List Byte} {la : Word} {n : Nat} (h : CanonicalRef s la n) :
    CanonicalRef (placeInstruction s bs) la n := h

/-- The window at `rip` is in `Mapped`: it was, or it is the region that placing adds. -/
theorem mappedRef_placeInstruction (s : State) (bs : List Byte) :
    MappedRef (placeInstruction s bs) s.rip maxLength := by
  intro k hk
  rw [placeInstruction_mapped]
  split
  · exact (allMapped_iff ..).1 ‹_› k hk
  · exact (inRegions_cons ..).2 (.inl ⟨Nat.le_add_right .., Nat.add_lt_add_left hk _⟩)

theorem windowWritten_eq_false_iff (s : State) : windowWritten s = false ↔ NotStored s s.rip maxLength := by
  simp [windowWritten, List.any_eq_false, NotStored]

/-- No byte of the window counts as stored: none did, or placing empties the record. -/
theorem notStored_placeInstruction (s : State) (bs : List Byte) :
    NotStored (placeInstruction s bs) s.rip maxLength := by
  intro k hk
  rw [State.wrote, placeInstruction_written]
  split
  · rfl
  · exact (windowWritten_eq_false_iff s).1 (Bool.eq_false_of_not_eq_true ‹_›) k hk

/-- Bytes that fill a canonical window are, once placed, what can be fetched. -/
theorem fetchable_placeInstruction {s : State} {bs : List Byte} (hwf : Memory.wf s.mem = true)
    (hcanon : CanonicalRef s s.rip maxLength) (hlen : bs.length = maxLength) :
    fetchable (placeInstruction s bs) = bs := by
  have hfetch : Fetchable (placeInstruction s bs) (placeInstruction s bs).rip maxLength :=
    ⟨⟨canonicalRef_placeInstruction hcanon, mappedRef_placeInstruction s bs⟩, notStored_placeInstruction s bs⟩
  have htop : s.rip.toNat + bs.length ≤ 2 ^ 64 := by
    have := (hcanon 13 (by decide)).1
    rw [hlen, maxLength]
    omega
  have hread := Memory.readBytes_writeBytes hwf htop
  rw [hlen] at hread
  rw [fetchable_eq le_rfl hfetch, placeInstruction_mem, placeInstruction_rip, hread, Nat.sub_self, fetchRun,
    List.append_nil]

/-- Settles O53: the placed bytes are what can be fetched, so the decoder reads the instruction of the word. -/
theorem placedInstructionIsRun : Obligations.PlacedInstructionIsRun := by
  intro s nbits w i hwf hcanon hword
  obtain ⟨rest, hdec⟩ := decodeTableWord_eq_some hword
  have hbytes : fetchable (s.withFetchWord nbits w) = tableWordBytes nbits w :=
    fetchable_placeInstruction hwf hcanon (length_tableWordBytes ..)
  exact stepRunsTheDecodedInstruction _ i rest (placeInstruction_status ..) (placeInstruction_rip_ne_stop _ _)
    (placeInstruction_submode ..) (hbytes ▸ hdec)

end Sys2Proof.Machine
end
